-- ==== Sys2Proof/Word.lean ====
section
/-! DEFINITION. The two widths of the block: an 8-bit memory cell (R61) and a 32-bit register (R22). -/

namespace Sys2Proof

/-- One cell of a memory space (R61). -/
abbrev Byte := BitVec 8

/-- One host-visible register (R22). -/
abbrev Word := BitVec 32

/-- The register value of a natural number. Every rule that writes a register keeps to values below 2^32 (R11). -/
abbrev wordOf (n : Nat) : Word := BitVec.ofNat 32 n

/-- The byte of a natural number. -/
abbrev byteOf (n : Nat) : Byte := BitVec.ofNat 8 n

end Sys2Proof
end

