-- ==== Sys2Proof/Config.lean ====
section
/-! DEFINITION. What an implementation fixes (R9, R41) and the free values the spec leaves open (R63, R42, R226). -/

namespace Sys2Proof

/-- The two SysEx dialects the block understands (R3). -/
inductive Dialect
  | d3D
  | d57
  deriving DecidableEq, Repr

/-- The six memory spaces (R60). `input` is IN. -/
inductive Space
  | input
  | msg
  | dmem
  | snap
  | out
  | xbuf
  deriving DecidableEq, Repr

/-- The wrapper the DEFLATE codec expects: raw RFC 1951 or zlib RFC 1950 (R226, D28). -/
inductive InflateFormat
  | raw
  | zlib
  deriving DecidableEq, Repr

/-- The places of the rules' pseudocode that read a memory space. A draw is keyed by its place, so that two reads of
one unwritten cell are two draws (R63, I9; assumption 1). -/
inductive ReadSite
  | sniff       -- R84: the first four bytes
  | header      -- R124: the MThd length
  | trackTag    -- R131: the chunk tag
  | trackLen    -- R131: the track length
  | next        -- R127: Next()
  | rawScan     -- R123: looking for the start marker
  | rawFind     -- R123: looking for the end marker
  | rawCopy     -- R123: copying the body
  | message     -- R172: MemRead(MSG, 0, L)
  | region      -- R180: the first byte of the region
  | snapshot    -- R177: the temporary-patch region
  | source      -- R200, R220, R225: the source range
  | host        -- R42: a host read
  deriving DecidableEq, Repr

/-- The parameters of R9, the window bases of R61 among them. They are arguments of the model: a claim about every
state quantifies over every value of them (R41; assumption 3). -/
structure Config where
  cap3D : Nat
  cap57 : Nat
  memBytes : Nat
  trig3D : Nat
  trig57 : Nat
  tmpBase3D : Nat
  tmpBase57 : Nat
  tmpLen3D : Nat
  tmpLen57 : Nat
  snapMax : Nat
  snapEntry : Nat
  sentinel : Byte
  inBytes : Nat
  msgBytes : Nat
  outBytes : Nat
  xbufBytes : Nat
  inflateFormat : InflateFormat
  regBase : Nat
  inBase : Nat
  msgBase : Nat
  dmemBase : Nat
  snapBase : Nat
  outBase : Nat
  xbufBase : Nat
  deriving DecidableEq, Repr

/-- The test configuration TC of 95_test_vectors.md section 1. DESIGN CHOICE (unsafe): `State.reset` carries it, since
a reset state must hold some configuration; the spec gives no window bases, so those are 0 (assumption 3). -/
def Config.tc : Config where
  cap3D := 0x8000
  cap57 := 0x10000
  memBytes := 0x10000
  trig3D := 0x1002
  trig57 := 0x2002
  tmpBase3D := 0x1000
  tmpBase57 := 0x2000
  tmpLen3D := 4
  tmpLen57 := 4
  snapMax := 2
  snapEntry := 8
  sentinel := 0xFF
  inBytes := 0x8000
  msgBytes := 512
  outBytes := 0x8000
  xbufBytes := 256
  inflateFormat := .raw
  regBase := 0
  inBase := 0
  msgBase := 0
  dmemBase := 0
  snapBase := 0
  outBase := 0
  xbufBase := 0

/-- FREE VALUE. The byte a read of a cell nothing has written returns (R63, I9): keyed by the draw counter, the place
of the read, the space and the offset (assumption 1). -/
opaque Config.freeByte (tick : Nat) (site : ReadSite) (sp : Space) (off : Nat) : Byte

/-- FREE VALUE. What a host read of a register other than STATUS returns while BUSY = 1 (R42, I10; assumption 8). -/
opaque Config.freeWord (tick : Nat) (off : Nat) : Word

/-- FREE VALUE. The external DEFLATE codec: a function of the byte sequence and INFLATE_FORMAT alone (R226;
assumption 10). -/
opaque Config.inflate (format : InflateFormat) (bytes : List Byte) : Option (List Byte)

end Sys2Proof
end

