-- ==== Sys2Proof/Syntax.lean ====
section
/-! DEFINITION. The instructions: one constructor per row of spec/opcode_table.json (R81, R91, R93). The operands of a
command stand in the latches A0 to A5, not in its word (R82), so a command constructor has no field. A stream row's
fields are the bits its match leaves open. -/

namespace Sys2Proof

/-- One constructor per row of the opcode table. -/
inductive Instr
  -- Command words (R81)
  | nop
  | imgInit
  | streamLoad
  | demuxNext
  | ingest
  | readRegion
  | emit
  | outClear
  | crc32
  | inflate
  | warnClear
  /-- Every word that is none of the eleven commands (R83, R242). -/
  | reserved (word : Word)
  -- SMF status bytes (R91); `ch` is the channel, bits 3:0
  | smfRunningData (data : BitVec 7)
  | smfCh8 (ch : BitVec 4)
  | smfCh9 (ch : BitVec 4)
  | smfChA (ch : BitVec 4)
  | smfChB (ch : BitVec 4)
  | smfProgramChange (ch : BitVec 4)
  | smfChannelPressure (ch : BitVec 4)
  | smfChE (ch : BitVec 4)
  | smfSysexStart
  | smfMtcQuarterFrame
  | smfSongPosition
  | smfSongSelect
  /-- 0xF4 and 0xF5: the low bit says which. -/
  | smfUndefinedCommon (low : BitVec 1)
  | smfTuneRequest
  | smfSysexEscape
  /-- 0xF8 to 0xFE: the low three bits; 7 would be 0xFF, which is META. -/
  | smfRealtime (low : BitVec 3)
  | smfMeta
  -- Chunk tags (R86, R87)
  | chunkMthd
  | chunkMtrk
  /-- A variable-length quantity, as its 7-bit groups, most significant first (R89). -/
  | vlq (groups : List (BitVec 7))
  /-- The start marker of a raw SysEx message (R85). -/
  | rawSysex
  -- Data Set frames (R93); `dev` is the device ID
  | dt1At3D (dev : Byte)
  | dt1At57 (dev : Byte)
  /-- One emitted frame (R202): its dialect, device ID, start address and payload. -/
  | dt1Emit (d : Dialect) (dev : BitVec 7) (addr : Nat) (payload : List Byte)
  deriving DecidableEq, Repr

end Sys2Proof
end

