-- ==== Sys2Proof/WellFormed.lean ====
section
/-! DEFINITION. Which instructions an encoding exists for. -/

namespace Sys2Proof

/-- The number of addresses a dialect's digits can name: 2^21 for three digits, 2^28 for four (R94). -/
def Dialect.addressRange : Dialect → Nat
  | .d3D => 2 ^ 21
  | .d57 => 2 ^ 28

/-- Whether the encodings of R81, R89, R91 and R93 can spell an instruction.
A reserved word is none of the eleven commands (R83). The low bits 7 of a real-time status would be META (R91). A VLQ
has one to four groups (R89). An emitted frame carries 1 to 256 bytes, and its range is encodable (R201, R204). -/
def wellFormed : Instr → Bool
  | .reserved word => decide (10 < word.toNat)
  | .smfRealtime low => decide (low ≠ 7)
  | .vlq groups => decide (1 ≤ groups.length ∧ groups.length ≤ 4)
  | .dt1Emit d _ addr payload =>
      decide (1 ≤ payload.length ∧ payload.length ≤ 256 ∧ addr + payload.length ≤ d.addressRange)
  | .nop | .imgInit | .streamLoad | .demuxNext | .ingest | .readRegion | .emit | .outClear | .crc32 | .inflate
  | .warnClear | .smfRunningData _ | .smfCh8 _ | .smfCh9 _ | .smfChA _ | .smfChB _ | .smfProgramChange _
  | .smfChannelPressure _ | .smfChE _ | .smfSysexStart | .smfMtcQuarterFrame | .smfSongPosition | .smfSongSelect
  | .smfUndefinedCommon _ | .smfTuneRequest | .smfSysexEscape | .smfMeta | .chunkMthd | .chunkMtrk | .rawSysex
  | .dt1At3D _ | .dt1At57 _ => true

/-- An instruction an encoding exists for. -/
abbrev WellFormed (i : Instr) : Prop := wellFormed i = true

end Sys2Proof
end

