-- ==== Sys2Proof/Decode.lean ====
section
/-! DEFINITION. From command words and stream bytes to instructions, total and rejecting by name, and back (R80 to
R95). The numbers, tags and byte orders of the encodings stand here. -/

namespace Sys2Proof

/-! ## Constants and byte-order helpers -/

/-- SOX, the SysEx start marker (R9). -/
def startMarker : Byte := 0xF0

/-- EOX, the SysEx end marker (R9). -/
def endMarker : Byte := 0xF7

/-- MFR_ID, the manufacturer byte of a Data Set frame (R9). -/
def manufacturerId : Byte := 0x41

/-- CMD_DT, the Data-Set command byte (R9). -/
def dataSetCommand : Byte := 0x12

/-- MAX_CHUNK, the largest payload of one emitted message (R9, R201). -/
def maxChunk : Nat := 256

/-- VLQ_MAX_BYTES, the longest variable-length quantity accepted (R9, D15). -/
def vlqMaxBytes : Nat := 4

/-- The dialect command byte (R3). -/
def Dialect.byte : Dialect → Byte
  | .d3D => 0x3D
  | .d57 => 0x57

/-- ADDR_DIGITS, the number of address digits (R9, C2). -/
def Dialect.digits : Dialect → Nat
  | .d3D => 3
  | .d57 => 4

/-- BE32 of the first four bytes of a sequence (R11). -/
def be32 : List Byte → Nat
  | b0 :: b1 :: b2 :: b3 :: _ => b0.toNat * 2 ^ 24 + b1.toNat * 2 ^ 16 + b2.toNat * 2 ^ 8 + b3.toNat
  | _ => 0

/-- The sum of the bytes of a sequence; every byte counts in full (R95). -/
def sumBytes : List Byte → Nat
  | [] => 0
  | b :: bs => b.toNat + sumBytes bs

/-- The checksum byte of the bytes from the address field onward (R95, R203). -/
def checksumOf (bytes : List Byte) : Byte := byteOf ((128 - sumBytes bytes % 128) % 128)

/-- The last `n` base-128 digits of an address, most significant first (R94). -/
def addressDigits : Nat → Nat → List Byte
  | 0, _ => []
  | n + 1, addr => byteOf ((addr >>> (7 * n)) % 128) :: addressDigits n addr

/-- The address that base-128 digits spell, most significant first, after `acc` (R94). -/
def addressOf (acc : Nat) : List Byte → Nat
  | [] => acc
  | b :: bs => addressOf (acc * 128 + b.toNat) bs

/-- The value of the groups of a VLQ, most significant first, after `acc` (R89). -/
def vlqValue (acc : Nat) : List (BitVec 7) → Nat
  | [] => acc
  | g :: gs => vlqValue (acc * 128 + g.toNat) gs

/-- The bytes of a VLQ: every byte but the last has its high bit set (R89). -/
def vlqBytes : List (BitVec 7) → List Byte
  | [] => []
  | [g] => [(0#1 ++ g : BitVec 8)]
  | g :: gs => (1#1 ++ g : BitVec 8) :: vlqBytes gs

/-- The chunk tag of an SMF header, the ASCII spelling of MThd (R84, G1). -/
def tagMthd : List Byte := [0x4D, 0x54, 0x68, 0x64]

/-- The chunk tag of an SMF track, the ASCII spelling of MTrk (R87, G2). -/
def tagMtrk : List Byte := [0x4D, 0x54, 0x72, 0x6B]

/-- The first four body bytes of a Data Set frame (R93). -/
def dataSetHeader (d : Dialect) (dev : Byte) : List Byte := [manufacturerId, dev, d.byte, dataSetCommand]

/-- One complete Data Set frame on the wire (R93, R202): start marker, header, address digits, payload, checksum, end
marker. -/
def frameBytes (d : Dialect) (dev : BitVec 7) (addr : Nat) (payload : List Byte) : List Byte :=
  startMarker :: dataSetHeader d (0#1 ++ dev : BitVec 8) ++ addressDigits d.digits addr ++ payload
    ++ [checksumOf (addressDigits d.digits addr ++ payload), endMarker]

/-! ## What is decoded -/

/-- The formats of the opcode table; the format says which table a code is read by. -/
inductive Format
  | cmdw
  | smfEvent
  | chunk
  | vlq
  | raw
  | dt1
  | dt1Emit
  deriving DecidableEq, Repr

/-- What the block decodes: a word the host wrote to CMD, or stream bytes. A command word is a 32-bit register value,
and its byte order is never observable (R65). -/
inductive Code
  | word (w : Word)
  | bytes (bs : List Byte)
  deriving DecidableEq, Repr

/-- Why a code decodes to no instruction. Command words and status bytes are never rejected (R83, R91). -/
inductive Reject
  | wrongKind     -- a word where stream bytes are read, or the other way round
  | truncated     -- the bytes end inside the instruction
  | notAChunkTag  -- R87: neither MThd nor MTrk
  | overlongVlq   -- R89: the fourth byte still has its high bit set
  | noStartMarker -- R85
  | notDataSet    -- R173: manufacturer, dialect or command byte differs
  | notAFrame     -- R202: not a complete frame that EMIT builds
  deriving DecidableEq, Repr

/-- The command a word selects; every other word is reserved (R80, R81, R83). -/
def decodeCommand (w : Word) : Instr :=
  match w.toNat with
  | 0x00 => .nop
  | 0x01 => .imgInit
  | 0x02 => .streamLoad
  | 0x03 => .demuxNext
  | 0x04 => .ingest
  | 0x05 => .readRegion
  | 0x06 => .emit
  | 0x07 => .outClear
  | 0x08 => .crc32
  | 0x09 => .inflate
  | 0x0A => .warnClear
  | _ => .reserved w

/-- The class of the byte after a delta time (R91). -/
def decodeStatus (b : Byte) : Instr :=
  match b.toNat / 16 with
  | 0x8 => .smfCh8 (b.setWidth 4)
  | 0x9 => .smfCh9 (b.setWidth 4)
  | 0xA => .smfChA (b.setWidth 4)
  | 0xB => .smfChB (b.setWidth 4)
  | 0xC => .smfProgramChange (b.setWidth 4)
  | 0xD => .smfChannelPressure (b.setWidth 4)
  | 0xE => .smfChE (b.setWidth 4)
  | 0xF =>
    match b.toNat % 16 with
    | 0x0 => .smfSysexStart
    | 0x1 => .smfMtcQuarterFrame
    | 0x2 => .smfSongPosition
    | 0x3 => .smfSongSelect
    | 0x4 => .smfUndefinedCommon 0
    | 0x5 => .smfUndefinedCommon 1
    | 0x6 => .smfTuneRequest
    | 0x7 => .smfSysexEscape
    | 0xF => .smfMeta
    | _ => .smfRealtime (b.setWidth 3)
  | _ => .smfRunningData (b.setWidth 7)

/-- The chunk whose tag these four bytes are (R86, R87). -/
def decodeChunkTag (tag : List Byte) : Option Instr :=
  if tag = tagMthd then some .chunkMthd else if tag = tagMtrk then some .chunkMtrk else none

/-- The dialect a dialect command byte names (R3). -/
def dialectOfByte (b : Byte) : Option Dialect :=
  if b = Dialect.d3D.byte then some .d3D else if b = Dialect.d57.byte then some .d57 else none

/-- The Data Set frame whose body begins with these bytes: manufacturer 0x41, dialect 0x3D or 0x57, command 0x12; the
device ID is not checked (R173). -/
def decodeDataSet : List Byte → Option Instr
  | m :: dev :: dialect :: command :: _ =>
    if m = manufacturerId ∧ command = dataSetCommand then
      match dialectOfByte dialect with
      | some .d3D => some (.dt1At3D dev)
      | some .d57 => some (.dt1At57 dev)
      | none => none
    else none
  | _ => none

/-- The groups of the VLQ that begins a byte sequence, at most `fuel` of them, and the bytes after it (R89). -/
def decodeVlq : Nat → List Byte → Except Reject (List (BitVec 7) × List Byte)
  | 0, _ => .error .overlongVlq
  | _ + 1, [] => .error .truncated
  | k + 1, b :: bs =>
    if b.toNat < 0x80 then .ok ([b.setWidth 7], bs)
    else match decodeVlq k bs with
      | .ok (gs, rest) => .ok (b.setWidth 7 :: gs, rest)
      | .error e => .error e

/-- The emitted frame that a whole byte sequence is (R202): it is read field by field and accepted when building the
frame again gives the same bytes, which checks every marker, digit and the checksum. -/
def decodeEmitted (bs : List Byte) : Option Instr :=
  match bs with
  | _ :: _ :: dev :: dialect :: _ :: rest =>
    match dialectOfByte dialect with
    | none => none
    | some d =>
      let addr := addressOf 0 (rest.take d.digits)
      let payload := (rest.drop d.digits).take (rest.length - d.digits - 2)
      if wellFormed (.dt1Emit d (dev.setWidth 7) addr payload)
          ∧ frameBytes d (dev.setWidth 7) addr payload = bs then
        some (.dt1Emit d (dev.setWidth 7) addr payload)
      else none
  | _ => none

/-- The instruction a code holds, read by the table of a format, and the stream bytes that follow it. -/
def decode (f : Format) (c : Code) : Except Reject (Instr × List Byte) :=
  match f, c with
  | .cmdw, .word w => .ok (decodeCommand w, [])
  | .smfEvent, .bytes [] => .error .truncated
  | .smfEvent, .bytes (b :: bs) => .ok (decodeStatus b, bs)
  | .chunk, .bytes bs =>
    if bs.length < 4 then .error .truncated
    else match decodeChunkTag (bs.take 4) with
      | some i => .ok (i, bs.drop 4)
      | none => .error .notAChunkTag
  | .vlq, .bytes bs =>
    match decodeVlq vlqMaxBytes bs with
    | .ok (gs, rest) => .ok (.vlq gs, rest)
    | .error e => .error e
  | .raw, .bytes [] => .error .truncated
  | .raw, .bytes (b :: bs) => if b = startMarker then .ok (.rawSysex, bs) else .error .noStartMarker
  | .dt1, .bytes bs =>
    if bs.length < 4 then .error .truncated
    else match decodeDataSet bs with
      | some i => .ok (i, bs.drop 4)
      | none => .error .notDataSet
  | .dt1Emit, .bytes bs =>
    match decodeEmitted bs with
    | some i => .ok (i, [])
    | none => .error .notAFrame
  | .cmdw, .bytes _ => .error .wrongKind
  | _, .word _ => .error .wrongKind

/-! ## Encoding -/

/-- The table an instruction stands in. -/
def Instr.format : Instr → Format
  | .nop | .imgInit | .streamLoad | .demuxNext | .ingest | .readRegion | .emit | .outClear | .crc32 | .inflate
  | .warnClear | .reserved _ => .cmdw
  | .smfRunningData _ | .smfCh8 _ | .smfCh9 _ | .smfChA _ | .smfChB _ | .smfProgramChange _
  | .smfChannelPressure _ | .smfChE _ | .smfSysexStart | .smfMtcQuarterFrame | .smfSongPosition | .smfSongSelect
  | .smfUndefinedCommon _ | .smfTuneRequest | .smfSysexEscape | .smfRealtime _ | .smfMeta => .smfEvent
  | .chunkMthd | .chunkMtrk => .chunk
  | .vlq _ => .vlq
  | .rawSysex => .raw
  | .dt1At3D _ | .dt1At57 _ => .dt1
  | .dt1Emit _ _ _ _ => .dt1Emit

/-- The code of an instruction: the command word (R81), the status byte (R91), the chunk tag (R86), the bytes of the
VLQ (R89), the start marker (R85), the first four body bytes of a frame (R93), or the whole emitted frame (R202). -/
def encode : Instr → Code
  | .nop => .word 0x00
  | .imgInit => .word 0x01
  | .streamLoad => .word 0x02
  | .demuxNext => .word 0x03
  | .ingest => .word 0x04
  | .readRegion => .word 0x05
  | .emit => .word 0x06
  | .outClear => .word 0x07
  | .crc32 => .word 0x08
  | .inflate => .word 0x09
  | .warnClear => .word 0x0A
  | .reserved w => .word w
  | .smfRunningData data => .bytes [(0#1 ++ data : BitVec 8)]
  | .smfCh8 ch => .bytes [(0x8#4 ++ ch : BitVec 8)]
  | .smfCh9 ch => .bytes [(0x9#4 ++ ch : BitVec 8)]
  | .smfChA ch => .bytes [(0xA#4 ++ ch : BitVec 8)]
  | .smfChB ch => .bytes [(0xB#4 ++ ch : BitVec 8)]
  | .smfProgramChange ch => .bytes [(0xC#4 ++ ch : BitVec 8)]
  | .smfChannelPressure ch => .bytes [(0xD#4 ++ ch : BitVec 8)]
  | .smfChE ch => .bytes [(0xE#4 ++ ch : BitVec 8)]
  | .smfSysexStart => .bytes [0xF0]
  | .smfMtcQuarterFrame => .bytes [0xF1]
  | .smfSongPosition => .bytes [0xF2]
  | .smfSongSelect => .bytes [0xF3]
  | .smfUndefinedCommon low => .bytes [(0x7A#7 ++ low : BitVec 8)]
  | .smfTuneRequest => .bytes [0xF6]
  | .smfSysexEscape => .bytes [0xF7]
  | .smfRealtime low => .bytes [(0x1F#5 ++ low : BitVec 8)]
  | .smfMeta => .bytes [0xFF]
  | .chunkMthd => .bytes tagMthd
  | .chunkMtrk => .bytes tagMtrk
  | .vlq groups => .bytes (vlqBytes groups)
  | .rawSysex => .bytes [startMarker]
  | .dt1At3D dev => .bytes (dataSetHeader .d3D dev)
  | .dt1At57 dev => .bytes (dataSetHeader .d57 dev)
  | .dt1Emit d dev addr payload => .bytes (frameBytes d dev addr payload)

/-! ## The opcode table's words -/

/-- The bytes of a 32-bit table word, first stream byte first. The reader made the table's words from the source's
match, which spells the first stream byte leftmost (R11). -/
def tableBytes (w : Nat) : List Byte := [byteOf (w >>> 24), byteOf (w >>> 16), byteOf (w >>> 8), byteOf w]

/-- The instruction of a table word. A 32-bit word is a chunk tag or a Data Set header where it is one, else a command
word; an 8-bit word is the byte after a delta time. DESIGN CHOICE: the table's formats overlap, and the word alone does
not say which is meant (assumption 12). -/
def decodeTableWord (nbits w : Nat) : Option Instr :=
  if nbits = 32 then
    match decodeChunkTag (tableBytes w), decodeDataSet (tableBytes w) with
    | some i, _ => some i
    | none, some i => some i
    | none, none => some (decodeCommand (wordOf w))
  else if nbits = 8 then some (decodeStatus (byteOf w))
  else none

end Sys2Proof
end

