-- ==== Sys2Proof/Machine/State.lean ====
section
/-! DEFINITION. The state of the block and of the HOST agent that drives it, as plain data (10_state.md), and the state
after reset (R280). -/

namespace Sys2Proof.Machine

/-! ## Small types -/

/-- STATUS.LAST, the outcome of the last executed command (R23). The value 3 is never written. -/
inductive Last
  | completed
  | fatal
  | refused
  deriving DecidableEq, Repr

/-- ERR, the code of the first fatal error since reset (R250). Codes 6 to 255 are never written. -/
inductive ErrCode
  | none
  | format
  | checksum
  | containerCrc
  | capacity
  | command
  deriving DecidableEq, Repr

/-- The WARN bits a command may set (R256). -/
inductive Warning
  | trkHdr
  | unterm
  | trunc
  | malformed
  | foreign
  | dialect
  | bounds
  | integrity
  deriving DecidableEq, Repr

/-- DMODE, the operating mode chosen for the current input (R27). -/
inductive DMode
  | unset
  | raw
  | smf
  | ended
  deriving DecidableEq, Repr

/-- The host-visible registers (R22). -/
inductive Reg
  | cmd | status | err | errInfo | warn | wcnt
  | arg0 | arg1 | arg2 | arg3 | arg4 | arg5
  | res0 | res1 | inLen | iptr | dstate | trkRem | msgLen | msgPos | dialect | snapCount | outLen | xlen
  deriving DecidableEq, Repr

/-- The numbers of the operand registers and of their latches (R21, R22). -/
inductive Slot
  | s0 | s1 | s2 | s3 | s4 | s5
  deriving DecidableEq, Repr

/-- The six operand registers ARG0 to ARG5, or the six latches A0 to A5 (R21). -/
structure Operands where
  a0 : Word
  a1 : Word
  a2 : Word
  a3 : Word
  a4 : Word
  a5 : Word
  deriving DecidableEq, Repr

/-- One memory space: the cells that hold something other than what an unlisted cell reads as, by rising offset. -/
abbrev Memory := List Host.Cell

/-! ## The HOST agent (R20, R42, R96; assumption 5) -/

/-- One access of the host to the block, or a reset. Registers are named by offset and access width in bytes, since
R66 says which of those exist. -/
inductive HostAct
  | regWrite (offset width : Nat) (value : Word)
  | regRead (offset width : Nat)
  | memWrite (sp : Space) (offset : Nat) (value : Byte)
  | memRead (sp : Space) (offset : Nat)
  | reset
  deriving DecidableEq, Repr

/-- Who moves next: CORE, or HOST with an access. The time between Issue and Execute is unbounded (R21), so the agenda
may hold any number of host accesses before CORE's turn. -/
inductive Turn
  | core
  | host (act : HostAct)
  deriving DecidableEq, Repr

/-- The operand names of the script language (R96). -/
inductive OperandName
  | len | addr | dialect | src | off | dev | expect | mode | clen | ulen
  deriving DecidableEq, Repr

/-- The values of the script language: a number, or a word that stands for one under the names it belongs to (R96). -/
inductive OperandValue
  | number (v : Word)
  | input | xbuf | dmem
  | none | fatal | advisory
  deriving DecidableEq, Repr

/-- A statement of a host script (R96). `ifReg` jumps when the comparison holds: `equal` says `==` or `!=`. -/
inductive Stmt
  | command (i : Instr) (operands : List (OperandName × OperandValue))
  | write (sp : Space) (off : Nat) (bytes : List Byte)
  | copy (src : Space) (lo hi : Nat) (dst : Space) (off : Nat)
  | ifReg (r : Reg) (equal : Bool) (value : Word) (label : Nat)
  | goto (label : Nat)
  | reset
  deriving DecidableEq, Repr

/-- A line of a host script: an optional label and an optional statement (R96). Labels are numbers here. -/
structure Line where
  label : Option Nat
  stmt : Option Stmt
  deriving DecidableEq, Repr

/-- A statement of a script as written: one of R96, or a pseudo-command that stands for some (R98). -/
inductive SourceStmt
  | plain (st : Stmt)
  | load (bytes : List Byte)
  | drain
  | crcCheck (src off len expect : OperandValue)
  | crcAdvise (src off len expect : OperandValue)
  deriving DecidableEq, Repr

/-- A line of a script as written (R96, R98). -/
structure SourceLine where
  label : Option Nat
  stmt : Option SourceStmt
  deriving DecidableEq, Repr

/-! ## State -/

/-- The state: first what 10_state.md and 20_memory.md give the block, then the model's own fields. -/
structure State where
  /-- CW, the last word accepted by Issue; read as CMD (R21, R22). -/
  cw : Word
  busy : Bool
  halt : Bool
  ovr : Bool
  last : Last
  err : ErrCode
  errInfo : Word
  warn : Word
  wcnt : Word
  /-- ARG0 to ARG5 (R25). -/
  arg : Operands
  /-- The latches A0 to A5 (R21). -/
  lat : Operands
  res0 : Word
  res1 : Word
  inLen : Word
  iptr : Word
  dmode : DMode
  trkOpen : Bool
  /-- RS, the running-status register (R28). -/
  rs : Byte
  trkRem : Word
  msgLen : Word
  msgPos : Word
  /-- DIALECT, the latched dialect of the run, if any (R35). -/
  dialect : Option Dialect
  snapCount : Word
  outLen : Word
  xlen : Word
  inMem : Memory
  msgMem : Memory
  dmem : Memory
  snapMem : Memory
  outMem : Memory
  xbufMem : Memory
  /-- The implementation parameters: fixed, never written by a step (R41; assumption 3). -/
  cfg : Config
  /-- The counter that keys the free values (assumption 1). -/
  draws : Nat
  /-- The HOST's pending accesses and CORE's turns among them, in order (assumption 5). -/
  agenda : List Turn
  /-- The HOST's script (R96) and its place in it. -/
  script : List Line
  hostPc : Nat
  /-- For each command statement to come, how many of the host's reads of STATUS still find BUSY = 1 before CORE's
  Execute; none listed means 0. R21 leaves that time open, so it is data (assumption 5). -/
  polls : List Nat
  /-- What the last host read returned (R42). -/
  busData : Word
  deriving DecidableEq, Repr

/-! ## Ways a step can stop -/

/-- A fault stops the machine. A fatal error of the block is no fault here: R253 gives it a next state. -/
inductive Fault
  /-- Raised by DEMUX_NEXT if its loop ran out of the iterations R156 bounds it by. Safe, and never raised: the bound
  suffices in every state (`smfLoop_terminates` in Laws/Demux.lean; assumption 14). -/
  | demuxBound
  deriving DecidableEq, Repr

/-- A refusal: the model has no step. -/
inductive Refusal
  /-- Raised by an arm of `exec` that has no meaning yet. Safe. -/
  | notModelled (mnemonic : String)
  /-- Raised by a host register access that is narrow or misaligned (R66, I12). Safe: the spec gives it no step. -/
  | registerAccess
  /-- Raised by a host access outside a memory window (R70, I12). Safe: the spec gives it no step. -/
  | outsideWindow
  /-- Raised by a host write to a memory space while BUSY = 1: the spec gives the host no such move. Unsafe, as R43 says
  itself: a claim about every run does not cover a real host that does it (assumption 7). -/
  | writeWhileBusy
  /-- Raised by a host write to a space R60 lets the host only read. Safe: the spec gives it no step. -/
  | readOnlySpace
  /-- Raised by a script statement with an operand name its mnemonic does not take, a word under a name it has no value
  for, a stream row as a command, or a `copy` whose range ends before it starts (R96). Safe: such a script has no meaning. -/
  | badStatement
  /-- Raised by a script jump to a label no line carries (R96). Safe: such a script has no meaning. -/
  | noSuchLabel
  deriving DecidableEq, Repr

/-! ## Results of the parts of an Execute -/

/-- A fatal error: its code and the information recorded with it (R250, R251). -/
structure Fatal where
  code : ErrCode
  info : Word
  deriving DecidableEq, Repr

/-- How a command's rule ends: `return` in a state, or `raise` (R13). -/
inductive Verdict
  | done (s : State)
  | raise (e : Fatal)
  deriving DecidableEq, Repr

/-- How one element of a stream leaves the command that met it: going on at the next boundary, ended by Deliver() or
None(), or ended by `raise`. -/
inductive Flow
  | go (s : State)
  | done (s : State)
  | raise (e : Fatal)
  deriving DecidableEq, Repr

/-- The result of a read from the stream: a value, or one of the signals TRUNC and MALFORMED (R14). -/
inductive Sig (α : Type)
  | ok (value : α) (s : State)
  | trunc (s : State)
  | malformed (s : State)
  deriving DecidableEq, Repr

/-! ## Reset -/

/-- Six zero operands (R280). -/
def Operands.zero : Operands := ⟨0, 0, 0, 0, 0, 0⟩

/-- The state after reset of a block with given parameters (R280): every register 0, every cell of DMEM SENTINEL (an
unlisted cell), every other cell unwritten. The model's own fields are DESIGN CHOICES (assumptions 2, 5, 9). -/
def State.resetOf (c : Config) : State where
  cw := 0
  busy := false
  halt := false
  ovr := false
  last := .completed
  err := .none
  errInfo := 0
  warn := 0
  wcnt := 0
  arg := Operands.zero
  lat := Operands.zero
  res0 := 0
  res1 := 0
  inLen := 0
  iptr := 0
  dmode := .unset
  trkOpen := false
  rs := 0
  trkRem := 0
  msgLen := 0
  msgPos := 0
  dialect := none
  snapCount := 0
  outLen := 0
  xlen := 0
  inMem := []
  msgMem := []
  dmem := []
  snapMem := []
  outMem := []
  xbufMem := []
  cfg := c
  draws := 0
  agenda := []
  script := []
  hostPc := 0
  polls := []
  busData := 0

/-- The machine right after reset. Its parameters are the spec's test configuration (DESIGN CHOICE, assumption 3). -/
def State.reset : State := State.resetOf Config.tc

end Sys2Proof.Machine
end

