-- ==== Sys2Proof/Machine/Flags.lean ====
section
/-! DEFINITION. The status, error and warning registers: their codes and words (R22, R23, R250, R256) and the effect of
a warning (R258). -/

namespace Sys2Proof.Machine

/-- A flag as a register value. -/
def flagWord (b : Bool) : Word := if b then 1 else 0

/-- The code in STATUS.LAST (R23). -/
def Last.code : Last → Word
  | .completed => 0
  | .fatal => 1
  | .refused => 2

/-- The code in ERR (R250). -/
def ErrCode.code : ErrCode → Word
  | .none => 0
  | .format => 1
  | .checksum => 2
  | .containerCrc => 3
  | .capacity => 4
  | .command => 5

/-- The value in DSTATE.DMODE (R27). -/
def DMode.code : DMode → Word
  | .unset => 0
  | .raw => 1
  | .smf => 2
  | .ended => 3

/-- The value in DIALECT: the dialect byte, 0x00 while none is latched (R35). -/
def dialectCode : Option Dialect → Word
  | none => 0
  | some d => d.byte.setWidth 32

/-- The bit of a warning in WARN (R256). -/
def Warning.bit : Warning → Nat
  | .trkHdr => 0
  | .unterm => 1
  | .trunc => 2
  | .malformed => 3
  | .foreign => 4
  | .dialect => 5
  | .bounds => 6
  | .integrity => 7

/-- The word of a warning: its bit alone. -/
def Warning.mask (w : Warning) : Word := 1#32 <<< w.bit

/-- One more, but never past 0xFFFFFFFF (R258). -/
def saturatingSucc (v : Word) : Word := if v = 0xFFFFFFFF then v else v + 1

/-- `warn W`: the bit is set and WCNT counts, saturating; the command goes on (R258). -/
def State.warnOn (s : State) (w : Warning) : State :=
  { s with warn := s.warn ||| w.mask, wcnt := saturatingSucc s.wcnt }

/-- STATUS: bit 0 BUSY, bit 1 HALT, bit 2 OVR, bits 9:8 LAST, all other bits 0 (R22). -/
def State.statusWord (s : State) : Word :=
  flagWord s.busy ||| (flagWord s.halt <<< 1) ||| (flagWord s.ovr <<< 2) ||| (s.last.code <<< 8)

/-- DSTATE: bits 1:0 DMODE, bit 2 TRK_OPEN, bits 15:8 RS, all other bits 0 (R22). -/
def State.dstateWord (s : State) : Word :=
  s.dmode.code ||| (flagWord s.trkOpen <<< 2) ||| ((s.rs.setWidth 32 : Word) <<< 8)

end Sys2Proof.Machine
end

