-- ==== Sys2Proof/Machine/Ops.lean ====
section
/-! DEFINITION. The operations every command shares: memory (R12, R60 to R63), the results (R26), reading the stream
(R126 to R129), the end of an Execute, taking a fatal error (R253), the refusal while halted (R254), and reset, the one
return from a fatal error (R255, R281). -/

namespace Sys2Proof.Machine

/-! ## Memory -/

/-- The listed cell at an offset, if any. -/
def Memory.get (a : Nat) : Memory → Option Byte
  | [] => none
  | (k, v) :: m => if k = a then some v else if a < k then none else Memory.get a m

/-- The memory with one cell written, in canonical form: a cell equal to what an unlisted one reads as is not listed. -/
def Memory.set (unlisted : Option Byte) (a : Nat) (b : Byte) : Memory → Memory
  | [] => if unlisted = some b then [] else [(a, b)]
  | (k, v) :: m =>
    if a < k then (if unlisted = some b then (k, v) :: m else (a, b) :: (k, v) :: m)
    else if k = a then (if unlisted = some b then m else (a, b) :: m)
    else (k, v) :: Memory.set unlisted a b m

/-- The memory with consecutive cells written, lowest first. -/
def Memory.setMany (unlisted : Option Byte) (a : Nat) : List Byte → Memory → Memory
  | [], m => m
  | b :: bs, m => Memory.setMany unlisted (a + 1) bs (Memory.set unlisted a b m)

/-- The value a cell holds, where `unlisted` is what an unlisted cell reads as (R63). -/
def Memory.cell (unlisted : Option Byte) (a : Nat) (m : Memory) : Option Byte :=
  match Memory.get a m with
  | some b => some b
  | none => unlisted

/-- Whether every offset of a memory is at least `lo`, rising strictly, and no cell equals an unlisted one. -/
def Memory.rising (unlisted : Option Byte) (lo : Nat) : Memory → Bool
  | [] => true
  | (k, v) :: m => decide (lo ≤ k) && decide (unlisted ≠ some v) && Memory.rising unlisted (k + 1) m

/-- The canonical form: offsets strictly rising, no entry equal to what an unlisted offset reads as. -/
def Memory.wf (unlisted : Option Byte) (m : Memory) : Bool := Memory.rising unlisted 0 m

/-- Whether every listed offset lies below a size. -/
def Memory.below (size : Nat) : Memory → Bool
  | [] => true
  | (k, _) :: m => decide (k < size) && Memory.below size m

/-- The memory of a space. -/
def State.mem (s : State) : Space → Memory
  | .input => s.inMem
  | .msg => s.msgMem
  | .dmem => s.dmem
  | .snap => s.snapMem
  | .out => s.outMem
  | .xbuf => s.xbufMem

/-- The state with the memory of one space replaced. -/
def State.setMem (s : State) (sp : Space) (m : Memory) : State :=
  match sp with
  | .input => { s with inMem := m }
  | .msg => { s with msgMem := m }
  | .dmem => { s with dmem := m }
  | .snap => { s with snapMem := m }
  | .out => { s with outMem := m }
  | .xbuf => { s with xbufMem := m }

/-- What an unlisted cell of a space reads as: SENTINEL in DMEM, no value elsewhere (R63). -/
def unlisted (c : Config) : Space → Option Byte
  | .dmem => some c.sentinel
  | .input | .msg | .snap | .out | .xbuf => none

/-- The size of a space (R60). -/
def Config.size (c : Config) : Space → Nat
  | .input => c.inBytes
  | .msg => c.msgBytes
  | .dmem => c.memBytes
  | .snap => c.snapMax * c.snapEntry
  | .out => c.outBytes
  | .xbuf => c.xbufBytes

/-- The value a cell holds: none while nothing has written it (R63). -/
def State.cell (s : State) (sp : Space) (a : Nat) : Option Byte :=
  Memory.cell (unlisted s.cfg sp) a (s.mem sp)

/-- A read of one byte: the cell's value, or a draw while nothing has written it (R63, I9). -/
def State.readByte (s : State) (site : ReadSite) (sp : Space) (a : Nat) : Byte :=
  match s.cell sp a with
  | some b => b
  | none => Config.freeByte s.draws site sp a

/-- MemRead(S, a, n): the n bytes at offsets a to a+n-1 (R12). -/
def State.readBytes (s : State) (site : ReadSite) (sp : Space) (a : Nat) : Nat → List Byte
  | 0 => []
  | n + 1 => s.readByte site sp a :: s.readBytes site sp (a + 1) n

/-- MemWrite(S, a, n, v): the bytes of v at offsets a to a+n-1 (R12). -/
def State.writeBytes (s : State) (sp : Space) (a : Nat) (bs : List Byte) : State :=
  s.setMem sp (Memory.setMany (unlisted s.cfg sp) a bs (s.mem sp))

/-- The first offset in [a, a+n) of IN at which a read gives a byte (R123). -/
def State.findByte (s : State) (site : ReadSite) (b : Byte) (a : Nat) : Nat → Option Nat
  | 0 => none
  | n + 1 => if s.readByte site .input a = b then some a else s.findByte site b (a + 1) n

/-! ## Results -/

/-- RES0 and RES1 written (R26). -/
def State.results (s : State) (r0 r1 : Word) : State := { s with res0 := r0, res1 := r1 }

/-! ## The end of an Execute, the refusal, taking a fatal error, and reset -/

/-- A command that ended by `return`: BUSY <- 0, LAST <- 0 (R21, R23). The draw counter moves on (assumption 1). -/
def State.complete (s : State) : State :=
  { s with busy := false, last := .completed, draws := s.draws + 1 }

/-- The Execute of any command while halted: LAST <- 2, BUSY <- 0, nothing else (R254). -/
def State.refuse (s : State) : State :=
  { s with busy := false, last := .refused, draws := s.draws + 1 }

/-- TAKING A FATAL ERROR, from the state before the command: every write of the command is rolled back; ERR, ERR_INFO,
HALT, LAST and BUSY are written (R253, R13). CW keeps the failing word (R265). -/
def State.takeFatal (s : State) (e : Fatal) : State :=
  { s with err := e.code, errInfo := e.info, halt := true, last := .fatal, busy := false, draws := s.draws + 1 }

/-- RESET, the only way out of the halted state (R255, R266, R281): every register and space at its reset value. The
parameters are not state (R41), and the HOST agent's own script, agenda, place and polls go on, as does the draw counter
(assumption 21). -/
def State.hostReset (s : State) : State :=
  { State.resetOf s.cfg with
    draws := s.draws + 1, agenda := s.agenda, script := s.script, hostPc := s.hostPc, polls := s.polls,
    busData := s.busData }

/-- How a command's verdict, reached from `s`, leaves the block (R21, R253). -/
def State.settle (s : State) : Verdict → State
  | .done t => t.complete
  | .raise e => s.takeFatal e

/-- One Execute step of a command: refused while halted (R254), else its rule run atomically on the latches (R21). -/
def runCommand (body : State → Verdict) (s : State) : Host.Outcome State Fault Refusal :=
  .next (if s.halt then s.refuse else s.settle (body s))

/-- How a stream element's flow, reached from `s`, leaves the block: still inside the command at the next boundary, or
with the command ended (assumption 11). -/
def State.settleFlow (s : State) : Flow → State
  | .go t => t
  | .done t => t.complete
  | .raise e => s.takeFatal e

/-- A stream element executed alone, inside the command that is in progress (assumption 11). -/
def runElement (body : State → Flow) (s : State) : Host.Outcome State Fault Refusal :=
  .next (if s.halt then s.refuse else s.settleFlow (body s))

/-- CommandError: ERR = 5, ERR_INFO = the command word (R250, R251). -/
def State.commandError (s : State) : Fatal := ⟨.command, s.cw⟩

/-- CapacityError: ERR = 4, ERR_INFO = the buffer, 1 = MSG, 2 = SNAP, 3 = OUT, 4 = XBUF (R250). -/
def capacityError (buffer : Word) : Fatal := ⟨.capacity, buffer⟩

/-! ## Reading the stream -/

/-- n bytes of the stream consumed: the cursor moves on, and the bytes left in an open track fall, saturating at 0
(R33, R127, R128). -/
def State.consume (s : State) (n : Nat) : State :=
  { s with
    iptr := wordOf (s.iptr.toNat + n)
    trkRem := if s.trkOpen then wordOf (s.trkRem.toNat - n) else s.trkRem }

/-- The bytes of IN not yet consumed (R33). -/
def State.left (s : State) : Nat := s.inLen.toNat - s.iptr.toNat

/-- Next(): the byte at the cursor, consumed; TRUNC at the end of IN (R127). -/
def State.next1 (s : State) : Sig Byte :=
  if s.iptr.toNat < s.inLen.toNat then .ok (s.readByte .next .input s.iptr.toNat) (s.consume 1) else .trunc s

/-- The byte at the cursor, looked at and not yet consumed; TRUNC at the end of IN. An element consumes its own first
byte, so the cursor stands at an element as a program counter stands at an instruction (R33). -/
def State.peek (s : State) : Sig Byte :=
  if s.iptr.toNat < s.inLen.toNat then .ok (s.readByte .next .input s.iptr.toNat) s else .trunc s

/-- Skip(n): n bytes consumed and discarded; TRUNC where IN ends first, with the bytes before it consumed (R129). The
discarded bytes are not looked at, so n repetitions of Next() come to this (assumption 17). -/
def State.skip (s : State) (n : Nat) : Sig Unit :=
  if n ≤ s.left then .ok () (s.consume n) else .trunc (s.consume s.left)

/-- ReadVLQ with `k` bytes still allowed and the value `v` so far; MALFORMED when none is allowed any more (R126). -/
def State.readVlqFrom : Nat → Nat → State → Sig Nat
  | 0, _, s => .malformed s
  | k + 1, v, s =>
    match s.next1 with
    | .ok b t =>
      if b.toNat < 0x80 then .ok (v * 128 + b.toNat % 128) t
      else State.readVlqFrom k (v * 128 + b.toNat % 128) t
    | .trunc t => .trunc t
    | .malformed t => .malformed t

/-- ReadVLQ() (R126). -/
def State.readVlq (s : State) : Sig Nat := State.readVlqFrom vlqMaxBytes 0 s

/-- None(): no message, both results 0 (R121). -/
def State.noMessage (s : State) : State :=
  { s with msgLen := 0, msgPos := 0, res0 := 0, res1 := 0 }

/-- Deliver(): RES0 = 1, RES1 = MSG_LEN (R121). -/
def State.deliver (s : State) : State := { s with res0 := 1, res1 := s.msgLen }

/-- DMODE <- ENDED. -/
def State.ended (s : State) : State := { s with dmode := .ended }

/-- The handler of the two signals outside a payload copy: a warning, the end of this input, and None() (R125). -/
def Sig.orEnd {α : Type} (r : Sig α) (f : α → State → Flow) : Flow :=
  match r with
  | .ok v t => f v t
  | .trunc t => .done (t.warnOn .trunc).ended.noMessage
  | .malformed t => .done (t.warnOn .malformed).ended.noMessage

end Sys2Proof.Machine
end

