-- ==== Sys2Proof/Machine/Operands.lean ====
section
/-! DEFINITION. The operand forms of the commands (R62, R82) and the parameters by dialect (R9), with the constraints R9
puts on them. -/

namespace Sys2Proof.Machine

/-! ## Parameters by dialect -/

/-- CAP[d] (R9). -/
def Config.cap (c : Config) : Dialect → Nat
  | .d3D => c.cap3D
  | .d57 => c.cap57

/-- TRIG[d] (R9). -/
def Config.trig (c : Config) : Dialect → Nat
  | .d3D => c.trig3D
  | .d57 => c.trig57

/-- TMP_BASE[d] (R9). -/
def Config.tmpBase (c : Config) : Dialect → Nat
  | .d3D => c.tmpBase3D
  | .d57 => c.tmpBase57

/-- TMP_LEN[d] (R9). -/
def Config.tmpLen (c : Config) : Dialect → Nat
  | .d3D => c.tmpLen3D
  | .d57 => c.tmpLen57

/-- What R9 asks of the parameters one dialect has: CAP[d] fits DMEM and the digits, TRIG[d] and the temporary-patch
region lie inside CAP[d], and a snapshot of at least one byte fits an entry. -/
def Config.dialectOk (c : Config) (d : Dialect) : Bool :=
  decide (Config.cap c d ≤ c.memBytes ∧ Config.cap c d ≤ 128 ^ d.digits ∧ Config.trig c d < Config.cap c d
    ∧ Config.tmpBase c d + Config.tmpLen c d ≤ Config.cap c d ∧ 1 ≤ Config.tmpLen c d
    ∧ Config.tmpLen c d ≤ c.snapEntry)

/-- What R9 asks of the parameters, and IN_BYTES < 2^32 (R33). OUT_BYTES < 2^32 and SNAP_MAX < 2^32 are DEDUCED: OUT_LEN
and SNAP_COUNT grow up to them and keep to their 32 bits (R11, R177, R205; assumption 4). MSG_BYTES and XBUF_BYTES have
no upper bound: MSG_LEN is at most IN_LEN, and XLEN is an operand. -/
def Config.valid (c : Config) : Bool :=
  Config.dialectOk c .d3D && Config.dialectOk c .d57 && decide (c.cap3D ≠ c.cap57)
    && decide (1 ≤ c.snapMax ∧ c.snapMax < 2 ^ 32)
    && decide (0x80 ≤ c.sentinel.toNat)
    && decide (1 ≤ c.inBytes ∧ c.inBytes < 2 ^ 32)
    && decide (266 ≤ c.msgBytes)
    && decide (267 ≤ c.outBytes ∧ c.outBytes < 2 ^ 32)
    && decide (1 ≤ c.xbufBytes)

/-- The base of a space's window on the host's bus (R61). -/
def Config.windowBase (c : Config) : Space → Nat
  | .input => c.inBase
  | .msg => c.msgBase
  | .dmem => c.dmemBase
  | .snap => c.snapBase
  | .out => c.outBase
  | .xbuf => c.xbufBase

/-! ## Operand forms -/

/-- The latch of a number (R21). -/
def Operands.get (o : Operands) : Slot → Word
  | .s0 => o.a0
  | .s1 => o.a1
  | .s2 => o.a2
  | .s3 => o.a3
  | .s4 => o.a4
  | .s5 => o.a5

/-- The operands with one of them written (R25). -/
def Operands.put (o : Operands) (k : Slot) (v : Word) : Operands :=
  match k with
  | .s0 => { o with a0 := v }
  | .s1 => { o with a1 := v }
  | .s2 => { o with a2 := v }
  | .s3 => { o with a3 := v }
  | .s4 => { o with a4 := v }
  | .s5 => { o with a5 := v }

/-- A latch as the unsigned number it is, with no scaling (R82). -/
def State.opnd (s : State) (k : Slot) : Nat := (s.lat.get k).toNat

/-- A source-space selector: 0 = IN, 1 = XBUF, 2 = DMEM, any other value none (R62). -/
def selectSpace (v : Word) : Option Space :=
  if v = 0 then some .input else if v = 1 then some .xbuf else if v = 2 then some .dmem else none

/-- EMIT's dialect operand: A0[31:8] = 0 and A0[7:0] a dialect byte (R82). -/
def selectDialect (v : Word) : Option Dialect :=
  if v = dialectCode (some .d3D) then some .d3D else if v = dialectCode (some .d57) then some .d57 else none

/-- What CRC32 does with a mismatch (R82, R220). -/
inductive CrcMode
  | compute
  | fatal
  | advisory
  deriving DecidableEq, Repr

/-- CRC32's mode operand: 0, 1 or 2 (R82). -/
def selectCrcMode (v : Word) : Option CrcMode :=
  if v = 0 then some .compute else if v = 1 then some .fatal else if v = 2 then some .advisory else none

/-- Whether [off, off+len) is a legal range of a space, by its physical size, on natural numbers (R62, R262). -/
def State.rangeOk (s : State) (sp : Space) (off len : Nat) : Bool := decide (off + len ≤ Config.size s.cfg sp)

/-- How many bytes an event under running status still reads after its first data byte, by the class of RS; none where
RS gives no class: RS < 0x80 or RS ≥ 0xF0 (R91, R134, R135). -/
def runningFurther (rs : Byte) : Option Nat :=
  match rs.toNat / 16 with
  | 0x8 => some 1
  | 0x9 => some 1
  | 0xA => some 1
  | 0xB => some 1
  | 0xC => some 0
  | 0xD => some 0
  | 0xE => some 1
  | _ => none

end Sys2Proof.Machine
end

