-- ==== Sys2Proof/Machine/Codec.lean ====
section
/-! DEFINITION. The CRC32 validator and the DEFLATE decompressor (43_crc_inflate.md). -/

namespace Sys2Proof.Machine

/-! ## CRC32 -/

/-- One of the eight shifts for a byte: logical, with the reflected polynomial 0xEDB88320 (R221). -/
def crcShift (crc : Word) : Word :=
  if crc.getLsbD 0 then (crc >>> 1) ^^^ 0xEDB88320 else crc >>> 1

/-- `n` shifts (R221). -/
def crcShifts : Nat → Word → Word
  | 0, crc => crc
  | n + 1, crc => crcShifts n (crcShift crc)

/-- The running value after the bytes of a sequence, in order (R221). -/
def crcBytes (crc : Word) : List Byte → Word
  | [] => crc
  | b :: bs => crcBytes (crcShifts 8 (crc ^^^ b.setWidth 32)) bs

/-- The CRC32 of a sequence: CRC-32/ISO-HDLC (R221, D27; assumption 15). -/
def crcOf (bytes : List Byte) : Word := crcBytes 0xFFFFFFFF bytes ^^^ 0xFFFFFFFF

/-- CRC32's verdict on a computed value (R220, R222, R223). -/
def crcVerdict (mode : CrcMode) (expected computed : Word) (s : State) : Verdict :=
  if computed = expected then .done (s.results computed 1)
  else match mode with
    | .compute => .done (s.results computed 0)
    | .fatal => .raise ⟨.containerCrc, computed⟩
    | .advisory => .done ((s.warnOn .integrity).results computed 0)

/-- CRC32's rule: the operand constraints, the range, then the value and its verdict (R220, R260). -/
def crc32Body (s : State) : Verdict :=
  match selectSpace (s.lat.get .s0), selectCrcMode (s.lat.get .s4) with
  | some sp, some mode =>
    if ¬ s.rangeOk sp (s.opnd .s1) (s.opnd .s2) then .raise s.commandError
    else crcVerdict mode (s.lat.get .s3) (crcOf (s.readBytes .source sp (s.opnd .s1) (s.opnd .s2))) s
  | _, _ => .raise s.commandError

/-- CRC32 (R220). -/
def execCrc32 (s : State) : Host.Outcome State Fault Refusal := runCommand crc32Body s

/-! ## INFLATE -/

/-- FormatError: 1 = the codec rejects the stream, 2 = size mismatch (R250). -/
def formatError (reason : Word) : Fatal := ⟨.format, reason⟩

/-- What INFLATE does with the codec's answer (R225, R227). -/
def inflateVerdict (ulen : Nat) (answer : Option (List Byte)) (s : State) : Verdict :=
  match answer with
  | none => .raise (formatError 1)
  | some r =>
    if r.length ≠ ulen then .raise (formatError 2)
    else .done ({ s.writeBytes .xbuf 0 r with xlen := wordOf ulen }.results (wordOf ulen) 0)

/-- INFLATE's rule: the range, the room in XBUF, then the codec (R225, R260). -/
def inflateBody (s : State) : Verdict :=
  if ¬ s.rangeOk .input (s.opnd .s0) (s.opnd .s1) then .raise s.commandError
  else if s.opnd .s2 > s.cfg.xbufBytes then .raise (capacityError 4)
  else
    inflateVerdict (s.opnd .s2)
      (Config.inflate s.cfg.inflateFormat (s.readBytes .source .input (s.opnd .s0) (s.opnd .s1))) s

/-- INFLATE (R225). -/
def execInflate (s : State) : Host.Outcome State Fault Refusal := runCommand inflateBody s

end Sys2Proof.Machine
end

