-- ==== Sys2Proof/Machine/Control.lean ====
section
/-! DEFINITION. The control commands and the reserved command words (44_control.md). -/

namespace Sys2Proof.Machine

/-- NOP's rule: nothing; RES0 and RES1 are unchanged (R240). -/
def nopBody (s : State) : Verdict := .done s

/-- NOP (R240). -/
def execNop (s : State) : Host.Outcome State Fault Refusal := runCommand nopBody s

/-- WARN_CLEAR's rule: WARN, WCNT and OVR cleared; ERR and HALT not (R241). -/
def warnClearBody (s : State) : Verdict :=
  .done ({ s with warn := 0, wcnt := 0, ovr := false }.results 0 0)

/-- WARN_CLEAR (R241). -/
def execWarnClear (s : State) : Host.Outcome State Fault Refusal := runCommand warnClearBody s

/-- A reserved word's rule: CommandError with ERR_INFO = the word (R83, R242). -/
def reservedBody (w : Word) (_ : State) : Verdict := .raise ⟨.command, w⟩

/-- A reserved command word (R242). -/
def execReserved (w : Word) (s : State) : Host.Outcome State Fault Refusal := runCommand (reservedBody w) s

end Sys2Proof.Machine
end

