-- ==== Sys2Proof/Machine/Demux.lean ====
section
/-! DEFINITION. The SysEx demultiplexer: STREAM_LOAD, DEMUX_NEXT, and the stream elements DEMUX_NEXT runs: VLQs, chunks,
SMF events and raw messages (40_demux.md). An element's rule starts with the cursor at the element's first byte. -/

namespace Sys2Proof.Machine

/-! ## STREAM_LOAD -/

/-- STREAM_LOAD's rule: bind IN[0..A0); SDX state cleared, the image and OUT untouched (R120). -/
def streamLoadBody (s : State) : Verdict :=
  if s.opnd .s0 > s.cfg.inBytes then .raise s.commandError
  else
    .done ({ s with
      inLen := s.lat.get .s0, iptr := 0, dmode := .unset, trkOpen := false, trkRem := 0, rs := 0,
      msgLen := 0, msgPos := 0 }.results (s.lat.get .s0) 0)

/-- STREAM_LOAD (R120). -/
def execStreamLoad (s : State) : Host.Outcome State Fault Refusal := runCommand streamLoadBody s

/-! ## Variable-length quantities -/

/-- A VLQ as a stream element, a delta time: its bytes are consumed and its value discarded; one of more than four
bytes is MALFORMED after the fourth (R126, R139). -/
def vlqBody (groups : List (BitVec 7)) (s : State) : Flow :=
  if groups.length ≤ vlqMaxBytes then (s.skip groups.length).orEnd fun _ t => .go t
  else (s.skip vlqMaxBytes).orEnd fun _ t => .done (t.warnOn .malformed).ended.noMessage

/-- A VLQ in delta position (R126). -/
def execVlq (groups : List (BitVec 7)) (s : State) : Host.Outcome State Fault Refusal := runElement (vlqBody groups) s

/-! ## Channel and system events -/

/-- A status byte consumed: it goes to RS (R133). -/
def State.status (s : State) (b : Byte) : State := { s.consume 1 with rs := b }

/-- An event with a fresh status byte and `n` data bytes, skipped (R91). -/
def skipEvent (b : Byte) (n : Nat) (s : State) : Flow := ((s.status b).skip n).orEnd fun _ t => .go t

/-- A data byte in status position: it is the first data byte of an event of RS's class; where RS gives no class,
MALFORMED (R134, R135). -/
def smfRunningDataBody (_data : BitVec 7) (s : State) : Flow :=
  match runningFurther s.rs with
  | some n => ((s.consume 1).skip n).orEnd fun _ t => .go t
  | none => .done ((s.consume 1).warnOn .malformed).ended.noMessage

/-- SMF_RUNNING_DATA (R134). -/
def execSmfRunningData (data : BitVec 7) (s : State) : Host.Outcome State Fault Refusal :=
  runElement (smfRunningDataBody data) s

/-- Channel class 8: two data bytes (R140). -/
def smfCh8Body (ch : BitVec 4) (s : State) : Flow := skipEvent (0x8#4 ++ ch : BitVec 8) 2 s

/-- SMF_CH8 (R140). -/
def execSmfCh8 (ch : BitVec 4) (s : State) : Host.Outcome State Fault Refusal := runElement (smfCh8Body ch) s

/-- Channel class 9: two data bytes (R141). -/
def smfCh9Body (ch : BitVec 4) (s : State) : Flow := skipEvent (0x9#4 ++ ch : BitVec 8) 2 s

/-- SMF_CH9 (R141). -/
def execSmfCh9 (ch : BitVec 4) (s : State) : Host.Outcome State Fault Refusal := runElement (smfCh9Body ch) s

/-- Channel class A: two data bytes (R142). -/
def smfChABody (ch : BitVec 4) (s : State) : Flow := skipEvent (0xA#4 ++ ch : BitVec 8) 2 s

/-- SMF_CHA (R142). -/
def execSmfChA (ch : BitVec 4) (s : State) : Host.Outcome State Fault Refusal := runElement (smfChABody ch) s

/-- Channel class B: two data bytes (R143). -/
def smfChBBody (ch : BitVec 4) (s : State) : Flow := skipEvent (0xB#4 ++ ch : BitVec 8) 2 s

/-- SMF_CHB (R143). -/
def execSmfChB (ch : BitVec 4) (s : State) : Host.Outcome State Fault Refusal := runElement (smfChBBody ch) s

/-- Program change: one data byte (R144). -/
def smfProgramChangeBody (ch : BitVec 4) (s : State) : Flow := skipEvent (0xC#4 ++ ch : BitVec 8) 1 s

/-- SMF_PROGRAM_CHANGE (R144). -/
def execSmfProgramChange (ch : BitVec 4) (s : State) : Host.Outcome State Fault Refusal := runElement (smfProgramChangeBody ch) s

/-- Channel pressure: one data byte (R145). -/
def smfChannelPressureBody (ch : BitVec 4) (s : State) : Flow := skipEvent (0xD#4 ++ ch : BitVec 8) 1 s

/-- SMF_CHANNEL_PRESSURE (R145). -/
def execSmfChannelPressure (ch : BitVec 4) (s : State) : Host.Outcome State Fault Refusal := runElement (smfChannelPressureBody ch) s

/-- Channel class E: two data bytes (R146). -/
def smfChEBody (ch : BitVec 4) (s : State) : Flow := skipEvent (0xE#4 ++ ch : BitVec 8) 2 s

/-- SMF_CHE (R146). -/
def execSmfChE (ch : BitVec 4) (s : State) : Host.Outcome State Fault Refusal := runElement (smfChEBody ch) s

/-- MIDI time-code quarter frame: one data byte (R149). -/
def smfMtcQuarterFrameBody (s : State) : Flow := skipEvent 0xF1 1 s

/-- SMF_MTC_QUARTER_FRAME (R149). -/
def execSmfMtcQuarterFrame (s : State) : Host.Outcome State Fault Refusal := runElement smfMtcQuarterFrameBody s

/-- Song Position Pointer: two data bytes (R150). -/
def smfSongPositionBody (s : State) : Flow := skipEvent 0xF2 2 s

/-- SMF_SONG_POSITION (R150). -/
def execSmfSongPosition (s : State) : Host.Outcome State Fault Refusal := runElement smfSongPositionBody s

/-- Song select: one data byte (R151). -/
def smfSongSelectBody (s : State) : Flow := skipEvent 0xF3 1 s

/-- SMF_SONG_SELECT (R151). -/
def execSmfSongSelect (s : State) : Host.Outcome State Fault Refusal := runElement smfSongSelectBody s

/-- 0xF4 or 0xF5: no data byte (R152). -/
def smfUndefinedCommonBody (low : BitVec 1) (s : State) : Flow := skipEvent (0x7A#7 ++ low : BitVec 8) 0 s

/-- SMF_UNDEFINED_COMMON (R152). -/
def execSmfUndefinedCommon (low : BitVec 1) (s : State) : Host.Outcome State Fault Refusal := runElement (smfUndefinedCommonBody low) s

/-- Tune request: no data byte (R153). -/
def smfTuneRequestBody (s : State) : Flow := skipEvent 0xF6 0 s

/-- SMF_TUNE_REQUEST (R153). -/
def execSmfTuneRequest (s : State) : Host.Outcome State Fault Refusal := runElement smfTuneRequestBody s

/-- System real-time: no data byte (R154). -/
def smfRealtimeBody (low : BitVec 3) (s : State) : Flow := skipEvent (0x1F#5 ++ low : BitVec 8) 0 s

/-- SMF_REALTIME (R154). -/
def execSmfRealtime (low : BitVec 3) (s : State) : Host.Outcome State Fault Refusal := runElement (smfRealtimeBody low) s

/-! ## Meta events -/

/-- A meta event: a type byte, a VLQ n and n bytes, skipped; RS is not written (R132). -/
def smfMetaBody (s : State) : Flow :=
  (s.consume 1).next1.orEnd fun _ t => t.readVlq.orEnd fun n u => (u.skip n).orEnd fun _ v => .go v

/-- SMF_META (R132). -/
def execSmfMeta (s : State) : Host.Outcome State Fault Refusal := runElement smfMetaBody s

/-! ## SysEx events -/

/-- The next k bytes of the stream copied to MSG: MSG_POS is where they begin, MSG_LEN their number (R147). -/
def State.copyPayload (s : State) (k : Nat) : State :=
  { (s.writeBytes .msg 0 (s.readBytes .next .input s.iptr.toNat k)).consume k with
    msgPos := s.iptr, msgLen := wordOf k }

/-- The payload of a SysEx event of declared length n: too long for MSG raises CapacityError(1) before any byte is
copied; cut off by the end of IN it is delivered with W_TRUNC and W_UNTERM and the input ends; ending in a byte other
than F7 it is delivered with W_UNTERM (R125, R138, R147). -/
def sysexPayload (n : Nat) (s : State) : Flow :=
  if n > s.cfg.msgBytes then .raise (capacityError 1)
  else if s.left < n then .done ((((s.copyPayload s.left).warnOn .trunc).ended.warnOn .unterm).deliver)
  else if (s.readBytes .next .input s.iptr.toNat n).getLast? = some endMarker then .done (s.copyPayload n).deliver
  else .done (((s.copyPayload n).warnOn .unterm).deliver)

/-- A SysEx event with a status byte: RS, the VLQ length, the payload, delivered (R147). -/
def sysexEvent (b : Byte) (s : State) : Flow := (s.status b).readVlq.orEnd sysexPayload

/-- SysEx start (R147). -/
def smfSysexStartBody (s : State) : Flow := sysexEvent 0xF0 s

/-- SMF_SYSEX_START (R147). -/
def execSmfSysexStart (s : State) : Host.Outcome State Fault Refusal := runElement smfSysexStartBody s

/-- SysEx continuation or escape: the same, with RS = 0xF7 (R148). -/
def smfSysexEscapeBody (s : State) : Flow := sysexEvent 0xF7 s

/-- SMF_SYSEX_ESCAPE (R148). -/
def execSmfSysexEscape (s : State) : Host.Outcome State Fault Refusal := runElement smfSysexEscapeBody s

/-! ## Chunks -/

/-- A bad SMF or track header: W_TRKHDR, the input ends, None() (R124, R131). -/
def badHeader (s : State) : Flow := .done (s.warnOn .trkHdr).ended.noMessage

/-- SmfHeader: the MThd chunk at the start of IN skipped whole (R124). -/
def chunkMthdBody (s : State) : Flow :=
  if s.inLen.toNat < 8 then badHeader s
  else
    let len := be32 (s.readBytes .header .input 4 4)
    if len > s.inLen.toNat - 8 then badHeader s else .go { s with iptr := wordOf (8 + len) }

/-- CHUNK_MTHD (R124). -/
def execChunkMthd (s : State) : Host.Outcome State Fault Refusal := runElement chunkMthdBody s

/-- An MTrk header at the cursor: TRK_REM loaded, the track open, RS cleared; the declared length is not checked
(R131). -/
def chunkMtrkBody (s : State) : Flow :=
  if s.left < 8 then badHeader s
  else
    .go { s with
      trkRem := wordOf (be32 (s.readBytes .trackLen .input (s.iptr.toNat + 4) 4))
      iptr := wordOf (s.iptr.toNat + 8), trkOpen := true, rs := 0 }

/-- CHUNK_MTRK (R131). -/
def execChunkMtrk (s : State) : Host.Outcome State Fault Refusal := runElement chunkMtrkBody s

/-- OpenTrack: the end of IN ends the input with no warning; a short header or another tag is a bad header; an MTrk
opens a track (R131, R137). -/
def openTrack (s : State) : Flow :=
  if s.iptr = s.inLen then .done s.ended.noMessage
  else if s.left < 8 then badHeader s
  else
    match decodeChunkTag (s.readBytes .trackTag .input s.iptr.toNat 4) with
    | some .chunkMtrk => chunkMtrkBody s
    | _ => badHeader s

/-! ## The track loop -/

/-- The rule of the event whose first byte decodes to an instruction (R130, R132 to R154). Only the constructors
`decodeStatus` answers occur. -/
def eventBody (i : Instr) (s : State) : Flow :=
  match i with
  | .smfRunningData data => smfRunningDataBody data s
  | .smfCh8 ch => smfCh8Body ch s
  | .smfCh9 ch => smfCh9Body ch s
  | .smfChA ch => smfChABody ch s
  | .smfChB ch => smfChBBody ch s
  | .smfProgramChange ch => smfProgramChangeBody ch s
  | .smfChannelPressure ch => smfChannelPressureBody ch s
  | .smfChE ch => smfChEBody ch s
  | .smfSysexStart => smfSysexStartBody s
  | .smfMtcQuarterFrame => smfMtcQuarterFrameBody s
  | .smfSongPosition => smfSongPositionBody s
  | .smfSongSelect => smfSongSelectBody s
  | .smfUndefinedCommon low => smfUndefinedCommonBody low s
  | .smfTuneRequest => smfTuneRequestBody s
  | .smfSysexEscape => smfSysexEscapeBody s
  | .smfRealtime low => smfRealtimeBody low s
  | .smfMeta => smfMetaBody s
  | .nop | .imgInit | .streamLoad | .demuxNext | .ingest | .readRegion | .emit | .outClear | .crc32 | .inflate
  | .warnClear | .reserved _ | .chunkMthd | .chunkMtrk | .vlq _ | .rawSysex | .dt1At3D _ | .dt1At57 _
  | .dt1Emit _ _ _ _ => .done (s.warnOn .malformed).ended.noMessage

/-- One event of an open track: the delta time, then the event its next byte begins (R130). -/
def trackEvent (s : State) : Flow :=
  s.readVlq.orEnd fun _ t => t.peek.orEnd fun b u => eventBody (decodeStatus b) u

/-- One iteration of SmfNext (R130, R131, R136, R137). -/
def smfIteration (s : State) : Flow :=
  if ¬ s.trkOpen then openTrack s
  else if s.trkRem = 0 then .go { s with trkOpen := false }
  else if s.iptr = s.inLen then .done s.ended.noMessage
  else trackEvent s

/-- SmfNext with a number of iterations allowed; none where they do not suffice (R130, R156). -/
def smfLoop : Nat → State → Option Verdict
  | 0, _ => none
  | k + 1, s =>
    match smfIteration s with
    | .go t => smfLoop k t
    | .done t => some (.done t)
    | .raise e => some (.raise e)

/-- SmfNext, with the iterations R156 bounds it by. -/
def smfNext (s : State) : Option Verdict := smfLoop (2 * s.inLen.toNat + 2) s

/-! ## Raw mode -/

/-- A raw message with its start marker at the cursor: the bytes after the marker up to and including the next F7, or
up to the end of IN with W_UNTERM and the end of the input (R123). -/
def rawSysexBody (s : State) : Flow :=
  let p := s.iptr.toNat + 1
  let e := s.findByte .rawFind endMarker p (s.inLen.toNat - p)
  let n := match e with
    | none => s.inLen.toNat - p
    | some j => j - p + 1
  if n > s.cfg.msgBytes then .raise (capacityError 1)
  else
    let t : State := { s.writeBytes .msg 0 (s.readBytes .rawCopy .input p n) with
      msgLen := wordOf n, msgPos := wordOf p, iptr := wordOf (p + n) }
    .done (match e with
      | none => (t.warnOn .unterm).ended.deliver
      | some _ => t.deliver)

/-- RAW_SYSEX (R123). -/
def execRawSysex (s : State) : Host.Outcome State Fault Refusal := runElement rawSysexBody s

/-- How a flow ends a command that has no next boundary. -/
def Flow.verdict : Flow → Verdict
  | .go t => .done t
  | .done t => .done t
  | .raise e => .raise e

/-- RawNext: the scan for a start marker, then the message; none where there is no marker before the end of IN
(R123). -/
def rawNext (s : State) : Verdict :=
  match s.findByte .rawScan startMarker s.iptr.toNat s.left with
  | none => .done ({ s with iptr := wordOf (s.iptr.toNat + s.left) }.ended.noMessage)
  | some j => (rawSysexBody { s with iptr := wordOf j }).verdict

/-! ## DEMUX_NEXT -/

/-- Whether the bound input is an SMF (R84, R122). -/
def State.sniffsSmf (s : State) : Bool :=
  decide (4 ≤ s.inLen.toNat) && decide (decodeChunkTag (s.readBytes .sniff .input 0 4) = some .chunkMthd)

/-- The first DEMUX_NEXT of an SMF: the header, then the track loop (R121, R124). -/
def smfStart (s : State) : Option Verdict :=
  match chunkMthdBody s with
  | .go t => smfNext t
  | .done t => some (.done t)
  | .raise e => some (.raise e)

/-- DEMUX_NEXT's rule (R121). -/
def demuxNextBody (s : State) : Option Verdict :=
  match s.dmode with
  | .unset => if s.sniffsSmf then smfStart { s with dmode := .smf } else some (rawNext { s with dmode := .raw })
  | .raw => some (rawNext s)
  | .smf => smfNext s
  | .ended => some (.done s.noMessage)

/-- DEMUX_NEXT (R121). -/
def execDemuxNext (s : State) : Host.Outcome State Fault Refusal :=
  if s.halt then .next s.refuse
  else match demuxNextBody s with
    | some v => .next (s.settle v)
    | none => .fault .demuxBound

end Sys2Proof.Machine
end

