-- ==== Sys2Proof/Machine/Emission.lean ====
section
/-! DEFINITION. The encode direction of the device memory image: EMIT, the frames it appends, OUT_CLEAR (42_emit.md). -/

namespace Sys2Proof.Machine

/-- Bytes appended to OUT (R200). -/
def appendOut (bytes : List Byte) (s : State) : State :=
  { s.writeBytes .out s.outLen.toNat bytes with outLen := wordOf (s.outLen.toNat + bytes.length) }

/-- One frame appended to OUT (R202). -/
def appendFrame (d : Dialect) (dev : BitVec 7) (addr : Nat) (payload : List Byte) (s : State) : State :=
  appendOut (frameBytes d dev addr payload) s

/-- The number of frames for a length: ceil(len / MAX_CHUNK) (R200, R208). -/
def frameCount (len : Nat) : Nat := (len + maxChunk - 1) / maxChunk

/-- The bytes all frames for a length take: len + c*(n+7) (R205). -/
def frameTotal (d : Dialect) (len : Nat) : Nat := len + frameCount len * (d.digits + 7)

/-- EMIT's loop: `c` more chunks of at most MAX_CHUNK bytes, each framed with its own start address (R200, R201,
R204). -/
def emitFrames (d : Dialect) (dev : BitVec 7) : Nat → Nat → List Byte → State → State
  | 0, _, _, s => s
  | c + 1, addr, src, s =>
    emitFrames d dev c (addr + (src.take maxChunk).length) (src.drop maxChunk)
      (appendFrame d dev addr (src.take maxChunk) s)

/-- EMIT's rule: the operand constraints, the ranges, the room in OUT, then the frames (R200, R260). -/
def emitBody (s : State) : Verdict :=
  match selectDialect (s.lat.get .s0), selectSpace (s.lat.get .s2) with
  | some d, some sp =>
    let len := s.opnd .s4
    if s.opnd .s5 > 0x7F then .raise s.commandError
    else if ¬ s.rangeOk sp (s.opnd .s3) len then .raise s.commandError
    else if s.opnd .s1 + len > 128 ^ d.digits then .raise s.commandError
    else if s.outLen.toNat + frameTotal d len > s.cfg.outBytes then .raise (capacityError 3)
    else
      .done ((emitFrames d ((s.lat.get .s5).setWidth 7) (frameCount len) (s.opnd .s1)
        (s.readBytes .source sp (s.opnd .s3) len) s).results (wordOf (frameCount len)) (wordOf (frameTotal d len)))
  | _, _ => .raise s.commandError

/-- EMIT (R200). -/
def execEmit (s : State) : Host.Outcome State Fault Refusal := runCommand emitBody s

/-- One emitted frame alone: appended where it fits OUT, else CapacityError(3) (R202, R205). -/
def dt1EmitBody (d : Dialect) (dev : BitVec 7) (addr : Nat) (payload : List Byte) (s : State) : Flow :=
  if s.outLen.toNat + (frameBytes d dev addr payload).length > s.cfg.outBytes then .raise (capacityError 3)
  else .go (appendFrame d dev addr payload s)

/-- One frame of an EMIT in progress (R202; assumption 11). -/
def execDt1Emit (d : Dialect) (dev : BitVec 7) (addr : Nat) (payload : List Byte) (s : State) :
    Host.Outcome State Fault Refusal :=
  runElement (dt1EmitBody d dev addr payload) s

/-- OUT_CLEAR's rule: OUT_LEN <- 0; the bytes of OUT stay (R206). -/
def outClearBody (s : State) : Verdict := .done ({ s with outLen := 0 }.results 0 0)

/-- OUT_CLEAR (R206). -/
def execOutClear (s : State) : Host.Outcome State Fault Refusal := runCommand outClearBody s

end Sys2Proof.Machine
end

