-- ==== Sys2Proof/Machine/Image.lean ====
section
/-! DEFINITION. The device memory image: IMG_INIT, INGEST with the Data Set frames it recognises, READ_REGION
(41_image.md). -/

namespace Sys2Proof.Machine

/-! ## IMG_INIT -/

/-- IMG_INIT's rule: every cell of DMEM SENTINEL, which is to say no cell listed; no dialect, no snapshot (R170). -/
def imgInitBody (s : State) : Verdict :=
  .done ({ s with dmem := [], dialect := none, snapCount := 0 }.results 0 0)

/-- IMG_INIT (R170). -/
def execImgInit (s : State) : Host.Outcome State Fault Refusal := runCommand imgInitBody s

/-! ## INGEST -/

/-- The body in MSG, MSG[0..MSG_LEN) (R172). -/
def State.message (s : State) : List Byte := s.readBytes .message .msg 0 s.msgLen.toNat

/-- What is left of `Frame(m)` once the first four bytes are those of a Data Set frame of dialect d: at least one
payload byte, the end marker last, every address digit below 0x80 (R173). -/
def frameRest (d : Dialect) (m : List Byte) : Bool :=
  decide (d.digits + 7 ≤ m.length) && decide (m.getLast? = some endMarker)
    && ((m.drop 4).take d.digits).all (fun b => decide (b.toNat < 0x80))

/-- The address of a recognised frame (R94, R172). -/
def frameAddress (d : Dialect) (m : List Byte) : Nat := addressOf 0 ((m.drop 4).take d.digits)

/-- The payload of a recognised frame: k = L - n - 6 bytes (R172). -/
def framePayload (d : Dialect) (m : List Byte) : List Byte :=
  (m.drop (4 + d.digits)).take (m.length - d.digits - 6)

/-- The bytes the checksum covers, from the first address digit to the checksum byte (R174). -/
def frameSummed (m : List Byte) : List Byte := (m.drop 4).take (m.length - 5)

/-- A body that is no Data Set frame: dropped with W_FOREIGN and outcome 1 (R173, R178). -/
def dropForeign (s : State) : Verdict := .done ((s.warnOn .foreign).results 1 0)

/-- TakeSnapshot(d): the temporary-patch region appended to SNAP (R177). -/
def takeSnapshot (d : Dialect) (s : State) : State :=
  { s.writeBytes .snap (s.snapCount.toNat * s.cfg.snapEntry)
      (s.readBytes .snapshot .dmem (Config.tmpBase s.cfg d) (Config.tmpLen s.cfg d)) with
    snapCount := s.snapCount + 1 }

/-- A recognised frame written: the payload into DMEM, the dialect latched, the snapshot at the trigger address, the
outcome 0 (R176, R177). -/
def writeFrame (d : Dialect) (addr : Nat) (payload : List Byte) (s : State) : State :=
  let w : State := { s.writeBytes .dmem addr payload with dialect := some d }
  if addr = Config.trig s.cfg d then (takeSnapshot d w).results 0 1 else w.results 0 0

/-- INGEST's rule on a body whose first four bytes are those of a Data Set frame of dialect d: the rest of the frame,
the checksum, the dialect, the bounds, the room for a snapshot, in that order (R172, R260). -/
def ingestFrame (d : Dialect) (m : List Byte) (s : State) : Verdict :=
  if ¬ frameRest d m then dropForeign s
  else if sumBytes (frameSummed m) % 128 ≠ 0 then .raise ⟨.checksum, wordOf (frameAddress d m)⟩
  else if s.dialect ≠ none ∧ s.dialect ≠ some d then .done ((s.warnOn .dialect).results 2 0)
  else if frameAddress d m + (framePayload d m).length > Config.cap s.cfg d then
    .done ((s.warnOn .bounds).results 3 0)
  else if frameAddress d m = Config.trig s.cfg d ∧ s.snapCount.toNat = s.cfg.snapMax then
    .raise (capacityError 2)
  else .done (writeFrame d (frameAddress d m) (framePayload d m) s)

/-- The rule of a frame of dialect 0x3D on a body (R172). -/
def dt1At3DBody (m : List Byte) (s : State) : Verdict := ingestFrame .d3D m s

/-- The rule of a frame of dialect 0x57 on a body (R172). -/
def dt1At57Body (m : List Byte) (s : State) : Verdict := ingestFrame .d57 m s

/-- INGEST's rule on a body: the frame it begins, else foreign (R172, R173). -/
def ingestMessage (m : List Byte) (s : State) : Verdict :=
  match decodeDataSet m with
  | some (.dt1At3D _) => dt1At3DBody m s
  | some (.dt1At57 _) => dt1At57Body m s
  | _ => dropForeign s

/-- INGEST's rule (R172). -/
def ingestBody (s : State) : Verdict := ingestMessage s.message s

/-- INGEST (R172). -/
def execIngest (s : State) : Host.Outcome State Fault Refusal := runCommand ingestBody s

/-- A Data Set frame of dialect 0x3D in MSG, ingested; its device ID is not looked at (R172, R173). -/
def execDt1At3D (_dev : Byte) (s : State) : Host.Outcome State Fault Refusal :=
  runCommand (fun t => dt1At3DBody t.message t) s

/-- A Data Set frame of dialect 0x57 in MSG, ingested; its device ID is not looked at (R172, R173). -/
def execDt1At57 (_dev : Byte) (s : State) : Host.Outcome State Fault Refusal :=
  runCommand (fun t => dt1At57Body t.message t) s

/-! ## READ_REGION -/

/-- The end of the range READ_REGION accepts: CAP of the latched dialect, or MEM_BYTES (R180). -/
def regionLimit (s : State) : Nat :=
  match s.dialect with
  | none => s.cfg.memBytes
  | some d => Config.cap s.cfg d

/-- READ_REGION's rule: length 0 is a CommandError; out of range 2; else 0 or 1 by the first byte alone (R180). -/
def readRegionBody (s : State) : Verdict :=
  if s.opnd .s1 = 0 then .raise s.commandError
  else if s.opnd .s0 + s.opnd .s1 > regionLimit s then .done (s.results 2 0)
  else if s.readByte .region .dmem (s.opnd .s0) = s.cfg.sentinel then .done (s.results 0 0)
  else .done (s.results 1 0)

/-- READ_REGION (R180). -/
def execReadRegion (s : State) : Host.Outcome State Fault Refusal := runCommand readRegionBody s

end Sys2Proof.Machine
end

