-- ==== Sys2Proof/Machine/Dispatch.lean ====
section
/-! DEFINITION. The meaning of every instruction: one arm per constructor of `Instr`. -/

namespace Sys2Proof.Machine

def exec (i : Instr) (s : State) : Host.Outcome State Fault Refusal :=
  match i with
  -- Command words (R81)
  | .nop => Sys2Proof.Machine.execNop s
  | .imgInit => Sys2Proof.Machine.execImgInit s
  | .streamLoad => Sys2Proof.Machine.execStreamLoad s
  | .demuxNext => Sys2Proof.Machine.execDemuxNext s
  | .ingest => Sys2Proof.Machine.execIngest s
  | .readRegion => Sys2Proof.Machine.execReadRegion s
  | .emit => Sys2Proof.Machine.execEmit s
  | .outClear => Sys2Proof.Machine.execOutClear s
  | .crc32 => Sys2Proof.Machine.execCrc32 s
  | .inflate => Sys2Proof.Machine.execInflate s
  | .warnClear => Sys2Proof.Machine.execWarnClear s
  | .reserved word => Sys2Proof.Machine.execReserved word s
  -- SMF events (R91)
  | .smfRunningData data => Sys2Proof.Machine.execSmfRunningData data s
  | .smfCh8 ch => Sys2Proof.Machine.execSmfCh8 ch s
  | .smfCh9 ch => Sys2Proof.Machine.execSmfCh9 ch s
  | .smfChA ch => Sys2Proof.Machine.execSmfChA ch s
  | .smfChB ch => Sys2Proof.Machine.execSmfChB ch s
  | .smfProgramChange ch => Sys2Proof.Machine.execSmfProgramChange ch s
  | .smfChannelPressure ch => Sys2Proof.Machine.execSmfChannelPressure ch s
  | .smfChE ch => Sys2Proof.Machine.execSmfChE ch s
  | .smfSysexStart => Sys2Proof.Machine.execSmfSysexStart s
  | .smfMtcQuarterFrame => Sys2Proof.Machine.execSmfMtcQuarterFrame s
  | .smfSongPosition => Sys2Proof.Machine.execSmfSongPosition s
  | .smfSongSelect => Sys2Proof.Machine.execSmfSongSelect s
  | .smfUndefinedCommon low => Sys2Proof.Machine.execSmfUndefinedCommon low s
  | .smfTuneRequest => Sys2Proof.Machine.execSmfTuneRequest s
  | .smfSysexEscape => Sys2Proof.Machine.execSmfSysexEscape s
  | .smfRealtime low => Sys2Proof.Machine.execSmfRealtime low s
  | .smfMeta => Sys2Proof.Machine.execSmfMeta s
  -- Chunks, VLQ, raw message (R86, R89, R85)
  | .chunkMthd => Sys2Proof.Machine.execChunkMthd s
  | .chunkMtrk => Sys2Proof.Machine.execChunkMtrk s
  | .vlq groups => Sys2Proof.Machine.execVlq groups s
  | .rawSysex => Sys2Proof.Machine.execRawSysex s
  -- Data Set frames (R93)
  | .dt1At3D dev => Sys2Proof.Machine.execDt1At3D dev s
  | .dt1At57 dev => Sys2Proof.Machine.execDt1At57 dev s
  | .dt1Emit d dev addr payload => Sys2Proof.Machine.execDt1Emit d dev addr payload s

end Sys2Proof.Machine
end

