-- ==== Sys2Proof/Machine/HostMoves.lean ====
section
/-! DEFINITION. The HOST agent: its accesses to the block (R21 to R25, R42, R66), its scripts and their encoding as
register writes (R96 to R98). -/

namespace Sys2Proof.Machine

/-! ## Registers -/

/-- The offset of a register in the register block (R22). -/
def Reg.offset : Reg → Nat
  | .cmd => 0x00 | .status => 0x04 | .err => 0x08 | .errInfo => 0x0C | .warn => 0x10 | .wcnt => 0x14
  | .arg0 => 0x18 | .arg1 => 0x1C | .arg2 => 0x20 | .arg3 => 0x24 | .arg4 => 0x28 | .arg5 => 0x2C
  | .res0 => 0x30 | .res1 => 0x34 | .inLen => 0x38 | .iptr => 0x3C | .dstate => 0x40 | .trkRem => 0x44
  | .msgLen => 0x48 | .msgPos => 0x4C | .dialect => 0x50 | .snapCount => 0x54 | .outLen => 0x58 | .xlen => 0x5C

/-- The register at an offset; offsets not listed have none (R22). -/
def Reg.ofOffset : Nat → Option Reg
  | 0x00 => some .cmd | 0x04 => some .status | 0x08 => some .err | 0x0C => some .errInfo | 0x10 => some .warn
  | 0x14 => some .wcnt | 0x18 => some .arg0 | 0x1C => some .arg1 | 0x20 => some .arg2 | 0x24 => some .arg3
  | 0x28 => some .arg4 | 0x2C => some .arg5 | 0x30 => some .res0 | 0x34 => some .res1 | 0x38 => some .inLen
  | 0x3C => some .iptr | 0x40 => some .dstate | 0x44 => some .trkRem | 0x48 => some .msgLen | 0x4C => some .msgPos
  | 0x50 => some .dialect | 0x54 => some .snapCount | 0x58 => some .outLen | 0x5C => some .xlen
  | _ => none

/-- Where a register stands on the host's bus (R22). -/
def Config.regAddress (c : Config) (r : Reg) : Nat := c.regBase + r.offset

/-- Where a cell of a space stands on the host's bus (R61). -/
def Config.cellAddress (c : Config) (sp : Space) (a : Nat) : Nat := Config.windowBase c sp + a

/-- What a register reads as while BUSY = 0 (R22). -/
def State.regValue (s : State) : Reg → Word
  | .cmd => s.cw
  | .status => s.statusWord
  | .err => s.err.code
  | .errInfo => s.errInfo
  | .warn => s.warn
  | .wcnt => s.wcnt
  | .arg0 => s.arg.a0
  | .arg1 => s.arg.a1
  | .arg2 => s.arg.a2
  | .arg3 => s.arg.a3
  | .arg4 => s.arg.a4
  | .arg5 => s.arg.a5
  | .res0 => s.res0
  | .res1 => s.res1
  | .inLen => s.inLen
  | .iptr => s.iptr
  | .dstate => s.dstateWord
  | .trkRem => s.trkRem
  | .msgLen => s.msgLen
  | .msgPos => s.msgPos
  | .dialect => dialectCode s.dialect
  | .snapCount => s.snapCount
  | .outLen => s.outLen
  | .xlen => s.xlen

/-- ISSUE: a CMD write while BUSY = 0 latches ARG0 to ARG5, copies the word to CW and sets BUSY; while BUSY = 1 it only
sets OVR (R21, R24). -/
def State.writeCmd (s : State) (w : Word) : State :=
  if s.busy then { s with ovr := true } else { s with lat := s.arg, cw := w, busy := true }

/-- A host write to a register: CMD and ARG0 to ARG5 take it, every other register ignores it (R22, R25). -/
def State.regWrite (s : State) (r : Reg) (v : Word) : State :=
  match r with
  | .cmd => s.writeCmd v
  | .arg0 => { s with arg := s.arg.put .s0 v }
  | .arg1 => { s with arg := s.arg.put .s1 v }
  | .arg2 => { s with arg := s.arg.put .s2 v }
  | .arg3 => { s with arg := s.arg.put .s3 v }
  | .arg4 => { s with arg := s.arg.put .s4 v }
  | .arg5 => { s with arg := s.arg.put .s5 v }
  | .status | .err | .errInfo | .warn | .wcnt | .res0 | .res1 | .inLen | .iptr | .dstate | .trkRem | .msgLen
  | .msgPos | .dialect | .snapCount | .outLen | .xlen => s

/-- What a host read of an offset returns: STATUS always its value, any other register a draw while BUSY = 1, an
offset not listed 0 (R22, R42). -/
def State.hostReads (s : State) (offset : Nat) : Word :=
  match Reg.ofOffset offset with
  | some .status => s.statusWord
  | some r => if s.busy then Config.freeWord s.draws offset else s.regValue r
  | none => 0

/-- What a host read of a cell returns: its value, a draw while BUSY = 1 or while nothing has written it (R42, R63). -/
def State.hostReadsCell (s : State) (sp : Space) (a : Nat) : Byte :=
  if s.busy then Config.freeByte s.draws .host sp a else s.readByte .host sp a

/-- The state after a host read that returned a value. Reads have no side effect on the block (R67); the value and the
draw counter are the model's own. -/
def State.returned (s : State) (v : Word) : State := { s with busData := v, draws := s.draws + 1 }

/-! ## Accesses -/

/-- Whether a register access is one R66 admits: a whole aligned 32-bit word. -/
def wordAccess (offset width : Nat) : Bool := decide (width = 4 ∧ offset % 4 = 0)

/-- One host access, or reset (R21 to R25, R42, R60, R281). -/
def hostAct (a : HostAct) (s : State) : Host.Outcome State Fault Refusal :=
  match a with
  | .regWrite offset width v =>
    if ¬ wordAccess offset width then .refused .registerAccess
    else match Reg.ofOffset offset with
      | some r => .next (s.regWrite r v)
      | none => .next s
  | .regRead offset width =>
    if ¬ wordAccess offset width then .refused .registerAccess else .next (s.returned (s.hostReads offset))
  | .memWrite sp a v =>
    if ¬ (a < Config.size s.cfg sp) then .refused .outsideWindow
    else if sp ≠ .input then .refused .readOnlySpace
    else if s.busy then .refused .writeWhileBusy
    else .next (s.writeBytes .input a [v])
  | .memRead sp a =>
    if ¬ (a < Config.size s.cfg sp) then .refused .outsideWindow
    else .next (s.returned ((s.hostReadsCell sp a).setWidth 32))
  | .reset => .next s.hostReset

/-! ## Scripts -/

/-- The latch an operand name of a mnemonic means (R96). -/
def operandSlot : Instr → OperandName → Option Slot
  | .streamLoad, .len => some .s0
  | .readRegion, .addr => some .s0
  | .readRegion, .len => some .s1
  | .emit, .dialect => some .s0
  | .emit, .addr => some .s1
  | .emit, .src => some .s2
  | .emit, .off => some .s3
  | .emit, .len => some .s4
  | .emit, .dev => some .s5
  | .crc32, .src => some .s0
  | .crc32, .off => some .s1
  | .crc32, .len => some .s2
  | .crc32, .expect => some .s3
  | .crc32, .mode => some .s4
  | .inflate, .off => some .s0
  | .inflate, .clen => some .s1
  | .inflate, .ulen => some .s2
  | _, _ => none

/-- The value an operand is given: a number is itself; `src` also takes IN = 0, XBUF = 1, DMEM = 2, and `mode` takes
none = 0, fatal = 1, advisory = 2 (R96). A word under any other name stands for no value (assumption 20). -/
def OperandName.value (n : OperandName) : OperandValue → Option Word
  | .number v => some v
  | .input => if n = .src then some 0 else none
  | .xbuf => if n = .src then some 1 else none
  | .dmem => if n = .src then some 2 else none
  | .none => if n = .mode then some 0 else none
  | .fatal => if n = .mode then some 1 else none
  | .advisory => if n = .mode then some 2 else none

/-- The operand register of a slot (R22). -/
def Slot.reg : Slot → Reg
  | .s0 => .arg0
  | .s1 => .arg1
  | .s2 => .arg2
  | .s3 => .arg3
  | .s4 => .arg4
  | .s5 => .arg5

/-- A whole-word write to a register, as an agenda entry. -/
def writeReg (r : Reg) (v : Word) : Turn := .host (.regWrite r.offset 4 v)

/-- A read of STATUS, as an agenda entry. -/
def readStatus : Turn := .host (.regRead Reg.status.offset 4)

/-- The register writes of a statement's operands, in the order written; none where a name is not the mnemonic's or a
word has no value under its name (R97). -/
def operandWrites (i : Instr) : List (OperandName × OperandValue) → Option (List Turn)
  | [] => some []
  | (n, x) :: rest =>
    match operandSlot i n, n.value x, operandWrites i rest with
    | some k, some v, some ts => some (writeReg k.reg v :: ts)
    | _, _, _ => none

/-- The encoding of a command statement: `ARGi <- value` for each operand it names, then `CMD <- zext_32(OPC)` (R97). -/
def encodeStatement (i : Instr) (operands : List (OperandName × OperandValue)) : Option (List Turn) :=
  match encode i, operandWrites i operands with
  | .word w, some ts => some (ts ++ [writeReg .cmd w])
  | _, _ => none

/-- The host reading STATUS until BUSY = 0 after it issued a command: `n` reads that find BUSY = 1, CORE's Execute, and
the read that finds BUSY = 0 (R97, R21). -/
def pollTurns (n : Nat) : List Turn := List.replicate n readStatus ++ [.core, readStatus]

/-- The byte writes of a sequence, lowest offset first. -/
def byteWrites (sp : Space) (off : Nat) : List Byte → List Turn
  | [] => []
  | b :: bs => .host (.memWrite sp off b) :: byteWrites sp (off + 1) bs

/-- The place of the first line that carries a label, counted from `at_`. DESIGN CHOICE: R96 does not say which line a
label means that two lines carry; the model takes the first (assumption 20). -/
def labelIndex (label : Nat) (at_ : Nat) : List Line → Option Nat
  | [] => none
  | l :: ls => if l.label = some label then some at_ else labelIndex label (at_ + 1) ls

/-- The host going on at a label (R96). -/
def hostJump (label : Nat) (s : State) : Host.Outcome State Fault Refusal :=
  match labelIndex label 0 s.script with
  | some k => .next { s with hostPc := k }
  | none => .refused .noSuchLabel

/-- One statement of the host's script, taken while BUSY = 0 and no access is pending; its accesses go on the agenda
(R96, R97). DESIGN CHOICE: R96 gives a `copy` whose range ends before it starts no meaning; the statement is refused as
`badStatement`. An empty range makes no access, so it copies nothing wherever it lies, past the end of the space too
(assumption 20). -/
def hostStatement (s : State) : Host.Outcome State Fault Refusal :=
  match s.script[s.hostPc]? with
  | none => .next s
  | some line =>
    match line.stmt with
    | none => .next { s with hostPc := s.hostPc + 1 }
    | some (.command i operands) =>
      match encodeStatement i operands with
      | some ts =>
        .next { s with
          hostPc := s.hostPc + 1, agenda := ts ++ pollTurns (s.polls.headD 0), polls := s.polls.tail }
      | none => .refused .badStatement
    | some (.write sp off bytes) =>
      .next { s with hostPc := s.hostPc + 1, agenda := byteWrites sp off bytes }
    | some (.copy src lo hi dst off) =>
      if hi < lo then .refused .badStatement
      else if lo = hi ∨ hi ≤ Config.size s.cfg src then
        .next { s with
          hostPc := s.hostPc + 1, agenda := byteWrites dst off (s.readBytes .host src lo (hi - lo)),
          draws := s.draws + 1 }
      else .refused .outsideWindow
    | some (.ifReg r equal v label) =>
      if decide (s.regValue r = v) = equal then hostJump label s else .next { s with hostPc := s.hostPc + 1 }
    | some (.goto label) => hostJump label s
    | some .reset => .next { s with hostPc := s.hostPc + 1, agenda := [.host .reset] }

/-! ## Pseudo-commands (R98) -/

/-- A line with no label. -/
def plainLine (st : Stmt) : Line := ⟨none, some st⟩

/-- `LOAD bytes` (R98). -/
def scriptLoad (bytes : List Byte) : List Line :=
  [plainLine (.write .input 0 bytes), plainLine (.command .streamLoad [(.len, .number (wordOf bytes.length))])]

/-- `DRAIN` with its labels L and E (R98). -/
def scriptDrain (start finish : Nat) : List Line :=
  [⟨some start, some (.command .demuxNext [])⟩, plainLine (.ifReg .res0 true 0 finish),
    plainLine (.command .ingest []), plainLine (.goto start), ⟨some finish, none⟩]

/-- `CRC32` with all its operands. -/
def scriptCrc (src off len expect mode : OperandValue) : List Line :=
  [plainLine (.command .crc32 [(.src, src), (.off, off), (.len, len), (.expect, expect), (.mode, mode)])]

/-- `CRC_CHECK src=S, off=O, len=N, expect=X`: CRC32 with mode = fatal (R98). -/
def scriptCrcCheck (src off len expect : OperandValue) : List Line := scriptCrc src off len expect .fatal

/-- `CRC_ADVISE src=S, off=O, len=N, expect=X`: CRC32 with mode = advisory (R98). -/
def scriptCrcAdvise (src off len expect : OperandValue) : List Line := scriptCrc src off len expect .advisory

/-- A line of its own for the label of a pseudo-command, before its expansion (assumption 20). -/
def labelLine : Option Nat → List Line
  | none => []
  | some k => [⟨some k, none⟩]

/-- A line as written, expanded: `fresh` and `fresh + 1` are the labels a DRAIN takes (R98). -/
def expandLine (fresh : Nat) (l : SourceLine) : List Line :=
  match l.stmt with
  | none => [⟨l.label, none⟩]
  | some (.plain st) => [⟨l.label, some st⟩]
  | some (.load bytes) => labelLine l.label ++ scriptLoad bytes
  | some .drain => labelLine l.label ++ scriptDrain fresh (fresh + 1)
  | some (.crcCheck src off len expect) => labelLine l.label ++ scriptCrcCheck src off len expect
  | some (.crcAdvise src off len expect) => labelLine l.label ++ scriptCrcAdvise src off len expect

/-- The lines expanded in order, each with two labels of its own from `fresh` on. -/
def expandFrom (fresh : Nat) : List SourceLine → List Line
  | [] => []
  | l :: ls => expandLine fresh l ++ expandFrom (fresh + 2) ls

/-- The label a statement jumps to. -/
def Stmt.target : Stmt → Option Nat
  | .ifReg _ _ _ label => some label
  | .goto label => some label
  | .command _ _ | .write _ _ _ | .copy _ _ _ _ _ | .reset => none

/-- The labels a line as written carries or jumps to. -/
def SourceLine.labels (l : SourceLine) : List Nat :=
  l.label.toList ++ match l.stmt with
    | some (.plain st) => st.target.toList
    | _ => []

/-- A label above every label of a script as written. -/
def freshLabel : List SourceLine → Nat
  | [] => 0
  | l :: ls => l.labels.foldr (fun k m => max (k + 1) m) (freshLabel ls)

/-- The script of the lines as written: every pseudo-command expanded, every DRAIN with labels L and E of its own that
no line as written carries or jumps to (R98). -/
def assemble (src : List SourceLine) : List Line := expandFrom (freshLabel src) src

end Sys2Proof.Machine
end

