-- ==== Sys2Proof/Machine/Presentation.lean ====
section
/-! DEFINITION. How a code is placed where the block takes its next instruction from: a command word in CW, a stream
element in IN under a pending DEMUX_NEXT, a Data Set frame in MSG under a pending INGEST (assumption 13). -/

namespace Sys2Proof.Machine

/-- The instruction the next Execute takes: the command CW holds (R21). -/
def State.fetch (s : State) : Instr := decodeCommand s.cw

/-- The block with a command word issued and nothing of the host's pending, so that CORE moves next (R21). -/
def State.issued (s : State) (w : Word) : State := { s with agenda := [], busy := true, cw := w }

/-- The number of operand bytes after a status byte when all of them are zero: the data bytes, a zero VLQ length, or a
type byte and a zero VLQ length (R91). -/
def zeroOperands (rs : Byte) : Instr → Nat
  | .smfRunningData _ => (runningFurther rs).getD 0
  | .smfCh8 _ | .smfCh9 _ | .smfChA _ | .smfChB _ | .smfChE _ | .smfSongPosition | .smfMeta => 2
  | .smfProgramChange _ | .smfChannelPressure _ | .smfMtcQuarterFrame | .smfSongSelect | .smfSysexStart
  | .smfSysexEscape => 1
  | _ => 0

/-- The block with a stream bound to IN and a DEMUX_NEXT issued over it. -/
def State.streaming (s : State) (bytes : List Byte) (mode : DMode) (isOpen : Bool) (trkRem : Nat) : State :=
  { (s.writeBytes .input 0 bytes).issued 0x03 with
    inLen := wordOf bytes.length, iptr := 0, dmode := mode, trkOpen := isOpen, trkRem := wordOf trkRem }

/-- The block with a body in MSG and an INGEST issued over it. -/
def State.holding (s : State) (body : List Byte) : State :=
  { (s.writeBytes .msg 0 body).issued 0x04 with msgLen := wordOf body.length }

/-- The block with an instruction, its operand bytes zero, where the next Execute takes it from. A Data Set frame gets
its end marker, without which R173 sees no frame. -/
def State.presenting (s : State) (i : Instr) : State :=
  match i.format, encode i with
  | .cmdw, .word w => s.issued w
  | .smfEvent, .bytes bs =>
    s.streaming (0 :: bs ++ List.replicate (zeroOperands s.rs i) 0) .smf true 2
  | .chunk, .bytes bs =>
    s.streaming (bs ++ [0, 0, 0, 0]) (if i = .chunkMthd then .unset else .smf) false 0
  | .vlq, .bytes bs => s.streaming (bs ++ [0xF6]) .smf true (bs.length + 1)
  | .raw, .bytes bs => s.streaming (bs ++ [endMarker]) .raw false 0
  | .dt1, .bytes bs =>
    let zeros := match i with
      | .dt1At57 _ => Dialect.d57.digits + 2
      | _ => Dialect.d3D.digits + 2
    s.holding (bs ++ List.replicate zeros 0 ++ [endMarker])
  | _, _ => s

/-- `s` with the instruction of a table word where the next step takes it from. -/
def State.presentTableWord (s : State) (nbits w : Nat) : State :=
  match decodeTableWord nbits w with
  | some i => s.presenting i
  | none => s.issued (wordOf w)

end Sys2Proof.Machine
end

