-- ==== Sys2Proof/Machine/Step.lean ====
section
/-! DEFINITION. One step: a host access or CORE's turn from the agenda; with no access pending, CORE's Execute while
BUSY = 1, else the host's next statement (R20, R21; assumptions 5 and 6). -/

namespace Sys2Proof.Machine

/-- CORE's turn: Execute while BUSY = 1; CORE has no step while BUSY = 0 (R21). -/
def coreTurn (s : State) : Host.Outcome State Fault Refusal :=
  if s.busy then exec s.fetch s else .next s

/-- One step of the two agents. -/
def step (s : State) : Host.Outcome State Fault Refusal :=
  match s.agenda with
  | .core :: rest => coreTurn { s with agenda := rest }
  | .host a :: rest => hostAct a { s with agenda := rest }
  | [] => if s.busy then coreTurn s else hostStatement s

/-- `s` with the instruction of a table word where the next step takes it from (assumption 13). -/
def State.withFetchWord (s : State) (nbits w : Nat) : State := s.presentTableWord nbits w

end Sys2Proof.Machine
end

