-- ==== Sys2Proof/Safety.lean ====
section
/-! DEFINITION. The terms claims are stated in: the invariant of the reachable states, groups of fields that stay the
same, the end of a run (R292). -/

namespace Sys2Proof.Machine

/-! ## The invariant -/

/-- A space is in canonical form and lists no cell outside its size. -/
def State.SpaceOk (s : State) (sp : Space) : Prop :=
  Memory.wf (unlisted s.cfg sp) (s.mem sp) = true ∧ Memory.below (Config.size s.cfg sp) (s.mem sp) = true

/-- Every cell of [lo, lo+n) of a space holds a value. -/
def State.Written (s : State) (sp : Space) (lo n : Nat) : Prop :=
  ∀ i, i < n → (s.cell sp (lo + i)).isSome = true

/-- SDX state of a stream no DEMUX_NEXT has read yet (R120). -/
def State.FreshStream (s : State) : Prop :=
  s.iptr = 0 ∧ s.trkOpen = false ∧ s.trkRem = 0 ∧ s.rs = 0 ∧ s.msgLen = 0 ∧ s.msgPos = 0

/-- What holds at reset and after every step. -/
structure State.Inv (s : State) : Prop where
  /-- The parameters meet R9, R33's bound on IN_BYTES, and the bounds on OUT_BYTES and SNAP_MAX of assumption 4. -/
  cfgValid : Config.valid s.cfg = true
  /-- Every space is in canonical form, inside its size (R60). -/
  spaces : ∀ sp, s.SpaceOk sp
  /-- The stream fits IN, and the cursor never passes its end (R30, R33). -/
  cursor : s.inLen.toNat ≤ s.cfg.inBytes ∧ s.iptr.toNat ≤ s.inLen.toNat
  /-- The body lies inside the stream it came from, fits MSG, and every byte of it is written (R31, R32, R138). -/
  message : s.msgPos.toNat + s.msgLen.toNat ≤ s.inLen.toNat ∧ s.msgLen.toNat ≤ s.cfg.msgBytes
    ∧ s.Written .msg 0 s.msgLen.toNat
  /-- OUT[0..OUT_LEN) fits and is written (R38, R205). -/
  output : s.outLen.toNat ≤ s.cfg.outBytes ∧ s.Written .out 0 s.outLen.toNat
  /-- XBUF[0..XLEN) fits and is written (R39). -/
  expansion : s.xlen.toNat ≤ s.cfg.xbufBytes ∧ s.Written .xbuf 0 s.xlen.toNat
  /-- The snapshots fit SNAP, and the meaningful bytes of each are written (R36). -/
  snapshots : s.snapCount.toNat ≤ s.cfg.snapMax ∧ ∀ d, s.dialect = some d → ∀ k, k < s.snapCount.toNat →
    s.Written .snap (k * s.cfg.snapEntry) (Config.tmpLen s.cfg d)
  /-- No dialect is latched before a message is written: the image is then untouched (R35, R175). -/
  unlatched : s.dialect = none → s.dmem = [] ∧ s.snapCount = 0
  /-- HALT and ERR record the first fatal error together, and LAST tells them (R23, R253 to R255). -/
  errors : (s.halt = true ↔ s.err ≠ .none) ∧ (s.err = .none → s.errInfo = 0) ∧ (s.halt = true ↔ s.last ≠ .completed)
  /-- Only the eight warning bits are ever set, and WCNT counts when one is (R256, R258, I8). -/
  warnings : s.warn.toNat < 256 ∧ (s.warn = 0 ↔ s.wcnt = 0)
  /-- An unread stream is fresh, and a track is open only in SMF mode or after its end (R27, R29). -/
  stream : (s.dmode = .unset → s.FreshStream) ∧ (s.dmode = .raw → s.trkOpen = false ∧ s.trkRem = 0 ∧ s.rs = 0)

/-! ## Groups of fields -/

/-- The HOST's side and the parameters: CW, ARG, the latches, the agenda, the script, the polls to
come, the last value read. -/
def SameHostSide (s t : State) : Prop :=
  t.cw = s.cw ∧ t.arg = s.arg ∧ t.lat = s.lat ∧ t.cfg = s.cfg ∧ t.agenda = s.agenda ∧ t.script = s.script
    ∧ t.hostPc = s.hostPc ∧ t.polls = s.polls ∧ t.busData = s.busData

/-- The error registers and STATUS.HALT, STATUS.OVR. -/
def SameErrors (s t : State) : Prop :=
  t.err = s.err ∧ t.errInfo = s.errInfo ∧ t.halt = s.halt ∧ t.ovr = s.ovr

/-- The warning registers. -/
def SameWarnings (s t : State) : Prop := t.warn = s.warn ∧ t.wcnt = s.wcnt

/-- SDX: the stream, its cursor and mode, the track, the running status. -/
def SameStream (s t : State) : Prop :=
  t.inLen = s.inLen ∧ t.iptr = s.iptr ∧ t.dmode = s.dmode ∧ t.trkOpen = s.trkOpen ∧ t.rs = s.rs
    ∧ t.trkRem = s.trkRem

/-- The message registers. -/
def SameMessage (s t : State) : Prop := t.msgLen = s.msgLen ∧ t.msgPos = s.msgPos

/-- The registers of the image. -/
def SameImage (s t : State) : Prop := t.dialect = s.dialect ∧ t.snapCount = s.snapCount

/-- The registers of OUT and XBUF. -/
def SameSinks (s t : State) : Prop := t.outLen = s.outLen ∧ t.xlen = s.xlen

/-- Every byte of a space reads as before. -/
def SameSpace (sp : Space) (s t : State) : Prop := ∀ a, t.cell sp a = s.cell sp a

/-- Every byte of every space but one reads as before. -/
def SameSpacesBut (sp : Space) (s t : State) : Prop := ∀ sp', sp' ≠ sp → SameSpace sp' s t

/-- Every byte of every space reads as before. -/
def SameSpaces (s t : State) : Prop := ∀ sp, SameSpace sp s t

/-- The command ended by `return`: BUSY = 0, LAST = 0 (R21, R23). -/
def Completed (t : State) : Prop := t.busy = false ∧ t.last = .completed

/-- The results. -/
def SameResults (s t : State) : Prop := t.res0 = s.res0 ∧ t.res1 = s.res1

/-- Everything of the block but STATUS, the error registers and CW. -/
def SameBlock (s t : State) : Prop :=
  SameWarnings s t ∧ SameResults s t ∧ SameStream s t ∧ SameMessage s t ∧ SameImage s t ∧ SameSinks s t
    ∧ SameSpaces s t

/-- The command raised an error: its code and information, HALT = 1, LAST = 1, BUSY = 0, and every write of the command
rolled back (R253, R13). -/
def EndsFatal (s t : State) (code : ErrCode) (info : Word) : Prop :=
  t.err = code ∧ t.errInfo = info ∧ t.halt = true ∧ t.last = .fatal ∧ t.busy = false ∧ t.ovr = s.ovr
    ∧ SameHostSide s t ∧ SameBlock s t

/-- A host read left the block, and all of the host's side but the last value read, as it was (R67). -/
def ReadOnly (s t : State) : Prop :=
  t.busy = s.busy ∧ t.last = s.last ∧ t.cw = s.cw ∧ t.arg = s.arg ∧ t.lat = s.lat ∧ t.cfg = s.cfg
    ∧ t.agenda = s.agenda ∧ t.script = s.script ∧ t.hostPc = s.hostPc ∧ t.polls = s.polls ∧ SameErrors s t
    ∧ SameBlock s t

/-- The next step is the Execute of an instruction by an unhalted block. -/
def Executes (s : State) (i : Instr) : Prop :=
  s.busy = true ∧ s.halt = false ∧ s.fetch = i ∧ (s.agenda = [] ∨ s.agenda.head? = some .core)

/-- The results are these two. -/
def Results (t : State) (r0 r1 : Word) : Prop := t.res0 = r0 ∧ t.res1 = r1

/-- One warning more than before: its bit set, the others as they were, WCNT counted (R258). -/
def Warned (s t : State) (w : Warning) : Prop :=
  (∀ k, t.warn.getLsbD k = (s.warn.getLsbD k || decide (k = w.bit)))
    ∧ t.wcnt.toNat = min (s.wcnt.toNat + 1) 0xFFFFFFFF

/-! ## Streams -/

/-- `k` bytes of the stream consumed: IPTR moves on, and TRK_REM falls by k in an open track, saturating at 0 (R33,
R128). -/
def Consumed (s t : State) (k : Nat) : Prop :=
  t.iptr.toNat = s.iptr.toNat + k ∧ t.trkRem.toNat = if s.trkOpen then s.trkRem.toNat - k else s.trkRem.toNat

/-- An event went by: `k` bytes consumed, RS as given, the command still in progress, nothing else changed. -/
def Passed (s t : State) (k : Nat) (rs : Byte) : Prop :=
  Consumed s t k ∧ t.rs = rs ∧ t.inLen = s.inLen ∧ t.dmode = s.dmode ∧ t.trkOpen = s.trkOpen
    ∧ t.busy = s.busy ∧ t.last = s.last ∧ SameHostSide s t ∧ SameErrors s t ∧ SameWarnings s t ∧ SameResults s t
    ∧ SameMessage s t ∧ SameImage s t ∧ SameSinks s t ∧ SameSpaces s t

/-- No message: MSG_LEN, MSG_POS and both results 0 (R121). -/
def NoMessage (t : State) : Prop := t.msgLen = 0 ∧ t.msgPos = 0 ∧ Results t 0 0

/-- The command ended with no message and the input over; the cursor, TRK_REM, RS and the warnings apart, nothing else
changed. -/
def InputOver (s t : State) : Prop :=
  Completed t ∧ NoMessage t ∧ t.dmode = .ended ∧ t.inLen = s.inLen ∧ SameHostSide s t ∧ SameErrors s t
    ∧ SameImage s t ∧ SameSinks s t ∧ SameSpaces s t

/-- The command ended by a signal after `k` bytes: one warning, the input over, no message (R125). -/
def Signalled (s t : State) (w : Warning) (k : Nat) (rs : Byte) : Prop :=
  Warned s t w ∧ Consumed s t k ∧ t.rs = rs ∧ t.trkOpen = s.trkOpen ∧ InputOver s t

/-- A DEMUX_NEXT from `s` goes on as one from `u`: it ends in the same state, but for a fatal error, which rolls back to
`s` (R253). -/
def ContinuesAs (s u : State) : Prop :=
  ∃ t, exec .demuxNext u = .next t
    ∧ exec .demuxNext s = .next (if t.halt then s.takeFatal ⟨t.err, t.errInfo⟩ else t)

/-- A body of `n` bytes read from IN at `pos` at a place of the rules delivered in MSG: MSG_LEN, MSG_POS, the results,
and nothing of MSG beyond it (R31, R139). -/
def Delivered (s t : State) (site : ReadSite) (pos n : Nat) : Prop :=
  Completed t ∧ t.msgLen.toNat = n ∧ t.msgPos.toNat = pos ∧ t.res0 = 1 ∧ t.res1.toNat = n
    ∧ (∀ i, t.cell .msg i = if i < n then some (s.readByte site .input (pos + i)) else s.cell .msg i)
    ∧ SameSpacesBut .msg s t ∧ t.inLen = s.inLen ∧ SameHostSide s t ∧ SameErrors s t ∧ SameImage s t ∧ SameSinks s t

/-- The raw body after the start marker at `j`: `n` bytes, ended by the first end marker, or by the end of IN (R123). -/
def RawBody (s : State) (j n : Nat) (terminated : Bool) : Prop :=
  if terminated then
    j + n < s.inLen.toNat ∧ 1 ≤ n ∧ s.readByte .rawFind .input (j + n) = endMarker
      ∧ ∀ k, j < k → k < j + n → s.readByte .rawFind .input k ≠ endMarker
  else
    n = s.inLen.toNat - (j + 1) ∧ ∀ k, j < k → k < s.inLen.toNat → s.readByte .rawFind .input k ≠ endMarker

/-- A raw message delivered: the cursor after it; with no end marker W_UNTERM and the input over (R123). -/
def RawDelivered (s t : State) (j n : Nat) (terminated : Bool) : Prop :=
  Delivered s t .rawCopy (j + 1) n ∧ t.iptr.toNat = j + 1 + n ∧ t.trkOpen = s.trkOpen ∧ t.rs = s.rs
    ∧ t.trkRem = s.trkRem
    ∧ (if terminated then SameWarnings s t ∧ t.dmode = s.dmode else Warned s t .unterm ∧ t.dmode = .ended)

/-! ## Events (R91) -/

/-- The number of data bytes after a channel status byte. -/
def channelData : Instr → Option Nat
  | .smfCh8 _ | .smfCh9 _ | .smfChA _ | .smfChB _ | .smfChE _ => some 2
  | .smfProgramChange _ | .smfChannelPressure _ => some 1
  | _ => none

/-- The number of data bytes after a system status byte of fixed length. -/
def systemData : Instr → Option Nat
  | .smfSongPosition => some 2
  | .smfMtcQuarterFrame | .smfSongSelect => some 1
  | .smfUndefinedCommon _ | .smfTuneRequest | .smfRealtime _ => some 0
  | _ => none

/-! ## Frames (R93, R173) -/

/-- MSG holds a body. -/
def Holds (s : State) (m : List Byte) : Prop :=
  s.msgLen.toNat = m.length ∧ ∀ i, i < m.length → s.cell .msg i = m[i]?

/-- A body that is a Data Set frame of dialect `d`: any device ID, address digits below 0x80, any payload of at least one
byte, any checksum byte, the end marker last. -/
def IsFrame (d : Dialect) (dev : Byte) (digits payload : List Byte) (cs : Byte) (m : List Byte) : Prop :=
  m = [0x41, dev, d.byte, 0x12] ++ digits ++ payload ++ [cs, 0xF7] ∧ digits.length = d.digits
    ∧ (∀ b ∈ digits, b.toNat < 0x80) ∧ payload ≠ []

/-- The Data Set frame of a dialect and device ID, as an instruction (R93). -/
def dataSet (d : Dialect) (dev : Byte) : Instr :=
  match d with
  | .d3D => .dt1At3D dev
  | .d57 => .dt1At57 dev

/-- The instructions that ingest a body of a dialect and device ID. -/
def ingesters (d : Dialect) (dev : Byte) : List Instr := [.ingest, dataSet d dev]

/-- Nothing but the results and the warnings changed. -/
def Dropped (s t : State) (w : Warning) (outcome : Word) : Prop :=
  Completed t ∧ Warned s t w ∧ Results t outcome 0 ∧ SameHostSide s t ∧ SameErrors s t ∧ SameStream s t
    ∧ SameMessage s t ∧ SameImage s t ∧ SameSinks s t ∧ SameSpaces s t

/-- A payload written at an address in DMEM, and nothing else of DMEM; the dialect latched; SNAP apart, the rest as it
was (R176). -/
def FrameWritten (s t : State) (d : Dialect) (addr : Nat) (payload : List Byte) : Prop :=
  Completed t ∧ t.dialect = some d
    ∧ (∀ a, t.cell .dmem a = if addr ≤ a ∧ a < addr + payload.length then payload[a - addr]? else s.cell .dmem a)
    ∧ (∀ sp, sp ≠ .dmem → sp ≠ .snap → SameSpace sp s t) ∧ SameHostSide s t ∧ SameErrors s t ∧ SameWarnings s t
    ∧ SameStream s t ∧ SameMessage s t ∧ SameSinks s t

/-- What INGEST of a frame of dialect `d` may raise on the body in MSG: ChecksumError with the decoded address where the
bytes from the address to the checksum do not sum to 0 mod 128, CapacityError(2) where the address is the trigger
address and SNAP is full (R174, R177, R250). -/
def IngestRaises (s t : State) (d : Dialect) : Prop :=
  let addr := addressOf 0 ((s.message.drop 4).take d.digits)
  (t.err = .checksum ∧ t.errInfo = wordOf addr ∧ sumBytes ((s.message.drop 4).take (s.message.length - 5)) % 128 ≠ 0)
    ∨ (t.err = .capacity ∧ t.errInfo = 2 ∧ addr = Config.trig s.cfg d ∧ s.snapCount.toNat = s.cfg.snapMax)

/-- The bytes EMIT builds: the chunks of at most 256 bytes in order, each framed with its own start address (R201,
R204). -/
def emittedBytes (d : Dialect) (dev : BitVec 7) (addr : Nat) (src : List Byte) : List Byte :=
  (List.range ((src.length + 255) / 256)).flatMap fun k =>
    frameBytes d dev (addr + 256 * k) ((src.drop (256 * k)).take 256)

/-- DRAIN: DEMUX_NEXT, and INGEST while it delivers a message, to the end of the stream (R98). Each command is executed
in the state the one before it left. -/
inductive Drains : State → State → Prop
  | over {s t : State} (h : exec .demuxNext s = .next t) (hr : t.res0 = 0) : Drains s t
  | message {s t u v : State} (h : exec .demuxNext s = .next t) (hr : t.res0 ≠ 0) (hi : exec .ingest t = .next u)
      (hd : Drains u v) : Drains s v

/-! ## Operand errors (R62, R82, R200, R204, R220, R225) -/

/-- The source space of a selector. -/
def sourceSpace (selector : Word) : Option Space := [Space.input, .xbuf, .dmem][selector.toNat]?

/-- An operand of EMIT outside its constraint, its source range outside the space, or its address range outside what the
dialect's digits encode. -/
def EmitOperandError (s : State) : Prop :=
  (s.lat.a0 ≠ 0x3D ∧ s.lat.a0 ≠ 0x57) ∨ 2 < s.lat.a2.toNat ∨ 0x7F < s.lat.a5.toNat
    ∨ (∃ sp, sourceSpace s.lat.a2 = some sp ∧ Config.size s.cfg sp < s.lat.a3.toNat + s.lat.a4.toNat)
    ∨ ∃ d : Dialect, s.lat.a0 = d.byte.setWidth 32 ∧ 128 ^ d.digits < s.lat.a1.toNat + s.lat.a4.toNat

/-- An operand of CRC32 outside its constraint, or its range outside the space. -/
def Crc32OperandError (s : State) : Prop :=
  2 < s.lat.a0.toNat ∨ 2 < s.lat.a4.toNat
    ∨ ∃ sp, sourceSpace s.lat.a0 = some sp ∧ Config.size s.cfg sp < s.lat.a1.toNat + s.lat.a2.toNat

/-- The fatal check of CRC32: the value computed is not the value expected, and is the error's information. -/
def CrcCheckFails (s : State) (info : Word) : Prop :=
  s.lat.a4 = 1 ∧ info ≠ s.lat.a3
    ∧ ∃ sp, sourceSpace s.lat.a0 = some sp ∧ info = crcOf (s.readBytes .source sp s.lat.a1.toNat s.lat.a2.toNat)

/-- The codec's answer to the source of INFLATE. -/
def inflated (s : State) : Option (List Byte) :=
  Config.inflate s.cfg.inflateFormat (s.readBytes .source .input s.lat.a0.toNat s.lat.a1.toNat)

/-! ## Scripts (R96, R97) -/

/-- `n` steps lead from one state to another. -/
def Steps : Nat → State → State → Prop
  | 0, s, t => t = s
  | n + 1, s, t => ∃ u, step s = .next u ∧ Steps n u t

/-- R96's operand names by mnemonic, each with the number of its operand register. -/
def operandNames : List (Instr × OperandName × Nat) :=
  [(.streamLoad, .len, 0), (.readRegion, .addr, 0), (.readRegion, .len, 1), (.emit, .dialect, 0), (.emit, .addr, 1),
    (.emit, .src, 2), (.emit, .off, 3), (.emit, .len, 4), (.emit, .dev, 5)]
  ++ [(.crc32, .src, 0), (.crc32, .off, 1), (.crc32, .len, 2), (.crc32, .expect, 3), (.crc32, .mode, 4),
    (.inflate, .off, 0), (.inflate, .clen, 1), (.inflate, .ulen, 2)]

/-- R96's words with their values, by operand name. -/
def operandWords : List (OperandName × OperandValue × Word) :=
  [(.src, .input, 0), (.src, .xbuf, 1), (.src, .dmem, 2), (.mode, .none, 0), (.mode, .fatal, 1), (.mode, .advisory, 2)]

/-- An operand of a mnemonic means the value `v` for operand register `k` (R96). -/
def Means (i : Instr) (p : OperandName × OperandValue) (k : Nat) (v : Word) : Prop :=
  (i, p.1, k) ∈ operandNames ∧ (p.2 = .number v ∨ (p.1, p.2, v) ∈ operandWords)

/-- The operand registers after the operands of a statement are written in order. -/
def written (i : Instr) (operands : List (OperandName × OperandValue)) (o : Operands) : Operands :=
  operands.foldl (fun o p =>
    match operandSlot i p.1, p.1.value p.2 with
    | some k, some v => o.put k v
    | _, _ => o) o

/-! ## Reset (R280) -/

/-- Every piece of the block's state has its reset value, under given parameters: a cell that holds no value reads as a
draw (R63). -/
def AfterReset (c : Config) (s : State) : Prop :=
  s.cfg = c ∧ s.cw = 0 ∧ s.busy = false ∧ s.halt = false ∧ s.ovr = false ∧ s.last = .completed ∧ s.err = .none
    ∧ s.errInfo = 0 ∧ s.warn = 0 ∧ s.wcnt = 0 ∧ s.arg = ⟨0, 0, 0, 0, 0, 0⟩ ∧ s.lat = ⟨0, 0, 0, 0, 0, 0⟩
    ∧ s.res0 = 0 ∧ s.res1 = 0 ∧ s.inLen = 0 ∧ s.iptr = 0 ∧ s.dmode = .unset ∧ s.trkOpen = false ∧ s.rs = 0
    ∧ s.trkRem = 0 ∧ s.msgLen = 0 ∧ s.msgPos = 0 ∧ s.dialect = none ∧ s.snapCount = 0 ∧ s.outLen = 0 ∧ s.xlen = 0
    ∧ (∀ a, s.cell .dmem a = some c.sentinel)
    ∧ ∀ sp, sp ≠ .dmem → ∀ a, s.cell sp a = none ∧ ∀ site, s.readByte site sp a = Config.freeByte s.draws site sp a

/-! ## The end of a run (R292) -/

/-- The host has executed its last statement, no access is pending, and BUSY = 0. -/
def State.Finished (s : State) : Prop := s.agenda = [] ∧ s.script.length ≤ s.hostPc ∧ s.busy = false

/-- At the end of a run: HALT = 0 and OVR = 0. -/
def State.Successful (s : State) : Prop := s.Finished ∧ s.halt = false ∧ s.ovr = false

/-- Two ends of a run that no observation of R292 tells apart: every register, DMEM, and the meaningful cells of the
other spaces. -/
def SameObservation (s t : State) : Prop :=
  (∀ r, s.regValue r = t.regValue r) ∧ SameSpace .dmem s t
    ∧ (∀ a, a < s.snapCount.toNat * s.cfg.snapEntry → s.cell .snap a = t.cell .snap a)
    ∧ (∀ a, a < s.outLen.toNat → s.cell .out a = t.cell .out a)
    ∧ (∀ a, a < s.xlen.toNat → s.cell .xbuf a = t.cell .xbuf a)
    ∧ (∀ a, a < s.msgLen.toNat → s.cell .msg a = t.cell .msg a)

end Sys2Proof.Machine
end

