-- ==== Sys2Proof/Certificates/Slice0/Obligations.lean ====
section
/-! DEFINITION. The statements for the provers, in the order of OBLIGATIONS.json. A statement about a command's result
holds while HALT = 0; `HaltedRefusal` says what happens while HALT = 1. "log <n>" is notes/assumptions/<n>.md. -/

open Sys2Proof Sys2Proof.Machine

/-! ## Encoding -/

/-- R83, R242: every word is one of the eleven commands or reserved, and a reserved word ends in CommandError with the
word. -/
def Obligations.CommandWordsDecode : Prop :=
  ∀ w : Word,
    (w.toNat ≤ 0x0A → some (decodeCommand w) = [Instr.nop, .imgInit, .streamLoad, .demuxNext, .ingest, .readRegion,
      .emit, .outClear, .crc32, .inflate, .warnClear][w.toNat]?)
    ∧ (0x0A < w.toNat → decodeCommand w = .reserved w ∧
      (∀ s : State, s.halt = false → ∃ t, exec (.reserved w) s = .next t ∧ EndsFatal s t .command w) ∧
      ∀ s : State, s.halt = false → s.busy = true → s.agenda = [] → s.cw = w →
        ∃ t, step s = .next t ∧ EndsFatal s t .command w)

/-- Words written out from the encodings of R81, R84, R85, R87, R89, R91, R93 and R202 decode to the instructions they
stand for. -/
def Obligations.WrittenWordsDecode : Prop :=
  decodeCommand 0x00000006 = .emit ∧ decodeCommand 0x00000106 = .reserved 0x106
  ∧ decodeStatus 0x93 = .smfCh9 3 ∧ decodeStatus 0xC5 = .smfProgramChange 5 ∧ decodeStatus 0x40 = .smfRunningData 0x40
  ∧ decodeStatus 0xF5 = .smfUndefinedCommon 1 ∧ decodeStatus 0xFE = .smfRealtime 6 ∧ decodeStatus 0xFF = .smfMeta
  ∧ decode .chunk (.bytes [0x4D, 0x54, 0x72, 0x6B, 0x00]) = .ok (.chunkMtrk, [0x00])
  ∧ decode .vlq (.bytes [0x81, 0x00, 0x90]) = .ok (.vlq [1, 0], [0x90])
  ∧ decode .raw (.bytes [0xF0, 0x41]) = .ok (.rawSysex, [0x41])
  ∧ decode .dt1 (.bytes [0x41, 0x10, 0x57, 0x12, 0x00]) = .ok (.dt1At57 0x10, [0x00])
  ∧ decode .dt1Emit (.bytes [0xF0, 0x41, 0x10, 0x3D, 0x12, 0x00, 0x10, 0x00, 0x05, 0x06, 0x65, 0xF7])
      = .ok (.dt1Emit .d3D 0x10 0x800 [0x05, 0x06], [])

/-- Decoding the code of a well-formed instruction gives it back; stream bytes after it are left over. -/
def Obligations.EncodeThenDecode : Prop :=
  ∀ i : Instr, WellFormed i →
    decode i.format (encode i) = .ok (i, [])
    ∧ ∀ bs rest, encode i = .bytes bs → i.format ≠ .dt1Emit → decode i.format (.bytes (bs ++ rest)) = .ok (i, rest)

/-- What decodes to an instruction is that instruction's code, so no code is read as a neighbour's. -/
def Obligations.DecodeThenEncode : Prop :=
  ∀ (f : Format) (c : Code) (i : Instr) (rest : List Byte), decode f c = .ok (i, rest) →
    WellFormed i ∧ i.format = f
    ∧ match encode i with
      | .word w => c = .word w ∧ rest = []
      | .bytes bs => c = .bytes (bs ++ rest)

/-- R94: the address of digits, the digits of an address, and the ranges of three and four digits. -/
def Obligations.AddressDigits : Prop :=
  (∀ ds : List Byte, addressOf 0 ds = ∑ j ∈ Finset.range ds.length, (ds.getD j 0).toNat * 128 ^ (ds.length - 1 - j))
  ∧ (∀ n addr, (addressDigits n addr).length = n ∧
      ∀ j, j < n → (addressDigits n addr)[j]? = some (byteOf ((addr >>> (7 * (n - 1 - j))) &&& 0x7F)))
  ∧ (∀ n addr, addr < 128 ^ n → addressOf 0 (addressDigits n addr) = addr)
  ∧ ∀ (d : Dialect) (ds : List Byte), ds.length = d.digits → (∀ b ∈ ds, b.toNat < 0x80) →
      addressOf 0 ds < d.addressRange ∧ addressDigits d.digits (addressOf 0 ds) = ds

/-- R203: the checksum byte of an emitted frame is below 0x80, is 0x00 when the sum is 0 mod 128, and meets the law;
the frame is laid out as R202 says. -/
def Obligations.EmittedChecksum : Prop :=
  ∀ (d : Dialect) (dev : BitVec 7) (addr : Nat) (payload : List Byte),
    ∃ (digits : List Byte) (cs : Byte),
      frameBytes d dev addr payload
        = [0xF0, 0x41, (0#1 ++ dev : BitVec 8), d.byte, 0x12] ++ digits ++ payload ++ [cs, 0xF7]
      ∧ digits = addressDigits d.digits addr
      ∧ (frameBytes d dev addr payload).length = d.digits + payload.length + 7
      ∧ cs.toNat < 0x80
      ∧ sumBytes (digits ++ payload ++ [cs]) % 128 = 0
      ∧ (sumBytes (digits ++ payload) % 128 = 0 → cs = 0x00)

/-- R126: ReadVLQ reads the groups of a VLQ of one to four bytes, signals MALFORMED after four bytes with the high bit
set, and TRUNC at the end of IN. -/
def Obligations.VlqReads : Prop :=
  ∀ s : State,
    (∀ groups : List (BitVec 7), WellFormed (.vlq groups) → groups.length ≤ s.left →
      s.readBytes .next .input s.iptr.toNat groups.length = vlqBytes groups →
      s.readVlq = .ok (vlqValue 0 groups) (s.consume groups.length) ∧ vlqValue 0 groups < 2 ^ 28)
    ∧ (4 ≤ s.left → (∀ b ∈ s.readBytes .next .input s.iptr.toNat 4, 0x80 ≤ b.toNat) →
      s.readVlq = .malformed (s.consume 4))
    ∧ (s.left < 4 → (∀ b ∈ s.readBytes .next .input s.iptr.toNat s.left, 0x80 ≤ b.toNat) →
      s.readVlq = .trunc (s.consume s.left))

/-- `n` times Next(), the bytes discarded (R129). -/
def Sys2Proof.Machine.State.nextTimes : Nat → State → Sig Unit
  | 0, s => .ok () s
  | n + 1, s =>
    match s.next1 with
    | .ok _ t => State.nextTimes n t
    | .trunc t => .trunc t
    | .malformed t => .malformed t

/-- R129: Skip(n) is Next() n times. -/
def Obligations.SkipIsRepeatedNext : Prop :=
  ∀ (s : State) (n : Nat), s.skip n = State.nextTimes n s

/-! ## Control, errors and warnings -/

/-- R240: NOP leaves everything, RES0 and RES1 too, and LAST becomes 0; while halted it is refused. -/
def Obligations.NopDoesNothing : Prop :=
  decodeCommand 0x00000000 = .nop
  ∧ ∀ s : State,
    (s.halt = false →
      ∃ t, exec .nop s = .next t ∧ Completed t ∧ SameHostSide s t ∧ SameErrors s t ∧ SameBlock s t)
    ∧ (s.halt = true → ∃ t, exec .nop s = .next t ∧ t.last = .refused ∧ t.halt = true)

/-- R241: WARN_CLEAR clears WARN, WCNT and OVR and nothing else; it does not clear ERR or HALT. -/
def Obligations.WarnClearResult : Prop :=
  decodeCommand 0x0000000A = .warnClear
  ∧ ∀ s : State, s.halt = false →
    ∃ t, exec .warnClear s = .next t ∧ Completed t ∧ t.warn = 0 ∧ t.wcnt = 0 ∧ t.ovr = false ∧ Results t 0 0
      ∧ t.err = s.err ∧ t.errInfo = s.errInfo ∧ t.halt = s.halt ∧ SameHostSide s t ∧ SameStream s t
      ∧ SameMessage s t ∧ SameImage s t ∧ SameSinks s t ∧ SameSpaces s t

/-- R254: while HALT = 1 the Execute of any command writes LAST = 2 and BUSY = 0 and nothing else, whatever word CW
holds; Issue still works. -/
def Obligations.HaltedRefusal : Prop :=
  (∀ (i : Instr) (s : State), i.format = .cmdw → s.halt = true →
    ∃ t, exec i s = .next t ∧ t.last = .refused ∧ t.busy = false ∧ SameHostSide s t ∧ SameErrors s t ∧ SameBlock s t)
  ∧ (∀ s : State, s.halt = true → s.busy = true → s.agenda = [] →
    ∃ t, step s = .next t ∧ t.last = .refused ∧ t.busy = false ∧ SameHostSide s t ∧ SameErrors s t ∧ SameBlock s t)
  ∧ ∀ (s : State) (w : Word), s.halt = true → s.busy = false →
    ∃ t, hostAct (.regWrite Reg.cmd.offset 4 w) s = .next t ∧ t.cw = w ∧ t.busy = true ∧ t.lat = s.arg
      ∧ SameErrors s t ∧ SameBlock s t

/-- R253, R13: a command that leaves an unhalted block halted has rolled back every write of its own; it has recorded an
error, LAST = 1 and BUSY = 0. For a stream row, exec alone is the model's choice (log 11). -/
def Obligations.FatalRollback : Prop :=
  ∀ (i : Instr) (s t : State), s.halt = false → exec i s = .next t → t.halt = true →
    t.err ≠ .none ∧ EndsFatal s t t.err t.errInfo

/-- R252: the errors each command may raise, with their information and the condition of an operand error, of a checksum
or of a fatal check, and no others. For a stream row, exec alone is
the model's choice (log 11). -/
def Obligations.ErrorsByCommand : Prop :=
  ∀ (i : Instr) (s t : State), s.halt = false → exec i s = .next t → t.halt = true →
    match i with
    | .nop | .imgInit | .outClear | .warnClear => False
    | .streamLoad => t.err = .command ∧ t.errInfo = s.cw ∧ s.cfg.inBytes < s.lat.a0.toNat
    | .demuxNext => t.err = .capacity ∧ t.errInfo = 1
    | .ingest => ∃ d dev, s.message.take 4 = [0x41, dev, d.byte, 0x12] ∧ IngestRaises s t d
    | .readRegion => t.err = .command ∧ t.errInfo = s.cw ∧ s.lat.a1 = 0
    | .emit => (t.err = .command ∧ t.errInfo = s.cw ∧ EmitOperandError s) ∨ (t.err = .capacity ∧ t.errInfo = 3)
    | .crc32 => (t.err = .command ∧ t.errInfo = s.cw ∧ Crc32OperandError s)
        ∨ (t.err = .containerCrc ∧ CrcCheckFails s t.errInfo)
    | .inflate => (t.err = .command ∧ t.errInfo = s.cw ∧ s.cfg.inBytes < s.lat.a0.toNat + s.lat.a1.toNat)
        ∨ (t.err = .capacity ∧ t.errInfo = 4 ∧ s.cfg.xbufBytes < s.lat.a2.toNat)
        ∨ (t.err = .format ∧ t.errInfo = 1 ∧ inflated s = none)
        ∨ (t.err = .format ∧ t.errInfo = 2 ∧ ∃ r, inflated s = some r ∧ r.length ≠ s.lat.a2.toNat)
    | .reserved w => t.err = .command ∧ t.errInfo = w
    | .smfSysexStart | .smfSysexEscape | .rawSysex => t.err = .capacity ∧ t.errInfo = 1
    | .dt1At3D _ => IngestRaises s t .d3D
    | .dt1At57 _ => IngestRaises s t .d57
    | .dt1Emit _ _ _ _ => t.err = .capacity ∧ t.errInfo = 3
    | .smfRunningData _ | .smfCh8 _ | .smfCh9 _ | .smfChA _ | .smfChB _ | .smfProgramChange _ | .smfChannelPressure _
    | .smfChE _ | .smfMtcQuarterFrame | .smfSongPosition | .smfSongSelect | .smfUndefinedCommon _ | .smfTuneRequest
    | .smfRealtime _ | .smfMeta | .chunkMthd | .chunkMtrk | .vlq _ => False

/-- R255: a step clears HALT, ERR or ERR_INFO of a halted block only where it is a reset. -/
def Obligations.OnlyResetClearsErrors : Prop :=
  ∀ s t : State, s.halt = true → step s = .next t →
    if s.agenda.head? = some (.host .reset) then t.halt = false ∧ t.err = .none ∧ t.errInfo = 0
    else t.halt = true ∧ t.err = s.err ∧ t.errInfo = s.errInfo

/-- R259: no step but a reset and a WARN_CLEAR clears a warning bit or makes WCNT smaller. -/
def Obligations.WarningsAreSticky : Prop :=
  ∀ s t : State, step s = .next t → s.agenda.head? ≠ some (.host .reset) → ¬ Executes s .warnClear →
    (∀ k, s.warn.getLsbD k = true → t.warn.getLsbD k = true) ∧ s.wcnt.toNat ≤ t.wcnt.toNat

/-- R258: the effect of a warning: its bit, the count, saturating, and nothing else. -/
def Obligations.WarningEffect : Prop :=
  ∀ (s : State) (w : Warning),
    Warned s (s.warnOn w) w ∧ SameHostSide s (s.warnOn w) ∧ SameErrors s (s.warnOn w) ∧ SameResults s (s.warnOn w)
    ∧ SameStream s (s.warnOn w) ∧ SameMessage s (s.warnOn w) ∧ SameImage s (s.warnOn w) ∧ SameSinks s (s.warnOn w)
    ∧ SameSpaces s (s.warnOn w) ∧ (s.warnOn w).busy = s.busy ∧ (s.warnOn w).last = s.last

/-- R275, R156: every Execute ends, in exactly one of three outcomes, and clears BUSY. That CORE moves when nothing of
the host's is pending is the model's choice (log 5). -/
def Obligations.EveryCommandEnds : Prop :=
  ∀ s : State, s.busy = true → s.agenda = [] →
    ∃ t, step s = .next t ∧ t.busy = false ∧ SameHostSide s t
      ∧ ((s.halt = true ∧ t.last = .refused ∧ t.halt = true)
        ∨ (s.halt = false ∧ t.last = .completed ∧ t.halt = false)
        ∨ (s.halt = false ∧ t.last = .fatal ∧ t.halt = true))

/-! ## Binding and demultiplexing a stream -/

/-- R120: STREAM_LOAD. -/
def Obligations.StreamLoadResult : Prop :=
  decodeCommand 0x00000002 = .streamLoad
  ∧ ∀ s : State, s.halt = false →
    (s.lat.a0 = 0 → ∃ t u, exec .streamLoad s = .next t ∧ exec .demuxNext t = .next u ∧ InputOver t u)
    ∧ (s.lat.a0.toNat ≤ s.cfg.inBytes → ∃ t, exec .streamLoad s = .next t ∧ Completed t
      ∧ t.inLen = s.lat.a0 ∧ t.iptr = 0 ∧ t.dmode = .unset ∧ t.trkOpen = false ∧ t.trkRem = 0 ∧ t.rs = 0
      ∧ t.msgLen = 0 ∧ t.msgPos = 0 ∧ Results t s.lat.a0 0
      ∧ SameHostSide s t ∧ SameErrors s t ∧ SameWarnings s t ∧ SameImage s t ∧ SameSinks s t ∧ SameSpaces s t)
    ∧ (s.cfg.inBytes < s.lat.a0.toNat → ∃ t, exec .streamLoad s = .next t ∧ EndsFatal s t .command s.cw)

/-- R121: after ENDED every DEMUX_NEXT returns none and writes nothing else. -/
def Obligations.DemuxAfterEnd : Prop :=
  ∀ s : State, s.halt = false → s.dmode = .ended →
    ∃ t, exec .demuxNext s = .next t ∧ Completed t ∧ NoMessage t ∧ SameStream s t ∧ SameHostSide s t ∧ SameErrors s t
      ∧ SameWarnings s t ∧ SameImage s t ∧ SameSinks s t ∧ SameSpaces s t

/-- R84, R121, R122, R124: the first DEMUX_NEXT of a stream selects the mode by the first four bytes; an SMF's header
chunk is skipped whole, and a header that does not fit ends the input with W_TRKHDR. -/
def Obligations.DemuxSelectsMode : Prop :=
  ∀ s : State, s.halt = false → s.dmode = .unset →
    let smf := 4 ≤ s.inLen.toNat ∧ s.readBytes .sniff .input 0 4 = [0x4D, 0x54, 0x68, 0x64]
    let len := be32 (s.readBytes .header .input 4 4)
    (¬ smf → ContinuesAs s { s with dmode := .raw })
    ∧ (smf → 8 ≤ s.inLen.toNat → len ≤ s.inLen.toNat - 8 →
        ContinuesAs s { s with dmode := .smf, iptr := wordOf (8 + len) })
    ∧ (smf → (s.inLen.toNat < 8 ∨ s.inLen.toNat - 8 < len) →
        ∃ t, exec .demuxNext s = .next t ∧ Warned s t .trkHdr ∧ InputOver s t ∧ t.iptr = s.iptr ∧ t.rs = s.rs
          ∧ t.trkOpen = s.trkOpen ∧ t.trkRem = s.trkRem)

/-- R123: one DEMUX_NEXT in raw mode. -/
def Obligations.DemuxRawMessage : Prop :=
  ∀ s : State, s.Inv → s.halt = false → s.dmode = .raw →
    ((∀ k, s.iptr.toNat ≤ k → k < s.inLen.toNat → s.readByte .rawScan .input k ≠ 0xF0) →
      ∃ t, exec .demuxNext s = .next t ∧ InputOver s t ∧ t.iptr = s.inLen ∧ SameWarnings s t ∧ t.rs = s.rs
        ∧ t.trkOpen = s.trkOpen ∧ t.trkRem = s.trkRem)
    ∧ ∀ j n terminated, s.iptr.toNat ≤ j → j < s.inLen.toNat → s.readByte .rawScan .input j = 0xF0 →
      (∀ k, s.iptr.toNat ≤ k → k < j → s.readByte .rawScan .input k ≠ 0xF0) → RawBody s j n terminated →
      (s.cfg.msgBytes < n → ∃ t, exec .demuxNext s = .next t ∧ EndsFatal s t .capacity 1)
      ∧ (n ≤ s.cfg.msgBytes → ∃ t, exec .demuxNext s = .next t ∧ RawDelivered s t j n terminated)

/-- R123: a raw message whose start marker stands at the cursor, alone. That exec of this row means so is the model's
choice (log 11). -/
def Obligations.RawSysexResult : Prop :=
  ∀ s : State, s.Inv → s.halt = false → s.dmode = .raw → s.iptr.toNat < s.inLen.toNat →
    ∀ n terminated, RawBody s s.iptr.toNat n terminated →
      (s.cfg.msgBytes < n → ∃ t, exec .rawSysex s = .next t ∧ EndsFatal s t .capacity 1)
      ∧ (n ≤ s.cfg.msgBytes → ∃ t, exec .rawSysex s = .next t ∧ RawDelivered s t s.iptr.toNat n terminated)

/-- R131, R136, R137: what one DEMUX_NEXT does in SMF mode where no event is read: a track closed, the end of the file,
a track opened, a bad track header. -/
def Obligations.DemuxTrackBoundary : Prop :=
  ∀ s : State, s.halt = false → s.dmode = .smf →
    (s.trkOpen = true → s.trkRem = 0 → ContinuesAs s { s with trkOpen := false })
    ∧ (s.iptr = s.inLen → (s.trkOpen = true → s.trkRem ≠ 0) →
        ∃ t, exec .demuxNext s = .next t ∧ InputOver s t ∧ SameWarnings s t ∧ t.iptr = s.iptr ∧ t.rs = s.rs
          ∧ t.trkOpen = s.trkOpen ∧ t.trkRem = s.trkRem)
    ∧ (s.trkOpen = false → s.iptr ≠ s.inLen → 8 ≤ s.left →
        s.readBytes .trackTag .input s.iptr.toNat 4 = [0x4D, 0x54, 0x72, 0x6B] →
        ContinuesAs s { s with
          trkRem := wordOf (be32 (s.readBytes .trackLen .input (s.iptr.toNat + 4) 4))
          iptr := wordOf (s.iptr.toNat + 8), trkOpen := true, rs := 0 })
    ∧ (s.trkOpen = false → s.iptr ≠ s.inLen →
        (s.left < 8 ∨ s.readBytes .trackTag .input s.iptr.toNat 4 ≠ [0x4D, 0x54, 0x72, 0x6B]) →
        ∃ t, exec .demuxNext s = .next t ∧ Warned s t .trkHdr ∧ InputOver s t ∧ t.iptr = s.iptr ∧ t.rs = s.rs
          ∧ t.trkOpen = s.trkOpen ∧ t.trkRem = s.trkRem)

/-- R130: inside a track one DEMUX_NEXT reads the delta time and runs the event its next byte begins; where the event
delivers no message it goes on from the state the event leaves. That exec of an event row alone is that event inside
the command is the model's choice (log 11). -/
def Obligations.DemuxRunsEvents : Prop :=
  ∀ s : State, s.Inv → s.halt = false → s.busy = true → s.dmode = .smf → s.trkOpen = true → s.trkRem ≠ 0 →
    s.iptr ≠ s.inLen →
    (∀ n t, s.readVlq = .ok n t → 1 ≤ t.left →
      ∃ u, exec (decodeStatus (t.readByte .next .input t.iptr.toNat)) t = .next u
        ∧ (u.busy = true → ContinuesAs s u)
        ∧ (u.busy = false → u.halt = false → exec .demuxNext s = .next u)
        ∧ (u.busy = false → u.halt = true → exec .demuxNext s = .next (s.takeFatal ⟨u.err, u.errInfo⟩)))
    ∧ (∀ n t, s.readVlq = .ok n t → t.left = 0 →
      ∃ u, exec .demuxNext s = .next u ∧ Signalled s u .trunc s.left s.rs)
    ∧ (∀ t, s.readVlq = .trunc t → ∃ u, exec .demuxNext s = .next u ∧ Signalled s u .trunc s.left s.rs)
    ∧ (∀ t, s.readVlq = .malformed t → ∃ u, exec .demuxNext s = .next u ∧ Signalled s u .malformed 4 s.rs)

/-- R140 to R146: a channel event skips its data bytes, fresh or under running status. That exec of this row
alone means so is the model's choice (log 11). -/
def Obligations.ChannelEvents : Prop :=
  ∀ (i : Instr) (m : Nat) (b : Byte) (data : BitVec 7) (s : State), channelData i = some m → encode i = .bytes [b] →
    s.halt = false → s.iptr.toNat < s.inLen.toNat →
    (1 + m ≤ s.left → ∃ t, exec i s = .next t ∧ Passed s t (1 + m) b)
    ∧ (s.left < 1 + m → ∃ t, exec i s = .next t ∧ Signalled s t .trunc s.left b)
    ∧ (s.rs = b → m ≤ s.left → ∃ t, exec (.smfRunningData data) s = .next t ∧ Passed s t m b)
    ∧ (s.rs = b → s.left < m → ∃ t, exec (.smfRunningData data) s = .next t ∧ Signalled s t .trunc s.left b)

/-- R149 to R154: a system event of fixed length skips its data bytes, and RS takes its status byte. That exec of this
row alone means so is the model's choice (log 11). -/
def Obligations.SystemEvents : Prop :=
  ∀ (i : Instr) (m : Nat) (b : Byte) (s : State), WellFormed i → systemData i = some m →
    encode i = .bytes [b] →
    s.halt = false → s.iptr.toNat < s.inLen.toNat →
    (1 + m ≤ s.left → ∃ t, exec i s = .next t ∧ Passed s t (1 + m) b)
    ∧ (s.left < 1 + m → ∃ t, exec i s = .next t ∧ Signalled s t .trunc s.left b)

/-- R135: a data byte where RS gives no class is MALFORMED, and the input ends. That exec of this row
alone means so is the model's choice (log 11). -/
def Obligations.RunningStatusUnusable : Prop :=
  ∀ (data : BitVec 7) (s : State), s.halt = false → s.iptr.toNat < s.inLen.toNat →
    (s.rs.toNat < 0x80 ∨ 0xF0 ≤ s.rs.toNat) →
    ∃ t, exec (.smfRunningData data) s = .next t ∧ Signalled s t .malformed 1 s.rs

/-- R132: a META event skips a type byte, a VLQ and as many bytes as it says; RS is not written. That exec of this row
alone means so is the model's choice (log 11). -/
def Obligations.MetaEvent : Prop :=
  ∀ s : State, s.halt = false → s.iptr.toNat < s.inLen.toNat →
    (s.left < 2 → ∃ t, exec .smfMeta s = .next t ∧ Signalled s t .trunc s.left s.rs)
    ∧ (2 ≤ s.left →
      (∀ n u, (s.consume 2).readVlq = .ok n u →
        (n ≤ u.left → ∃ t, exec .smfMeta s = .next t ∧ Passed s t (u.iptr.toNat - s.iptr.toNat + n) s.rs)
        ∧ (u.left < n → ∃ t, exec .smfMeta s = .next t ∧ Signalled s t .trunc s.left s.rs))
      ∧ (∀ u, (s.consume 2).readVlq = .trunc u →
        ∃ t, exec .smfMeta s = .next t ∧ Signalled s t .trunc s.left s.rs)
      ∧ ∀ u, (s.consume 2).readVlq = .malformed u →
        ∃ t, exec .smfMeta s = .next t ∧ Signalled s t .malformed 6 s.rs)

/-- R147, R148, R125, R138: a SysEx event delivers its payload; too long a one is a CapacityError, one cut off by the
end of IN is delivered in part. That exec of this row alone means so is the model's choice (log 11). -/
def Obligations.SysexEvents : Prop :=
  ∀ (i : Instr) (b : Byte) (s : State), (i = .smfSysexStart ∧ b = 0xF0 ∨ i = .smfSysexEscape ∧ b = 0xF7) →
    s.Inv → s.halt = false → s.dmode = .smf → s.iptr.toNat < s.inLen.toNat →
    (∀ n u, (s.consume 1).readVlq = .ok n u →
      (s.cfg.msgBytes < n → ∃ t, exec i s = .next t ∧ EndsFatal s t .capacity 1)
      ∧ (n ≤ s.cfg.msgBytes → n ≤ u.left → ∃ t, exec i s = .next t ∧ Delivered s t .next u.iptr.toNat n
        ∧ Consumed s t (u.iptr.toNat - s.iptr.toNat + n) ∧ t.rs = b ∧ t.trkOpen = s.trkOpen ∧ t.dmode = .smf
        ∧ if n ≠ 0 ∧ t.cell .msg (n - 1) = some 0xF7 then SameWarnings s t else Warned s t .unterm)
      ∧ (n ≤ s.cfg.msgBytes → u.left < n → ∃ t, exec i s = .next t ∧ Delivered s t .next u.iptr.toNat u.left
        ∧ Consumed s t s.left ∧ t.rs = b ∧ t.trkOpen = s.trkOpen ∧ t.dmode = .ended
        ∧ Warned (s.warnOn .trunc) t .unterm))
    ∧ (∀ u, (s.consume 1).readVlq = .trunc u → ∃ t, exec i s = .next t ∧ Signalled s t .trunc s.left b)
    ∧ ∀ u, (s.consume 1).readVlq = .malformed u → ∃ t, exec i s = .next t ∧ Signalled s t .malformed 5 b

/-- R124: the MThd chunk is skipped whole; one that does not fit ends the input with W_TRKHDR. That exec of this row
alone means so is the model's choice (log 11). -/
def Obligations.HeaderChunk : Prop :=
  ∀ s : State, s.halt = false →
    let len := be32 (s.readBytes .header .input 4 4)
    (8 ≤ s.inLen.toNat → len ≤ s.inLen.toNat - 8 →
      ∃ t, exec .chunkMthd s = .next t ∧ t.iptr.toNat = 8 + len ∧ t.trkRem = s.trkRem ∧ t.rs = s.rs
        ∧ t.inLen = s.inLen ∧ t.dmode = s.dmode ∧ t.trkOpen = s.trkOpen ∧ t.busy = s.busy ∧ t.last = s.last
        ∧ SameHostSide s t ∧ SameErrors s t ∧ SameWarnings s t ∧ SameResults s t ∧ SameMessage s t ∧ SameImage s t
        ∧ SameSinks s t ∧ SameSpaces s t)
    ∧ ((s.inLen.toNat < 8 ∨ s.inLen.toNat - 8 < len) →
      ∃ t, exec .chunkMthd s = .next t ∧ Signalled s t .trkHdr 0 s.rs)

/-- R131: an MTrk header opens a track with its declared length, unchecked; RS is cleared. That exec of this row alone
means so is the model's choice (log 11). -/
def Obligations.TrackChunk : Prop :=
  ∀ s : State, s.halt = false →
    (8 ≤ s.left →
      ∃ t, exec .chunkMtrk s = .next t ∧ t.iptr.toNat = s.iptr.toNat + 8
        ∧ t.trkRem.toNat = be32 (s.readBytes .trackLen .input (s.iptr.toNat + 4) 4) ∧ t.trkOpen = true ∧ t.rs = 0
        ∧ t.inLen = s.inLen ∧ t.dmode = s.dmode ∧ t.busy = s.busy ∧ t.last = s.last
        ∧ SameHostSide s t ∧ SameErrors s t ∧ SameWarnings s t ∧ SameResults s t ∧ SameMessage s t ∧ SameImage s t
        ∧ SameSinks s t ∧ SameSpaces s t)
    ∧ (s.iptr.toNat < s.inLen.toNat → s.left < 8 →
      ∃ t, exec .chunkMtrk s = .next t ∧ Signalled s t .trkHdr 0 s.rs)

/-- R126, R139: a VLQ in delta position is consumed and its value discarded. That exec of this row
alone means so is the model's choice (log 11). -/
def Obligations.VlqElement : Prop :=
  ∀ (groups : List (BitVec 7)) (s : State), s.halt = false →
    (groups.length ≤ 4 → groups.length ≤ s.left →
      ∃ t, exec (.vlq groups) s = .next t ∧ Passed s t groups.length s.rs)
    ∧ (4 < groups.length → 4 ≤ s.left → ∃ t, exec (.vlq groups) s = .next t ∧ Signalled s t .malformed 4 s.rs)
    ∧ (s.left < min 4 groups.length → s.iptr.toNat ≤ s.inLen.toNat →
      ∃ t, exec (.vlq groups) s = .next t ∧ Signalled s t .trunc s.left s.rs)

/-- R33, R30: IPTR moves only forward and never passes IN_LEN, which stays as it is; STREAM_LOAD and reset write
both. -/
def Obligations.CursorMovesForward : Prop :=
  ∀ s t : State, s.Inv → step s = .next t →
    t.iptr.toNat ≤ t.inLen.toNat
    ∧ (s.iptr.toNat ≤ t.iptr.toNat ∧ t.inLen = s.inLen
      ∨ t.iptr = 0 ∧ (Executes s .streamLoad ∨ s.agenda.head? = some (.host .reset)))

/-! ## The device memory image -/

/-- R170: IMG_INIT. -/
def Obligations.ImageInit : Prop :=
  decodeCommand 0x00000001 = .imgInit
  ∧ ∀ s : State, s.halt = false →
    ∃ t, exec .imgInit s = .next t ∧ Completed t ∧ (∀ a, t.cell .dmem a = some s.cfg.sentinel) ∧ t.dialect = none
      ∧ t.snapCount = 0 ∧ Results t 0 0 ∧ SameHostSide s t ∧ SameErrors s t ∧ SameWarnings s t ∧ SameStream s t
      ∧ SameMessage s t ∧ SameSinks s t ∧ SameSpacesBut .dmem s t

/-- R173: a body that is no Data Set frame, and only such a one, is dropped as foreign. -/
def Obligations.ForeignBodyDropped : Prop :=
  ∀ (s : State) (m : List Byte), s.halt = false → Holds s m →
    ((¬ ∃ d dev digits payload cs, IsFrame d dev digits payload cs m) →
      ∃ t, exec .ingest s = .next t ∧ Dropped s t .foreign 1)
    ∧ ((∃ d dev digits payload cs, IsFrame d dev digits payload cs m) →
      ∃ t, exec .ingest s = .next t ∧ (t.halt = true ∨ t.res0 ≠ 1))

/-- R174: a frame of either dialect whose address digits, payload and checksum do not sum to 0 mod 128 is a
ChecksumError with the address. That exec of a frame's own row ingests the body is the model's choice (log 11). -/
def Obligations.ChecksumIsFatal : Prop :=
  ∀ (d : Dialect) (dev cs : Byte) (digits payload m : List Byte) (i : Instr) (s : State),
    i ∈ ingesters d dev → s.halt = false → Holds s m → IsFrame d dev digits payload cs m →
    sumBytes (digits ++ payload ++ [cs]) % 128 ≠ 0 →
    ∃ t, exec i s = .next t ∧ EndsFatal s t .checksum (wordOf (addressOf 0 digits))

/-- R175, R176, R182: a frame of the other dialect, and one past the capacity, are dropped with a warning; memory is
unchanged. That exec of a frame's own row ingests the body is the model's choice (log 11). -/
def Obligations.DroppedFrames : Prop :=
  ∀ (d : Dialect) (dev cs : Byte) (digits payload m : List Byte) (i : Instr) (s : State),
    i ∈ ingesters d dev → s.halt = false → Holds s m → IsFrame d dev digits payload cs m →
    sumBytes (digits ++ payload ++ [cs]) % 128 = 0 →
    (s.dialect ≠ none → s.dialect ≠ some d → ∃ t, exec i s = .next t ∧ Dropped s t .dialect 2)
    ∧ ((s.dialect = none ∨ s.dialect = some d) →
      Config.cap s.cfg d < addressOf 0 digits + payload.length →
      ∃ t, exec i s = .next t ∧ Dropped s t .bounds 3)

/-- R172, R176, R177: a valid frame inside the capacity is written to DMEM and latches its dialect; at the trigger
address it also appends a snapshot taken after the write, or raises CapacityError(2) where SNAP is full. That exec of a
frame's own row ingests the body is the model's choice (log 11). -/
def Obligations.FrameIngested : Prop :=
  ∀ (d : Dialect) (dev cs : Byte) (digits payload m : List Byte) (i : Instr) (s : State),
    i ∈ ingesters d dev → s.Inv → s.halt = false → Holds s m → IsFrame d dev digits payload cs m →
    sumBytes (digits ++ payload ++ [cs]) % 128 = 0 → (s.dialect = none ∨ s.dialect = some d) →
    addressOf 0 digits + payload.length ≤ Config.cap s.cfg d →
    (addressOf 0 digits ≠ Config.trig s.cfg d →
      ∃ t, exec i s = .next t ∧ FrameWritten s t d (addressOf 0 digits) payload ∧ Results t 0 0
        ∧ t.snapCount = s.snapCount ∧ SameSpace .snap s t)
    ∧ (addressOf 0 digits = Config.trig s.cfg d → s.snapCount.toNat < s.cfg.snapMax →
      ∃ t, exec i s = .next t ∧ FrameWritten s t d (addressOf 0 digits) payload ∧ Results t 0 1
        ∧ t.snapCount.toNat = s.snapCount.toNat + 1
        ∧ ∀ a, t.cell .snap a =
          if s.snapCount.toNat * s.cfg.snapEntry ≤ a
              ∧ a < s.snapCount.toNat * s.cfg.snapEntry + Config.tmpLen s.cfg d then
            t.cell .dmem (Config.tmpBase s.cfg d + (a - s.snapCount.toNat * s.cfg.snapEntry))
          else s.cell .snap a)
    ∧ (addressOf 0 digits = Config.trig s.cfg d → s.snapCount.toNat = s.cfg.snapMax →
      ∃ t, exec i s = .next t ∧ EndsFatal s t .capacity 2)

/-- R180: READ_REGION asks about the first byte of a region. -/
def Obligations.ReadRegionResult : Prop :=
  decodeCommand 0x00000005 = .readRegion
  ∧ ∀ s : State, s.halt = false →
    let limit := match s.dialect with
      | none => s.cfg.memBytes
      | some d => Config.cap s.cfg d
    (s.lat.a1 = 0 → ∃ t, exec .readRegion s = .next t ∧ EndsFatal s t .command s.cw)
    ∧ (s.lat.a1 ≠ 0 → ∃ t, exec .readRegion s = .next t ∧ Completed t
      ∧ Results t (if limit < s.lat.a0.toNat + s.lat.a1.toNat then 2
          else if s.cell .dmem s.lat.a0.toNat = some s.cfg.sentinel then 0 else 1) 0
      ∧ SameHostSide s t ∧ SameErrors s t ∧ SameWarnings s t ∧ SameStream s t ∧ SameMessage s t ∧ SameImage s t
      ∧ SameSinks s t ∧ SameSpaces s t)

/-- R181: a second identical INGEST leaves DMEM and DIALECT unchanged; at the trigger address it appends a second
snapshot. -/
def Obligations.IngestTwice : Prop :=
  ∀ s t u : State, s.Inv → s.halt = false → exec .ingest s = .next t → t.halt = false → t.res0 = 0 →
    exec .ingest t = .next u →
    (SameSpace .dmem t u ∧ u.dialect = t.dialect)
    ∧ (u.halt = false → Results u 0 t.res1 ∧ u.snapCount.toNat = t.snapCount.toNat + t.res1.toNat)
    ∧ (u.halt = true → EndsFatal t u .capacity 2 ∧ t.res1 = 1 ∧ t.snapCount.toNat = t.cfg.snapMax)

/-- R60, R35, R37: each space and DIALECT are written by the commands the memory map names and by no other
instruction; an element counts with the command it is part of. -/
def Obligations.WritersOfSpaces : Prop :=
  ∀ (i : Instr) (s t : State), exec i s = .next t →
    SameSpace .input s t
    ∧ (i ≠ .demuxNext → i ≠ .rawSysex → i ≠ .smfSysexStart → i ≠ .smfSysexEscape → SameSpace .msg s t)
    ∧ ((∀ d dev, i ∉ ingesters d dev) → SameSpace .snap s t
      ∧ (i ≠ .imgInit → SameSpace .dmem s t ∧ SameImage s t))
    ∧ (i ≠ .emit → (∀ d dev addr payload, i ≠ .dt1Emit d dev addr payload) → SameSpace .out s t
      ∧ (i ≠ .outClear → t.outLen = s.outLen))
    ∧ (i ≠ .inflate → SameSpace .xbuf s t ∧ t.xlen = s.xlen)

/-! ## Emission, CRC and decompression -/

/-- R200, R205, R208: EMIT. -/
def Obligations.EmitResult : Prop :=
  decodeCommand 0x00000006 = .emit
  ∧ ∀ s : State, s.Inv → s.halt = false →
    let len := s.lat.a4.toNat
    let badOperand := (s.lat.a0 ≠ 0x3D ∧ s.lat.a0 ≠ 0x57) ∨ 2 < s.lat.a2.toNat ∨ 0x7F < s.lat.a5.toNat
    (badOperand → ∃ t, exec .emit s = .next t ∧ EndsFatal s t .command s.cw)
    ∧ ∀ (d : Dialect) (sp : Space), ¬ badOperand → s.lat.a0 = d.byte.setWidth 32 →
      [Space.input, .xbuf, .dmem][s.lat.a2.toNat]? = some sp →
      let count := (len + 255) / 256
      let total := len + count * (d.digits + 7)
      let badRange := Config.size s.cfg sp < s.lat.a3.toNat + len ∨ 128 ^ d.digits < s.lat.a1.toNat + len
      (badRange → ∃ t, exec .emit s = .next t ∧ EndsFatal s t .command s.cw)
      ∧ (¬ badRange → s.cfg.outBytes < s.outLen.toNat + total →
        ∃ t, exec .emit s = .next t ∧ EndsFatal s t .capacity 3)
      ∧ (¬ badRange → s.outLen.toNat + total ≤ s.cfg.outBytes →
        let bytes := emittedBytes d (s.lat.a5.setWidth 7) s.lat.a1.toNat
          (s.readBytes .source sp s.lat.a3.toNat len)
        bytes.length = total
        ∧ ∃ t, exec .emit s = .next t ∧ Completed t ∧ t.res0.toNat = count ∧ t.res1.toNat = total
          ∧ t.outLen.toNat = s.outLen.toNat + total
          ∧ (∀ a, t.cell .out a = if s.outLen.toNat ≤ a ∧ a < s.outLen.toNat + total
              then bytes[a - s.outLen.toNat]? else s.cell .out a)
          ∧ SameSpacesBut .out s t ∧ t.xlen = s.xlen ∧ SameHostSide s t ∧ SameErrors s t ∧ SameWarnings s t
          ∧ SameStream s t ∧ SameMessage s t ∧ SameImage s t)

/-- R202, R205: one emitted frame, alone. That exec of this row
alone means so is the model's choice (log 11). -/
def Obligations.EmittedFrame : Prop :=
  ∀ (d : Dialect) (dev : BitVec 7) (addr : Nat) (payload : List Byte) (s : State), s.Inv → s.halt = false →
    let total := payload.length + d.digits + 7
    (s.cfg.outBytes < s.outLen.toNat + total →
      ∃ t, exec (.dt1Emit d dev addr payload) s = .next t ∧ EndsFatal s t .capacity 3)
    ∧ (s.outLen.toNat + total ≤ s.cfg.outBytes →
      ∃ t, exec (.dt1Emit d dev addr payload) s = .next t ∧ t.busy = s.busy ∧ t.last = s.last
        ∧ t.outLen.toNat = s.outLen.toNat + total
        ∧ (∀ a, t.cell .out a = if s.outLen.toNat ≤ a ∧ a < s.outLen.toNat + total
            then (frameBytes d dev addr payload)[a - s.outLen.toNat]? else s.cell .out a)
        ∧ SameSpacesBut .out s t ∧ t.xlen = s.xlen ∧ SameHostSide s t ∧ SameErrors s t ∧ SameWarnings s t
        ∧ SameResults s t ∧ SameStream s t ∧ SameMessage s t ∧ SameImage s t)

/-- R206: OUT_CLEAR empties the sink and erases no byte. -/
def Obligations.OutClearResult : Prop :=
  decodeCommand 0x00000007 = .outClear
  ∧ ∀ s : State, s.halt = false →
    ∃ t, exec .outClear s = .next t ∧ Completed t ∧ t.outLen = 0 ∧ t.xlen = s.xlen ∧ Results t 0 0
      ∧ SameHostSide s t ∧ SameErrors s t ∧ SameWarnings s t ∧ SameStream s t ∧ SameMessage s t ∧ SameImage s t
      ∧ SameSpaces s t

/-- R207: the bytes EMIT builds for a payload of 7-bit bytes, bound as a stream and drained into an image, give the
payload back at its address, without a warning. -/
def Obligations.EmitRoundTrip : Prop :=
  ∀ (d : Dialect) (dev : BitVec 7) (addr : Nat) (payload : List Byte) (s : State),
    s.Inv → s.halt = false → s.dmode = .unset →
    (∀ b ∈ payload, b.toNat < 0x80) → addr + payload.length ≤ Config.cap s.cfg d →
    (s.dialect = none ∨ s.dialect = some d) →
    ((∃ k, 256 * k < payload.length ∧ addr + 256 * k = Config.trig s.cfg d) → s.snapCount.toNat < s.cfg.snapMax) →
    s.inLen.toNat = (emittedBytes d dev addr payload).length →
    (∀ a, a < s.inLen.toNat → s.cell .input a = (emittedBytes d dev addr payload)[a]?) →
    ∃ t, Drains s t ∧ t.halt = false ∧ SameWarnings s t
      ∧ ∀ a, t.cell .dmem a
        = if addr ≤ a ∧ a < addr + payload.length then payload[a - addr]? else s.cell .dmem a

/-- R220, R222, R223: CRC32 in its three modes. -/
def Obligations.Crc32Result : Prop :=
  decodeCommand 0x00000008 = .crc32
  ∧ ∀ s : State, s.halt = false →
    let len := s.lat.a2.toNat
    let badOperand := 2 < s.lat.a0.toNat ∨ 2 < s.lat.a4.toNat
    (badOperand → ∃ t, exec .crc32 s = .next t ∧ EndsFatal s t .command s.cw)
    ∧ ∀ sp : Space, ¬ badOperand → [Space.input, .xbuf, .dmem][s.lat.a0.toNat]? = some sp →
      let value := crcOf (s.readBytes .source sp s.lat.a1.toNat len)
      (Config.size s.cfg sp < s.lat.a1.toNat + len →
        ∃ t, exec .crc32 s = .next t ∧ EndsFatal s t .command s.cw)
      ∧ (s.lat.a1.toNat + len ≤ Config.size s.cfg sp →
        (s.lat.a4 = 1 → value ≠ s.lat.a3 → ∃ t, exec .crc32 s = .next t ∧ EndsFatal s t .containerCrc value)
        ∧ ((s.lat.a4 = 1 → value = s.lat.a3) → ∃ t, exec .crc32 s = .next t ∧ Completed t
          ∧ Results t value (if value = s.lat.a3 then 1 else 0)
          ∧ (if s.lat.a4 = 2 ∧ value ≠ s.lat.a3 then Warned s t .integrity else SameWarnings s t)
          ∧ SameHostSide s t ∧ SameErrors s t ∧ SameStream s t ∧ SameMessage s t ∧ SameImage s t ∧ SameSinks s t
          ∧ SameSpaces s t))

/-- The check value of CRC-32/ISO-HDLC (95_test_vectors.md section 3.8), and the CRC of no bytes (R220). -/
def Obligations.CrcCheckValue : Prop :=
  crcOf [0x31, 0x32, 0x33, 0x34, 0x35, 0x36, 0x37, 0x38, 0x39] = 0xCBF43926 ∧ crcOf [] = 0x00000000

/-- R225, R227: INFLATE, whatever the codec answers. -/
def Obligations.InflateResult : Prop :=
  decodeCommand 0x00000009 = .inflate
  ∧ ∀ s : State, s.Inv → s.halt = false →
    let ulen := s.lat.a2.toNat
    (s.cfg.inBytes < s.lat.a0.toNat + s.lat.a1.toNat →
      ∃ t, exec .inflate s = .next t ∧ EndsFatal s t .command s.cw)
    ∧ (s.lat.a0.toNat + s.lat.a1.toNat ≤ s.cfg.inBytes → s.cfg.xbufBytes < ulen →
      ∃ t, exec .inflate s = .next t ∧ EndsFatal s t .capacity 4)
    ∧ (s.lat.a0.toNat + s.lat.a1.toNat ≤ s.cfg.inBytes → ulen ≤ s.cfg.xbufBytes →
      ∃ t, exec .inflate s = .next t ∧
        match Config.inflate s.cfg.inflateFormat (s.readBytes .source .input s.lat.a0.toNat s.lat.a1.toNat) with
        | none => EndsFatal s t .format 1
        | some r =>
          if r.length ≠ ulen then EndsFatal s t .format 2
          else Completed t ∧ t.xlen = s.lat.a2 ∧ Results t s.lat.a2 0
            ∧ (∀ a, t.cell .xbuf a = if a < ulen then r[a]? else s.cell .xbuf a)
            ∧ SameSpacesBut .xbuf s t ∧ t.outLen = s.outLen ∧ SameHostSide s t ∧ SameErrors s t ∧ SameWarnings s t
            ∧ SameStream s t ∧ SameMessage s t ∧ SameImage s t)

/-! ## The host, reset, and a step -/

/-- R21, R24, R25: a write to CMD issues while BUSY = 0 and only sets OVR while BUSY = 1; a write to an operand register
changes no latch. -/
def Obligations.IssueAndOperands : Prop :=
  ∀ (s : State) (v : Word),
    (s.busy = false → ∃ t, hostAct (.regWrite 0x00 4 v) s = .next t ∧ t.cw = v ∧ t.busy = true ∧ t.lat = s.arg
      ∧ t.arg = s.arg ∧ t.last = s.last ∧ SameErrors s t ∧ SameBlock s t)
    ∧ (s.busy = true → ∃ t, hostAct (.regWrite 0x00 4 v) s = .next t ∧ t.ovr = true ∧ t.cw = s.cw ∧ t.busy = true
      ∧ t.lat = s.lat ∧ t.arg = s.arg ∧ t.last = s.last ∧ t.err = s.err ∧ t.errInfo = s.errInfo ∧ t.halt = s.halt
      ∧ SameBlock s t)
    ∧ ∀ k : Slot, ∃ t, hostAct (.regWrite k.reg.offset 4 v) s = .next t ∧ t.arg.get k = v
      ∧ (∀ k', k' ≠ k → t.arg.get k' = s.arg.get k') ∧ t.lat = s.lat ∧ t.cw = s.cw ∧ t.busy = s.busy
      ∧ t.last = s.last ∧ SameErrors s t ∧ SameBlock s t

/-- R22, R23, R42: what host reads of registers return: STATUS at any time; the others while BUSY = 0; an offset not
listed 0. R67: every read, at any time, leaves the block as it was. Writes to a register without W, or to an offset not
listed, are ignored. -/
def Obligations.RegisterAccesses : Prop :=
  ∀ s : State,
    (∀ offset : Nat, offset % 4 = 0 → ∃ t, hostAct (.regRead offset 4) s = .next t ∧ ReadOnly s t)
    ∧ (∃ t, hostAct (.regRead 0x04 4) s = .next t ∧ ReadOnly s t
      ∧ ∀ k, t.busData.getLsbD k
        = ((decide (k = 0) && s.busy) || (decide (k = 1) && s.halt) || (decide (k = 2) && s.ovr)
          || (decide (k = 8) && decide (s.last = .fatal)) || (decide (k = 9) && decide (s.last = .refused))))
    ∧ (s.busy = false → ∃ t, hostAct (.regRead 0x40 4) s = .next t ∧ ReadOnly s t
      ∧ ∀ k, t.busData.getLsbD k
        = ((decide (k = 0) && decide (s.dmode = .raw ∨ s.dmode = .ended))
          || (decide (k = 1) && decide (s.dmode = .smf ∨ s.dmode = .ended)) || (decide (k = 2) && s.trkOpen)
          || (decide (8 ≤ k) && s.rs.getLsbD (k - 8))))
    ∧ (s.busy = false → ∀ (offset : Nat) (v : Word),
      (offset, v) ∈ [(0x00, s.cw), (0x08, s.err.code), (0x0C, s.errInfo), (0x10, s.warn), (0x14, s.wcnt),
        (0x18, s.arg.a0), (0x1C, s.arg.a1), (0x20, s.arg.a2), (0x24, s.arg.a3), (0x28, s.arg.a4), (0x2C, s.arg.a5),
        (0x30, s.res0), (0x34, s.res1), (0x38, s.inLen), (0x3C, s.iptr), (0x44, s.trkRem), (0x48, s.msgLen),
        (0x4C, s.msgPos), (0x50, dialectCode s.dialect), (0x54, s.snapCount), (0x58, s.outLen), (0x5C, s.xlen)] →
      ∃ t, hostAct (.regRead offset 4) s = .next t ∧ ReadOnly s t ∧ t.busData = v)
    ∧ (∀ offset : Nat, offset % 4 = 0 → 0x5C < offset →
      ∃ t, hostAct (.regRead offset 4) s = .next t ∧ ReadOnly s t ∧ t.busData = 0)
    ∧ ∀ (offset : Nat) (v : Word), offset % 4 = 0 → (0x00 < offset ∧ offset < 0x18 ∨ 0x2C < offset) →
      hostAct (.regWrite offset 4 v) s = .next s

/-- R60, R66, R67, R70: a host write inside IN's window while BUSY = 0 stores the byte and nothing else; a host read
inside any window, at any time, leaves the block as it was, and while BUSY = 0 returns the byte; the accesses the spec
does not admit are refused by name. The refusals are the model's own choice (log 7). -/
def Obligations.HostMemoryAccesses : Prop :=
  ∀ (s : State) (sp : Space) (a : Nat) (v : Byte),
    (s.Inv → s.busy = false → a < s.cfg.inBytes →
      ∃ t, hostAct (.memWrite .input a v) s = .next t
        ∧ (∀ c, t.cell .input c = if c = a then some v else s.cell .input c) ∧ SameSpacesBut .input s t
        ∧ t.busy = s.busy ∧ t.last = s.last ∧ SameHostSide s t ∧ SameErrors s t ∧ SameWarnings s t ∧ SameResults s t
        ∧ SameStream s t ∧ SameMessage s t ∧ SameImage s t ∧ SameSinks s t)
    ∧ (s.busy = true → a < s.cfg.inBytes → hostAct (.memWrite .input a v) s = .refused .writeWhileBusy)
    ∧ (sp ≠ .input → a < Config.size s.cfg sp → hostAct (.memWrite sp a v) s = .refused .readOnlySpace)
    ∧ (Config.size s.cfg sp ≤ a → hostAct (.memWrite sp a v) s = .refused .outsideWindow
      ∧ hostAct (.memRead sp a) s = .refused .outsideWindow)
    ∧ (a < Config.size s.cfg sp → ∃ t, hostAct (.memRead sp a) s = .next t ∧ ReadOnly s t
      ∧ (s.busy = false → ∀ b, s.cell sp a = some b → t.busData = b.setWidth 32))
    ∧ ∀ (offset width : Nat) (w : Word), (width ≠ 4 ∨ offset % 4 ≠ 0) →
      hostAct (.regRead offset width) s = .refused .registerAccess
      ∧ hostAct (.regWrite offset width w) s = .refused .registerAccess

/-- R280: every piece of the block's state after reset, as a state and as what the host's reset leaves of any state. -/
def Obligations.ResetState : Prop :=
  (∀ c : Config, AfterReset c (State.resetOf c))
  ∧ ∀ s : State, ∃ t, hostAct .reset s = .next t ∧ AfterReset s.cfg t

/-- R281: a reset, taken in any state, a busy or a halted one too, leaves every register and every space of the block as
after reset; a pending command is discarded, so BUSY = 0. -/
def Obligations.HostReset : Prop :=
  ∀ s : State, ∃ t, hostAct .reset s = .next t ∧ (∀ r, t.regValue r = (State.resetOf s.cfg).regValue r)
    ∧ t.lat = (State.resetOf s.cfg).lat ∧ t.busy = false ∧ t.cfg = s.cfg
    ∧ SameSpaces (State.resetOf s.cfg) t

/-- R284: IMG_INIT, STREAM_LOAD of length 0, OUT_CLEAR and WARN_CLEAR on an unhalted block equal a reset in every
register but XLEN, CW and ARG0 to ARG5, and in DMEM. -/
def Obligations.ResetEquivalence : Prop :=
  ∀ s : State, s.Inv → s.halt = false → s.lat.a0 = 0 →
    ∃ t1 t2 t3 t4, exec .imgInit s = .next t1 ∧ exec .streamLoad t1 = .next t2 ∧ exec .outClear t2 = .next t3
      ∧ exec .warnClear t3 = .next t4
      ∧ (∀ r, r ≠ .xlen → r ≠ .cmd → r ∉ [Reg.arg0, .arg1, .arg2, .arg3, .arg4, .arg5] →
        t4.regValue r = (State.resetOf s.cfg).regValue r)
      ∧ SameSpace .dmem (State.resetOf s.cfg) t4

/-- A step runs the command CW decodes to, on the state as it stands, at CORE's turn; with no command pending CORE does
nothing. Whose turn it is stands in the agenda: the model's choice (log 5, log 6). -/
def Obligations.StepRunsDecodedCommand : Prop :=
  ∀ s : State,
    (s.busy = true → s.agenda = [] → step s = exec (decodeCommand s.cw) s)
    ∧ (∀ i : Instr, WellFormed i → encode i = .word s.cw → s.busy = true → s.agenda = [] → step s = exec i s)
    ∧ (∀ rest, s.agenda = .core :: rest → s.busy = true →
      step s = exec (decodeCommand s.cw) { s with agenda := rest })
    ∧ (∀ rest, s.agenda = .core :: rest → s.busy = false → step s = .next { s with agenda := rest })
    ∧ ∀ a rest, s.agenda = .host a :: rest → step s = hostAct a { s with agenda := rest }

/-- R96, R97: a command statement is encoded as the register writes of its operands, in the order written, and the write
of its word to CMD; every statement whose operands R96 gives a meaning has an encoding. The host carries the writes out,
the command is then pending with its operands latched, and the host reads STATUS: BUSY = 1 as often as it reads before
CORE's Execute, BUSY = 0 after it. The script as data, the agenda and the number of reads are the model's choice
(log 5, log 20). -/
def Obligations.ScriptCommand : Prop :=
  ∀ (i : Instr) (operands : List (OperandName × OperandValue)), WellFormed i →
    (i.format = .cmdw → (∀ p ∈ operands, ∃ k v, Means i p k v) → (encodeStatement i operands).isSome = true)
    ∧ ∀ ts : List Turn, encodeStatement i operands = some ts →
      ts.length = operands.length + 1
      ∧ (∀ (j : Nat) (p : OperandName × OperandValue), operands[j]? = some p →
        ∃ (k : Nat) (v : Word), Means i p k v ∧ ts[j]? = some (Turn.host (.regWrite (0x18 + 4 * k) 4 v)))
      ∧ (∃ w : Word, encode i = .word w ∧ ts[operands.length]? = some (Turn.host (.regWrite 0x00 4 w)))
      ∧ ∀ (s : State) (label : Option Nat), s.busy = false → s.agenda = [] →
        s.script[s.hostPc]? = some ⟨label, some (.command i operands)⟩ →
        ∃ t u v x y, step s = .next t ∧ t.agenda = ts ++ pollTurns (s.polls.headD 0) ∧ Steps ts.length t u
          ∧ u.busy = true ∧ u.fetch = i ∧ u.arg = written i operands s.arg ∧ u.lat = u.arg ∧ u.last = s.last
          ∧ u.hostPc = s.hostPc + 1 ∧ SameErrors s u ∧ SameBlock s u
          ∧ (∀ k, k < s.polls.headD 0 → ∃ r, Steps (k + 1) u r ∧ r.busData = u.statusWord
            ∧ r.busData.getLsbD 0 = true)
          ∧ Steps (s.polls.headD 0) u v ∧ v.busy = true ∧ v.lat = u.lat ∧ v.cw = u.cw ∧ SameErrors u v ∧ SameBlock u v
          ∧ step v = .next x ∧ exec i { v with agenda := x.agenda } = .next x
          ∧ step x = .next y ∧ y.busData = x.statusWord ∧ y.busData.getLsbD 0 = false ∧ y.busy = false
          ∧ y.last = x.last ∧ y.agenda = [] ∧ y.hostPc = s.hostPc + 1 ∧ SameErrors x y ∧ SameBlock x y

/-! ## Memory and the invariant -/

/-- R12, R34: a read after a write gives the byte written, every other cell is as before, and the canonical form is
kept. -/
def Obligations.MemoryReadAfterWrite : Prop :=
  ∀ (s : State) (sp : Space) (a : Nat) (bs : List Byte), Memory.wf (unlisted s.cfg sp) (s.mem sp) = true →
    (∀ c, (s.writeBytes sp a bs).cell sp c
      = if a ≤ c ∧ c < a + bs.length then bs[c - a]? else s.cell sp c)
    ∧ Memory.wf (unlisted s.cfg sp) ((s.writeBytes sp a bs).mem sp) = true
    ∧ SameSpacesBut sp s (s.writeBytes sp a bs)
    ∧ ∀ (site : ReadSite) (c : Nat) (b : Byte), s.cell sp c = some b → s.readByte site sp c = b

/-- Two memories in canonical form that hold the same cells are the same list. -/
def Obligations.MemoryCanonical : Prop :=
  ∀ (u : Option Byte) (m m' : Memory), Memory.wf u m = true → Memory.wf u m' = true →
    (∀ a, Memory.cell u a m = Memory.cell u a m') → m = m'

/-- The invariant holds after reset, whatever parameters R9 admits, with IN_BYTES below 2^32 as R33 says, and OUT_BYTES
and SNAP_MAX below 2^32 as the model deduces (log 4). -/
def Obligations.ResetInvariant : Prop :=
  ∀ c : Config, Config.valid c = true → (State.resetOf c).Inv

/-- Every step keeps the invariant. -/
def Obligations.StepKeepsInvariant : Prop :=
  ∀ s t : State, s.Inv → step s = .next t → t.Inv
end

