-- ==== Sys2Proof/Laws/Memory.lean ====
section
/-! SUPPORT. The laws of the memory operations: reading after writing, and the canonical form kept. -/

namespace Sys2Proof.Machine

@[simp] theorem Memory.cell_nil (u : Option Byte) (a : Nat) : Memory.cell u a [] = u := rfl

theorem Memory.rising_weaken {u : Option Byte} {lo lo' : Nat} (h : lo' ≤ lo) {m : Memory}
    (hm : Memory.rising u lo m = true) : Memory.rising u lo' m = true := by
  cases m with
  | nil => rfl
  | cons c m =>
    simp only [Memory.rising, Bool.and_eq_true, decide_eq_true_eq] at hm ⊢
    exact ⟨⟨by omega, hm.1.2⟩, hm.2⟩

theorem Memory.get_below {u : Option Byte} {lo a : Nat} (h : a < lo) {m : Memory}
    (hm : Memory.rising u lo m = true) : Memory.get a m = none := by
  cases m with
  | nil => rfl
  | cons c m =>
    simp only [Memory.rising, Bool.and_eq_true, decide_eq_true_eq] at hm
    have h1 : c.1 ≠ a := by omega
    have h2 : a < c.1 := by omega
    simp [Memory.get, h1, h2]

/-- Writing a cell keeps the canonical form. -/
theorem Memory.rising_set {u : Option Byte} {lo a : Nat} {b : Byte} (ha : lo ≤ a) {m : Memory}
    (hm : Memory.rising u lo m = true) : Memory.rising u lo (Memory.set u a b m) = true := by
  induction m generalizing lo with
  | nil => by_cases h : u = some b <;> simp [Memory.set, Memory.rising, h, ha]
  | cons c m ih =>
    obtain ⟨k, v⟩ := c
    simp only [Memory.rising, Bool.and_eq_true, decide_eq_true_eq] at hm
    obtain ⟨⟨hk, hv⟩, hr⟩ := hm
    simp only [Memory.set]
    split_ifs with h1 h2 h3 h4
    · simp [Memory.rising, hk, hv, hr]
    · simp only [Memory.rising, Bool.and_eq_true, decide_eq_true_eq]
      exact ⟨⟨ha, h2⟩, ⟨by omega, hv⟩, hr⟩
    · exact Memory.rising_weaken (by omega) hr
    · subst h3
      simp [Memory.rising, h4, hr, ha]
    · simp only [Memory.rising, Bool.and_eq_true, decide_eq_true_eq]
      exact ⟨⟨hk, hv⟩, ih (by omega) hr⟩

/-- A read after a write: the written cell holds the value written, every other cell what it held. -/
theorem Memory.cell_set {u : Option Byte} {lo a : Nat} {b : Byte} (c : Nat) {m : Memory}
    (hm : Memory.rising u lo m = true) :
    Memory.cell u c (Memory.set u a b m) = if c = a then some b else Memory.cell u c m := by
  induction m generalizing lo with
  | nil =>
    by_cases h : u = some b
    · by_cases hc : c = a <;> simp [Memory.set, Memory.cell, Memory.get, h, hc]
    · by_cases hc : c = a
      · simp [Memory.set, Memory.cell, Memory.get, h, hc]
      · have : ¬ a = c := fun e => hc e.symm
        by_cases hlt : c < a <;> simp [Memory.set, Memory.cell, Memory.get, h, hc, this, hlt]
  | cons e m ih =>
    obtain ⟨k, v⟩ := e
    simp only [Memory.rising, Bool.and_eq_true, decide_eq_true_eq] at hm
    obtain ⟨⟨hk, hv⟩, hr⟩ := hm
    by_cases h1 : a < k
    · by_cases h2 : u = some b
      · by_cases hc : c = a
        · subst hc
          have h3 : k ≠ c := by omega
          simp [Memory.set, Memory.cell, Memory.get, h1, h2, h3]
        · simp [Memory.set, h1, h2, hc]
      · by_cases hc : c = a
        · simp [Memory.set, Memory.cell, Memory.get, h1, h2, hc]
        · have h5 : ¬ a = c := fun e => hc e.symm
          by_cases h6 : c < a
          · have h7 : k ≠ c := by omega
            have h8 : c < k := by omega
            simp [Memory.set, Memory.cell, Memory.get, h1, h2, hc, h5, h6, h7, h8]
          · simp [Memory.set, Memory.cell, Memory.get, h1, h2, hc, h5, h6]
    · by_cases h3 : k = a
      · subst h3
        have gone (c : Nat) (h : c ≤ k) : Memory.get c m = none := Memory.get_below (by omega) hr
        by_cases h4 : u = some b
        · by_cases hc : c = k
          · simp [Memory.set, Memory.cell, h4, hc, gone k]
          · have h6 : ¬ k = c := fun e => hc e.symm
            by_cases h7 : c < k
            · simp [Memory.set, Memory.cell, Memory.get, h4, hc, h6, h7, gone c (by omega)]
            · simp [Memory.set, Memory.cell, Memory.get, h4, hc, h6, h7]
        · by_cases hc : c = k
          · simp [Memory.set, Memory.cell, Memory.get, h4, hc]
          · have h6 : ¬ k = c := fun e => hc e.symm
            by_cases h7 : c < k <;> simp [Memory.set, Memory.cell, Memory.get, h4, hc, h6, h7]
      · have step := ih hr
        by_cases hk2 : k = c
        · subst hk2
          simp [Memory.set, Memory.cell, Memory.get, h1, h3]
        · by_cases h8 : c < k
          · have hc : c ≠ a := by omega
            simp [Memory.set, Memory.cell, Memory.get, h1, h3, hk2, h8, hc]
          · simpa [Memory.set, Memory.cell, Memory.get, h1, h3, hk2, h8] using step

theorem Memory.below_set {u : Option Byte} {n a : Nat} {b : Byte} (ha : a < n) {m : Memory}
    (hm : Memory.below n m = true) : Memory.below n (Memory.set u a b m) = true := by
  induction m with
  | nil => by_cases h : u = some b <;> simp [Memory.set, Memory.below, h, ha]
  | cons e m ih =>
    obtain ⟨k, v⟩ := e
    simp only [Memory.below, Bool.and_eq_true, decide_eq_true_eq] at hm
    simp only [Memory.set]
    split_ifs <;> simp [Memory.below, hm, ha, ih hm.2]

/-- Writing consecutive cells keeps the canonical form. -/
theorem Memory.rising_setMany {u : Option Byte} {lo a : Nat} (bs : List Byte) (ha : lo ≤ a) {m : Memory}
    (hm : Memory.rising u lo m = true) : Memory.rising u lo (Memory.setMany u a bs m) = true := by
  induction bs generalizing a m with
  | nil => exact hm
  | cons b bs ih => exact ih (by omega) (Memory.rising_set ha hm)

theorem Memory.below_setMany {u : Option Byte} {n a : Nat} (bs : List Byte) (ha : a + bs.length ≤ n) {m : Memory}
    (hm : Memory.below n m = true) : Memory.below n (Memory.setMany u a bs m) = true := by
  induction bs generalizing a m with
  | nil => exact hm
  | cons b bs ih =>
    simp only [List.length_cons] at ha
    exact ih (by omega) (Memory.below_set (by omega) hm)

/-- A read after consecutive writes: inside the range the byte written, outside what the cell held. -/
theorem Memory.cell_setMany {u : Option Byte} {lo a : Nat} (bs : List Byte) (c : Nat) {m : Memory} (ha : lo ≤ a)
    (hm : Memory.rising u lo m = true) :
    Memory.cell u c (Memory.setMany u a bs m)
      = if a ≤ c ∧ c < a + bs.length then bs[c - a]? else Memory.cell u c m := by
  induction bs generalizing a m with
  | nil =>
    have : ¬ (a ≤ c ∧ c < a) := by omega
    simp [Memory.setMany, this]
  | cons b bs ih =>
    rw [Memory.setMany, ih (by omega) (Memory.rising_set ha hm), Memory.cell_set c hm]
    by_cases h1 : a + 1 ≤ c ∧ c < a + 1 + bs.length
    · have h2 : a ≤ c ∧ c < a + (b :: bs).length := by simp only [List.length_cons]; omega
      have h3 : c - a = (c - (a + 1)) + 1 := by omega
      simp only [h1, h2, and_self, if_true, h3, List.getElem?_cons_succ]
    · by_cases h2 : c = a
      · subst h2
        simp
      · have h3 : ¬ (a ≤ c ∧ c < a + (b :: bs).length) := by simp only [List.length_cons]; omega
        simp only [h1, h2, h3, if_false]

end Sys2Proof.Machine
end

