-- ==== Sys2Proof/Laws/State.lean ====
section
/-! SUPPORT. What each update of State does to each field, and what a write to a space does to each cell. -/

namespace Sys2Proof.Machine

/-! ## Field by field -/

section
variable (s : State)

@[simp] theorem State.warnOn_cw (w : Warning) : (s.warnOn w).cw = s.cw := rfl
@[simp] theorem State.warnOn_busy (w : Warning) : (s.warnOn w).busy = s.busy := rfl
@[simp] theorem State.warnOn_halt (w : Warning) : (s.warnOn w).halt = s.halt := rfl
@[simp] theorem State.warnOn_ovr (w : Warning) : (s.warnOn w).ovr = s.ovr := rfl
@[simp] theorem State.warnOn_last (w : Warning) : (s.warnOn w).last = s.last := rfl
@[simp] theorem State.warnOn_err (w : Warning) : (s.warnOn w).err = s.err := rfl
@[simp] theorem State.warnOn_errInfo (w : Warning) : (s.warnOn w).errInfo = s.errInfo := rfl
@[simp] theorem State.warnOn_warn (w : Warning) : (s.warnOn w).warn = s.warn ||| w.mask := rfl
@[simp] theorem State.warnOn_wcnt (w : Warning) : (s.warnOn w).wcnt = saturatingSucc s.wcnt := rfl
@[simp] theorem State.warnOn_arg (w : Warning) : (s.warnOn w).arg = s.arg := rfl
@[simp] theorem State.warnOn_lat (w : Warning) : (s.warnOn w).lat = s.lat := rfl
@[simp] theorem State.warnOn_res0 (w : Warning) : (s.warnOn w).res0 = s.res0 := rfl
@[simp] theorem State.warnOn_res1 (w : Warning) : (s.warnOn w).res1 = s.res1 := rfl
@[simp] theorem State.warnOn_inLen (w : Warning) : (s.warnOn w).inLen = s.inLen := rfl
@[simp] theorem State.warnOn_iptr (w : Warning) : (s.warnOn w).iptr = s.iptr := rfl
@[simp] theorem State.warnOn_dmode (w : Warning) : (s.warnOn w).dmode = s.dmode := rfl
@[simp] theorem State.warnOn_trkOpen (w : Warning) : (s.warnOn w).trkOpen = s.trkOpen := rfl
@[simp] theorem State.warnOn_rs (w : Warning) : (s.warnOn w).rs = s.rs := rfl
@[simp] theorem State.warnOn_trkRem (w : Warning) : (s.warnOn w).trkRem = s.trkRem := rfl
@[simp] theorem State.warnOn_msgLen (w : Warning) : (s.warnOn w).msgLen = s.msgLen := rfl
@[simp] theorem State.warnOn_msgPos (w : Warning) : (s.warnOn w).msgPos = s.msgPos := rfl
@[simp] theorem State.warnOn_dialect (w : Warning) : (s.warnOn w).dialect = s.dialect := rfl
@[simp] theorem State.warnOn_snapCount (w : Warning) : (s.warnOn w).snapCount = s.snapCount := rfl
@[simp] theorem State.warnOn_outLen (w : Warning) : (s.warnOn w).outLen = s.outLen := rfl
@[simp] theorem State.warnOn_xlen (w : Warning) : (s.warnOn w).xlen = s.xlen := rfl
@[simp] theorem State.warnOn_inMem (w : Warning) : (s.warnOn w).inMem = s.inMem := rfl
@[simp] theorem State.warnOn_msgMem (w : Warning) : (s.warnOn w).msgMem = s.msgMem := rfl
@[simp] theorem State.warnOn_dmem (w : Warning) : (s.warnOn w).dmem = s.dmem := rfl
@[simp] theorem State.warnOn_snapMem (w : Warning) : (s.warnOn w).snapMem = s.snapMem := rfl
@[simp] theorem State.warnOn_outMem (w : Warning) : (s.warnOn w).outMem = s.outMem := rfl
@[simp] theorem State.warnOn_xbufMem (w : Warning) : (s.warnOn w).xbufMem = s.xbufMem := rfl
@[simp] theorem State.warnOn_cfg (w : Warning) : (s.warnOn w).cfg = s.cfg := rfl
@[simp] theorem State.warnOn_draws (w : Warning) : (s.warnOn w).draws = s.draws := rfl
@[simp] theorem State.warnOn_agenda (w : Warning) : (s.warnOn w).agenda = s.agenda := rfl
@[simp] theorem State.warnOn_script (w : Warning) : (s.warnOn w).script = s.script := rfl
@[simp] theorem State.warnOn_hostPc (w : Warning) : (s.warnOn w).hostPc = s.hostPc := rfl
@[simp] theorem State.warnOn_polls (w : Warning) : (s.warnOn w).polls = s.polls := rfl
@[simp] theorem State.warnOn_busData (w : Warning) : (s.warnOn w).busData = s.busData := rfl
@[simp] theorem State.warnOn_mem (w : Warning) (sp : Space) : (s.warnOn w).mem sp = s.mem sp := by cases sp <;> rfl
@[simp] theorem State.warnOn_cell (w : Warning) (sp : Space) (c : Nat) : (s.warnOn w).cell sp c = s.cell sp c := by cases sp <;> rfl

@[simp] theorem State.results_cw (a b : Word) : (s.results a b).cw = s.cw := rfl
@[simp] theorem State.results_busy (a b : Word) : (s.results a b).busy = s.busy := rfl
@[simp] theorem State.results_halt (a b : Word) : (s.results a b).halt = s.halt := rfl
@[simp] theorem State.results_ovr (a b : Word) : (s.results a b).ovr = s.ovr := rfl
@[simp] theorem State.results_last (a b : Word) : (s.results a b).last = s.last := rfl
@[simp] theorem State.results_err (a b : Word) : (s.results a b).err = s.err := rfl
@[simp] theorem State.results_errInfo (a b : Word) : (s.results a b).errInfo = s.errInfo := rfl
@[simp] theorem State.results_warn (a b : Word) : (s.results a b).warn = s.warn := rfl
@[simp] theorem State.results_wcnt (a b : Word) : (s.results a b).wcnt = s.wcnt := rfl
@[simp] theorem State.results_arg (a b : Word) : (s.results a b).arg = s.arg := rfl
@[simp] theorem State.results_lat (a b : Word) : (s.results a b).lat = s.lat := rfl
@[simp] theorem State.results_res0 (a b : Word) : (s.results a b).res0 = a := rfl
@[simp] theorem State.results_res1 (a b : Word) : (s.results a b).res1 = b := rfl
@[simp] theorem State.results_inLen (a b : Word) : (s.results a b).inLen = s.inLen := rfl
@[simp] theorem State.results_iptr (a b : Word) : (s.results a b).iptr = s.iptr := rfl
@[simp] theorem State.results_dmode (a b : Word) : (s.results a b).dmode = s.dmode := rfl
@[simp] theorem State.results_trkOpen (a b : Word) : (s.results a b).trkOpen = s.trkOpen := rfl
@[simp] theorem State.results_rs (a b : Word) : (s.results a b).rs = s.rs := rfl
@[simp] theorem State.results_trkRem (a b : Word) : (s.results a b).trkRem = s.trkRem := rfl
@[simp] theorem State.results_msgLen (a b : Word) : (s.results a b).msgLen = s.msgLen := rfl
@[simp] theorem State.results_msgPos (a b : Word) : (s.results a b).msgPos = s.msgPos := rfl
@[simp] theorem State.results_dialect (a b : Word) : (s.results a b).dialect = s.dialect := rfl
@[simp] theorem State.results_snapCount (a b : Word) : (s.results a b).snapCount = s.snapCount := rfl
@[simp] theorem State.results_outLen (a b : Word) : (s.results a b).outLen = s.outLen := rfl
@[simp] theorem State.results_xlen (a b : Word) : (s.results a b).xlen = s.xlen := rfl
@[simp] theorem State.results_inMem (a b : Word) : (s.results a b).inMem = s.inMem := rfl
@[simp] theorem State.results_msgMem (a b : Word) : (s.results a b).msgMem = s.msgMem := rfl
@[simp] theorem State.results_dmem (a b : Word) : (s.results a b).dmem = s.dmem := rfl
@[simp] theorem State.results_snapMem (a b : Word) : (s.results a b).snapMem = s.snapMem := rfl
@[simp] theorem State.results_outMem (a b : Word) : (s.results a b).outMem = s.outMem := rfl
@[simp] theorem State.results_xbufMem (a b : Word) : (s.results a b).xbufMem = s.xbufMem := rfl
@[simp] theorem State.results_cfg (a b : Word) : (s.results a b).cfg = s.cfg := rfl
@[simp] theorem State.results_draws (a b : Word) : (s.results a b).draws = s.draws := rfl
@[simp] theorem State.results_agenda (a b : Word) : (s.results a b).agenda = s.agenda := rfl
@[simp] theorem State.results_script (a b : Word) : (s.results a b).script = s.script := rfl
@[simp] theorem State.results_hostPc (a b : Word) : (s.results a b).hostPc = s.hostPc := rfl
@[simp] theorem State.results_polls (a b : Word) : (s.results a b).polls = s.polls := rfl
@[simp] theorem State.results_busData (a b : Word) : (s.results a b).busData = s.busData := rfl
@[simp] theorem State.results_mem (a b : Word) (sp : Space) : (s.results a b).mem sp = s.mem sp := by cases sp <;> rfl
@[simp] theorem State.results_cell (a b : Word) (sp : Space) (c : Nat) : (s.results a b).cell sp c = s.cell sp c := by cases sp <;> rfl

@[simp] theorem State.complete_cw : s.complete.cw = s.cw := rfl
@[simp] theorem State.complete_busy : s.complete.busy = false := rfl
@[simp] theorem State.complete_halt : s.complete.halt = s.halt := rfl
@[simp] theorem State.complete_ovr : s.complete.ovr = s.ovr := rfl
@[simp] theorem State.complete_last : s.complete.last = .completed := rfl
@[simp] theorem State.complete_err : s.complete.err = s.err := rfl
@[simp] theorem State.complete_errInfo : s.complete.errInfo = s.errInfo := rfl
@[simp] theorem State.complete_warn : s.complete.warn = s.warn := rfl
@[simp] theorem State.complete_wcnt : s.complete.wcnt = s.wcnt := rfl
@[simp] theorem State.complete_arg : s.complete.arg = s.arg := rfl
@[simp] theorem State.complete_lat : s.complete.lat = s.lat := rfl
@[simp] theorem State.complete_res0 : s.complete.res0 = s.res0 := rfl
@[simp] theorem State.complete_res1 : s.complete.res1 = s.res1 := rfl
@[simp] theorem State.complete_inLen : s.complete.inLen = s.inLen := rfl
@[simp] theorem State.complete_iptr : s.complete.iptr = s.iptr := rfl
@[simp] theorem State.complete_dmode : s.complete.dmode = s.dmode := rfl
@[simp] theorem State.complete_trkOpen : s.complete.trkOpen = s.trkOpen := rfl
@[simp] theorem State.complete_rs : s.complete.rs = s.rs := rfl
@[simp] theorem State.complete_trkRem : s.complete.trkRem = s.trkRem := rfl
@[simp] theorem State.complete_msgLen : s.complete.msgLen = s.msgLen := rfl
@[simp] theorem State.complete_msgPos : s.complete.msgPos = s.msgPos := rfl
@[simp] theorem State.complete_dialect : s.complete.dialect = s.dialect := rfl
@[simp] theorem State.complete_snapCount : s.complete.snapCount = s.snapCount := rfl
@[simp] theorem State.complete_outLen : s.complete.outLen = s.outLen := rfl
@[simp] theorem State.complete_xlen : s.complete.xlen = s.xlen := rfl
@[simp] theorem State.complete_inMem : s.complete.inMem = s.inMem := rfl
@[simp] theorem State.complete_msgMem : s.complete.msgMem = s.msgMem := rfl
@[simp] theorem State.complete_dmem : s.complete.dmem = s.dmem := rfl
@[simp] theorem State.complete_snapMem : s.complete.snapMem = s.snapMem := rfl
@[simp] theorem State.complete_outMem : s.complete.outMem = s.outMem := rfl
@[simp] theorem State.complete_xbufMem : s.complete.xbufMem = s.xbufMem := rfl
@[simp] theorem State.complete_cfg : s.complete.cfg = s.cfg := rfl
@[simp] theorem State.complete_draws : s.complete.draws = s.draws + 1 := rfl
@[simp] theorem State.complete_agenda : s.complete.agenda = s.agenda := rfl
@[simp] theorem State.complete_script : s.complete.script = s.script := rfl
@[simp] theorem State.complete_hostPc : s.complete.hostPc = s.hostPc := rfl
@[simp] theorem State.complete_polls : s.complete.polls = s.polls := rfl
@[simp] theorem State.complete_busData : s.complete.busData = s.busData := rfl
@[simp] theorem State.complete_mem (sp : Space) : s.complete.mem sp = s.mem sp := by cases sp <;> rfl
@[simp] theorem State.complete_cell (sp : Space) (c : Nat) : s.complete.cell sp c = s.cell sp c := by cases sp <;> rfl

@[simp] theorem State.refuse_cw : s.refuse.cw = s.cw := rfl
@[simp] theorem State.refuse_busy : s.refuse.busy = false := rfl
@[simp] theorem State.refuse_halt : s.refuse.halt = s.halt := rfl
@[simp] theorem State.refuse_ovr : s.refuse.ovr = s.ovr := rfl
@[simp] theorem State.refuse_last : s.refuse.last = .refused := rfl
@[simp] theorem State.refuse_err : s.refuse.err = s.err := rfl
@[simp] theorem State.refuse_errInfo : s.refuse.errInfo = s.errInfo := rfl
@[simp] theorem State.refuse_warn : s.refuse.warn = s.warn := rfl
@[simp] theorem State.refuse_wcnt : s.refuse.wcnt = s.wcnt := rfl
@[simp] theorem State.refuse_arg : s.refuse.arg = s.arg := rfl
@[simp] theorem State.refuse_lat : s.refuse.lat = s.lat := rfl
@[simp] theorem State.refuse_res0 : s.refuse.res0 = s.res0 := rfl
@[simp] theorem State.refuse_res1 : s.refuse.res1 = s.res1 := rfl
@[simp] theorem State.refuse_inLen : s.refuse.inLen = s.inLen := rfl
@[simp] theorem State.refuse_iptr : s.refuse.iptr = s.iptr := rfl
@[simp] theorem State.refuse_dmode : s.refuse.dmode = s.dmode := rfl
@[simp] theorem State.refuse_trkOpen : s.refuse.trkOpen = s.trkOpen := rfl
@[simp] theorem State.refuse_rs : s.refuse.rs = s.rs := rfl
@[simp] theorem State.refuse_trkRem : s.refuse.trkRem = s.trkRem := rfl
@[simp] theorem State.refuse_msgLen : s.refuse.msgLen = s.msgLen := rfl
@[simp] theorem State.refuse_msgPos : s.refuse.msgPos = s.msgPos := rfl
@[simp] theorem State.refuse_dialect : s.refuse.dialect = s.dialect := rfl
@[simp] theorem State.refuse_snapCount : s.refuse.snapCount = s.snapCount := rfl
@[simp] theorem State.refuse_outLen : s.refuse.outLen = s.outLen := rfl
@[simp] theorem State.refuse_xlen : s.refuse.xlen = s.xlen := rfl
@[simp] theorem State.refuse_inMem : s.refuse.inMem = s.inMem := rfl
@[simp] theorem State.refuse_msgMem : s.refuse.msgMem = s.msgMem := rfl
@[simp] theorem State.refuse_dmem : s.refuse.dmem = s.dmem := rfl
@[simp] theorem State.refuse_snapMem : s.refuse.snapMem = s.snapMem := rfl
@[simp] theorem State.refuse_outMem : s.refuse.outMem = s.outMem := rfl
@[simp] theorem State.refuse_xbufMem : s.refuse.xbufMem = s.xbufMem := rfl
@[simp] theorem State.refuse_cfg : s.refuse.cfg = s.cfg := rfl
@[simp] theorem State.refuse_draws : s.refuse.draws = s.draws + 1 := rfl
@[simp] theorem State.refuse_agenda : s.refuse.agenda = s.agenda := rfl
@[simp] theorem State.refuse_script : s.refuse.script = s.script := rfl
@[simp] theorem State.refuse_hostPc : s.refuse.hostPc = s.hostPc := rfl
@[simp] theorem State.refuse_polls : s.refuse.polls = s.polls := rfl
@[simp] theorem State.refuse_busData : s.refuse.busData = s.busData := rfl
@[simp] theorem State.refuse_mem (sp : Space) : s.refuse.mem sp = s.mem sp := by cases sp <;> rfl
@[simp] theorem State.refuse_cell (sp : Space) (c : Nat) : s.refuse.cell sp c = s.cell sp c := by cases sp <;> rfl

@[simp] theorem State.takeFatal_cw (e : Fatal) : (s.takeFatal e).cw = s.cw := rfl
@[simp] theorem State.takeFatal_busy (e : Fatal) : (s.takeFatal e).busy = false := rfl
@[simp] theorem State.takeFatal_halt (e : Fatal) : (s.takeFatal e).halt = true := rfl
@[simp] theorem State.takeFatal_ovr (e : Fatal) : (s.takeFatal e).ovr = s.ovr := rfl
@[simp] theorem State.takeFatal_last (e : Fatal) : (s.takeFatal e).last = .fatal := rfl
@[simp] theorem State.takeFatal_err (e : Fatal) : (s.takeFatal e).err = e.code := rfl
@[simp] theorem State.takeFatal_errInfo (e : Fatal) : (s.takeFatal e).errInfo = e.info := rfl
@[simp] theorem State.takeFatal_warn (e : Fatal) : (s.takeFatal e).warn = s.warn := rfl
@[simp] theorem State.takeFatal_wcnt (e : Fatal) : (s.takeFatal e).wcnt = s.wcnt := rfl
@[simp] theorem State.takeFatal_arg (e : Fatal) : (s.takeFatal e).arg = s.arg := rfl
@[simp] theorem State.takeFatal_lat (e : Fatal) : (s.takeFatal e).lat = s.lat := rfl
@[simp] theorem State.takeFatal_res0 (e : Fatal) : (s.takeFatal e).res0 = s.res0 := rfl
@[simp] theorem State.takeFatal_res1 (e : Fatal) : (s.takeFatal e).res1 = s.res1 := rfl
@[simp] theorem State.takeFatal_inLen (e : Fatal) : (s.takeFatal e).inLen = s.inLen := rfl
@[simp] theorem State.takeFatal_iptr (e : Fatal) : (s.takeFatal e).iptr = s.iptr := rfl
@[simp] theorem State.takeFatal_dmode (e : Fatal) : (s.takeFatal e).dmode = s.dmode := rfl
@[simp] theorem State.takeFatal_trkOpen (e : Fatal) : (s.takeFatal e).trkOpen = s.trkOpen := rfl
@[simp] theorem State.takeFatal_rs (e : Fatal) : (s.takeFatal e).rs = s.rs := rfl
@[simp] theorem State.takeFatal_trkRem (e : Fatal) : (s.takeFatal e).trkRem = s.trkRem := rfl
@[simp] theorem State.takeFatal_msgLen (e : Fatal) : (s.takeFatal e).msgLen = s.msgLen := rfl
@[simp] theorem State.takeFatal_msgPos (e : Fatal) : (s.takeFatal e).msgPos = s.msgPos := rfl
@[simp] theorem State.takeFatal_dialect (e : Fatal) : (s.takeFatal e).dialect = s.dialect := rfl
@[simp] theorem State.takeFatal_snapCount (e : Fatal) : (s.takeFatal e).snapCount = s.snapCount := rfl
@[simp] theorem State.takeFatal_outLen (e : Fatal) : (s.takeFatal e).outLen = s.outLen := rfl
@[simp] theorem State.takeFatal_xlen (e : Fatal) : (s.takeFatal e).xlen = s.xlen := rfl
@[simp] theorem State.takeFatal_inMem (e : Fatal) : (s.takeFatal e).inMem = s.inMem := rfl
@[simp] theorem State.takeFatal_msgMem (e : Fatal) : (s.takeFatal e).msgMem = s.msgMem := rfl
@[simp] theorem State.takeFatal_dmem (e : Fatal) : (s.takeFatal e).dmem = s.dmem := rfl
@[simp] theorem State.takeFatal_snapMem (e : Fatal) : (s.takeFatal e).snapMem = s.snapMem := rfl
@[simp] theorem State.takeFatal_outMem (e : Fatal) : (s.takeFatal e).outMem = s.outMem := rfl
@[simp] theorem State.takeFatal_xbufMem (e : Fatal) : (s.takeFatal e).xbufMem = s.xbufMem := rfl
@[simp] theorem State.takeFatal_cfg (e : Fatal) : (s.takeFatal e).cfg = s.cfg := rfl
@[simp] theorem State.takeFatal_draws (e : Fatal) : (s.takeFatal e).draws = s.draws + 1 := rfl
@[simp] theorem State.takeFatal_agenda (e : Fatal) : (s.takeFatal e).agenda = s.agenda := rfl
@[simp] theorem State.takeFatal_script (e : Fatal) : (s.takeFatal e).script = s.script := rfl
@[simp] theorem State.takeFatal_hostPc (e : Fatal) : (s.takeFatal e).hostPc = s.hostPc := rfl
@[simp] theorem State.takeFatal_polls (e : Fatal) : (s.takeFatal e).polls = s.polls := rfl
@[simp] theorem State.takeFatal_busData (e : Fatal) : (s.takeFatal e).busData = s.busData := rfl
@[simp] theorem State.takeFatal_mem (e : Fatal) (sp : Space) : (s.takeFatal e).mem sp = s.mem sp := by cases sp <;> rfl
@[simp] theorem State.takeFatal_cell (e : Fatal) (sp : Space) (c : Nat) : (s.takeFatal e).cell sp c = s.cell sp c := by cases sp <;> rfl

@[simp] theorem State.consume_cw (n : Nat) : (s.consume n).cw = s.cw := rfl
@[simp] theorem State.consume_busy (n : Nat) : (s.consume n).busy = s.busy := rfl
@[simp] theorem State.consume_halt (n : Nat) : (s.consume n).halt = s.halt := rfl
@[simp] theorem State.consume_ovr (n : Nat) : (s.consume n).ovr = s.ovr := rfl
@[simp] theorem State.consume_last (n : Nat) : (s.consume n).last = s.last := rfl
@[simp] theorem State.consume_err (n : Nat) : (s.consume n).err = s.err := rfl
@[simp] theorem State.consume_errInfo (n : Nat) : (s.consume n).errInfo = s.errInfo := rfl
@[simp] theorem State.consume_warn (n : Nat) : (s.consume n).warn = s.warn := rfl
@[simp] theorem State.consume_wcnt (n : Nat) : (s.consume n).wcnt = s.wcnt := rfl
@[simp] theorem State.consume_arg (n : Nat) : (s.consume n).arg = s.arg := rfl
@[simp] theorem State.consume_lat (n : Nat) : (s.consume n).lat = s.lat := rfl
@[simp] theorem State.consume_res0 (n : Nat) : (s.consume n).res0 = s.res0 := rfl
@[simp] theorem State.consume_res1 (n : Nat) : (s.consume n).res1 = s.res1 := rfl
@[simp] theorem State.consume_inLen (n : Nat) : (s.consume n).inLen = s.inLen := rfl
@[simp] theorem State.consume_iptr (n : Nat) : (s.consume n).iptr = wordOf (s.iptr.toNat + n) := rfl
@[simp] theorem State.consume_dmode (n : Nat) : (s.consume n).dmode = s.dmode := rfl
@[simp] theorem State.consume_trkOpen (n : Nat) : (s.consume n).trkOpen = s.trkOpen := rfl
@[simp] theorem State.consume_rs (n : Nat) : (s.consume n).rs = s.rs := rfl
@[simp] theorem State.consume_trkRem (n : Nat) : (s.consume n).trkRem = if s.trkOpen then wordOf (s.trkRem.toNat - n) else s.trkRem := rfl
@[simp] theorem State.consume_msgLen (n : Nat) : (s.consume n).msgLen = s.msgLen := rfl
@[simp] theorem State.consume_msgPos (n : Nat) : (s.consume n).msgPos = s.msgPos := rfl
@[simp] theorem State.consume_dialect (n : Nat) : (s.consume n).dialect = s.dialect := rfl
@[simp] theorem State.consume_snapCount (n : Nat) : (s.consume n).snapCount = s.snapCount := rfl
@[simp] theorem State.consume_outLen (n : Nat) : (s.consume n).outLen = s.outLen := rfl
@[simp] theorem State.consume_xlen (n : Nat) : (s.consume n).xlen = s.xlen := rfl
@[simp] theorem State.consume_inMem (n : Nat) : (s.consume n).inMem = s.inMem := rfl
@[simp] theorem State.consume_msgMem (n : Nat) : (s.consume n).msgMem = s.msgMem := rfl
@[simp] theorem State.consume_dmem (n : Nat) : (s.consume n).dmem = s.dmem := rfl
@[simp] theorem State.consume_snapMem (n : Nat) : (s.consume n).snapMem = s.snapMem := rfl
@[simp] theorem State.consume_outMem (n : Nat) : (s.consume n).outMem = s.outMem := rfl
@[simp] theorem State.consume_xbufMem (n : Nat) : (s.consume n).xbufMem = s.xbufMem := rfl
@[simp] theorem State.consume_cfg (n : Nat) : (s.consume n).cfg = s.cfg := rfl
@[simp] theorem State.consume_draws (n : Nat) : (s.consume n).draws = s.draws := rfl
@[simp] theorem State.consume_agenda (n : Nat) : (s.consume n).agenda = s.agenda := rfl
@[simp] theorem State.consume_script (n : Nat) : (s.consume n).script = s.script := rfl
@[simp] theorem State.consume_hostPc (n : Nat) : (s.consume n).hostPc = s.hostPc := rfl
@[simp] theorem State.consume_polls (n : Nat) : (s.consume n).polls = s.polls := rfl
@[simp] theorem State.consume_busData (n : Nat) : (s.consume n).busData = s.busData := rfl
@[simp] theorem State.consume_mem (n : Nat) (sp : Space) : (s.consume n).mem sp = s.mem sp := by cases sp <;> rfl
@[simp] theorem State.consume_cell (n : Nat) (sp : Space) (c : Nat) : (s.consume n).cell sp c = s.cell sp c := by cases sp <;> rfl

@[simp] theorem State.noMessage_cw : s.noMessage.cw = s.cw := rfl
@[simp] theorem State.noMessage_busy : s.noMessage.busy = s.busy := rfl
@[simp] theorem State.noMessage_halt : s.noMessage.halt = s.halt := rfl
@[simp] theorem State.noMessage_ovr : s.noMessage.ovr = s.ovr := rfl
@[simp] theorem State.noMessage_last : s.noMessage.last = s.last := rfl
@[simp] theorem State.noMessage_err : s.noMessage.err = s.err := rfl
@[simp] theorem State.noMessage_errInfo : s.noMessage.errInfo = s.errInfo := rfl
@[simp] theorem State.noMessage_warn : s.noMessage.warn = s.warn := rfl
@[simp] theorem State.noMessage_wcnt : s.noMessage.wcnt = s.wcnt := rfl
@[simp] theorem State.noMessage_arg : s.noMessage.arg = s.arg := rfl
@[simp] theorem State.noMessage_lat : s.noMessage.lat = s.lat := rfl
@[simp] theorem State.noMessage_res0 : s.noMessage.res0 = 0 := rfl
@[simp] theorem State.noMessage_res1 : s.noMessage.res1 = 0 := rfl
@[simp] theorem State.noMessage_inLen : s.noMessage.inLen = s.inLen := rfl
@[simp] theorem State.noMessage_iptr : s.noMessage.iptr = s.iptr := rfl
@[simp] theorem State.noMessage_dmode : s.noMessage.dmode = s.dmode := rfl
@[simp] theorem State.noMessage_trkOpen : s.noMessage.trkOpen = s.trkOpen := rfl
@[simp] theorem State.noMessage_rs : s.noMessage.rs = s.rs := rfl
@[simp] theorem State.noMessage_trkRem : s.noMessage.trkRem = s.trkRem := rfl
@[simp] theorem State.noMessage_msgLen : s.noMessage.msgLen = 0 := rfl
@[simp] theorem State.noMessage_msgPos : s.noMessage.msgPos = 0 := rfl
@[simp] theorem State.noMessage_dialect : s.noMessage.dialect = s.dialect := rfl
@[simp] theorem State.noMessage_snapCount : s.noMessage.snapCount = s.snapCount := rfl
@[simp] theorem State.noMessage_outLen : s.noMessage.outLen = s.outLen := rfl
@[simp] theorem State.noMessage_xlen : s.noMessage.xlen = s.xlen := rfl
@[simp] theorem State.noMessage_inMem : s.noMessage.inMem = s.inMem := rfl
@[simp] theorem State.noMessage_msgMem : s.noMessage.msgMem = s.msgMem := rfl
@[simp] theorem State.noMessage_dmem : s.noMessage.dmem = s.dmem := rfl
@[simp] theorem State.noMessage_snapMem : s.noMessage.snapMem = s.snapMem := rfl
@[simp] theorem State.noMessage_outMem : s.noMessage.outMem = s.outMem := rfl
@[simp] theorem State.noMessage_xbufMem : s.noMessage.xbufMem = s.xbufMem := rfl
@[simp] theorem State.noMessage_cfg : s.noMessage.cfg = s.cfg := rfl
@[simp] theorem State.noMessage_draws : s.noMessage.draws = s.draws := rfl
@[simp] theorem State.noMessage_agenda : s.noMessage.agenda = s.agenda := rfl
@[simp] theorem State.noMessage_script : s.noMessage.script = s.script := rfl
@[simp] theorem State.noMessage_hostPc : s.noMessage.hostPc = s.hostPc := rfl
@[simp] theorem State.noMessage_polls : s.noMessage.polls = s.polls := rfl
@[simp] theorem State.noMessage_busData : s.noMessage.busData = s.busData := rfl
@[simp] theorem State.noMessage_mem (sp : Space) : s.noMessage.mem sp = s.mem sp := by cases sp <;> rfl
@[simp] theorem State.noMessage_cell (sp : Space) (c : Nat) : s.noMessage.cell sp c = s.cell sp c := by cases sp <;> rfl

@[simp] theorem State.deliver_cw : s.deliver.cw = s.cw := rfl
@[simp] theorem State.deliver_busy : s.deliver.busy = s.busy := rfl
@[simp] theorem State.deliver_halt : s.deliver.halt = s.halt := rfl
@[simp] theorem State.deliver_ovr : s.deliver.ovr = s.ovr := rfl
@[simp] theorem State.deliver_last : s.deliver.last = s.last := rfl
@[simp] theorem State.deliver_err : s.deliver.err = s.err := rfl
@[simp] theorem State.deliver_errInfo : s.deliver.errInfo = s.errInfo := rfl
@[simp] theorem State.deliver_warn : s.deliver.warn = s.warn := rfl
@[simp] theorem State.deliver_wcnt : s.deliver.wcnt = s.wcnt := rfl
@[simp] theorem State.deliver_arg : s.deliver.arg = s.arg := rfl
@[simp] theorem State.deliver_lat : s.deliver.lat = s.lat := rfl
@[simp] theorem State.deliver_res0 : s.deliver.res0 = 1 := rfl
@[simp] theorem State.deliver_res1 : s.deliver.res1 = s.msgLen := rfl
@[simp] theorem State.deliver_inLen : s.deliver.inLen = s.inLen := rfl
@[simp] theorem State.deliver_iptr : s.deliver.iptr = s.iptr := rfl
@[simp] theorem State.deliver_dmode : s.deliver.dmode = s.dmode := rfl
@[simp] theorem State.deliver_trkOpen : s.deliver.trkOpen = s.trkOpen := rfl
@[simp] theorem State.deliver_rs : s.deliver.rs = s.rs := rfl
@[simp] theorem State.deliver_trkRem : s.deliver.trkRem = s.trkRem := rfl
@[simp] theorem State.deliver_msgLen : s.deliver.msgLen = s.msgLen := rfl
@[simp] theorem State.deliver_msgPos : s.deliver.msgPos = s.msgPos := rfl
@[simp] theorem State.deliver_dialect : s.deliver.dialect = s.dialect := rfl
@[simp] theorem State.deliver_snapCount : s.deliver.snapCount = s.snapCount := rfl
@[simp] theorem State.deliver_outLen : s.deliver.outLen = s.outLen := rfl
@[simp] theorem State.deliver_xlen : s.deliver.xlen = s.xlen := rfl
@[simp] theorem State.deliver_inMem : s.deliver.inMem = s.inMem := rfl
@[simp] theorem State.deliver_msgMem : s.deliver.msgMem = s.msgMem := rfl
@[simp] theorem State.deliver_dmem : s.deliver.dmem = s.dmem := rfl
@[simp] theorem State.deliver_snapMem : s.deliver.snapMem = s.snapMem := rfl
@[simp] theorem State.deliver_outMem : s.deliver.outMem = s.outMem := rfl
@[simp] theorem State.deliver_xbufMem : s.deliver.xbufMem = s.xbufMem := rfl
@[simp] theorem State.deliver_cfg : s.deliver.cfg = s.cfg := rfl
@[simp] theorem State.deliver_draws : s.deliver.draws = s.draws := rfl
@[simp] theorem State.deliver_agenda : s.deliver.agenda = s.agenda := rfl
@[simp] theorem State.deliver_script : s.deliver.script = s.script := rfl
@[simp] theorem State.deliver_hostPc : s.deliver.hostPc = s.hostPc := rfl
@[simp] theorem State.deliver_polls : s.deliver.polls = s.polls := rfl
@[simp] theorem State.deliver_busData : s.deliver.busData = s.busData := rfl
@[simp] theorem State.deliver_mem (sp : Space) : s.deliver.mem sp = s.mem sp := by cases sp <;> rfl
@[simp] theorem State.deliver_cell (sp : Space) (c : Nat) : s.deliver.cell sp c = s.cell sp c := by cases sp <;> rfl

@[simp] theorem State.ended_cw : s.ended.cw = s.cw := rfl
@[simp] theorem State.ended_busy : s.ended.busy = s.busy := rfl
@[simp] theorem State.ended_halt : s.ended.halt = s.halt := rfl
@[simp] theorem State.ended_ovr : s.ended.ovr = s.ovr := rfl
@[simp] theorem State.ended_last : s.ended.last = s.last := rfl
@[simp] theorem State.ended_err : s.ended.err = s.err := rfl
@[simp] theorem State.ended_errInfo : s.ended.errInfo = s.errInfo := rfl
@[simp] theorem State.ended_warn : s.ended.warn = s.warn := rfl
@[simp] theorem State.ended_wcnt : s.ended.wcnt = s.wcnt := rfl
@[simp] theorem State.ended_arg : s.ended.arg = s.arg := rfl
@[simp] theorem State.ended_lat : s.ended.lat = s.lat := rfl
@[simp] theorem State.ended_res0 : s.ended.res0 = s.res0 := rfl
@[simp] theorem State.ended_res1 : s.ended.res1 = s.res1 := rfl
@[simp] theorem State.ended_inLen : s.ended.inLen = s.inLen := rfl
@[simp] theorem State.ended_iptr : s.ended.iptr = s.iptr := rfl
@[simp] theorem State.ended_dmode : s.ended.dmode = .ended := rfl
@[simp] theorem State.ended_trkOpen : s.ended.trkOpen = s.trkOpen := rfl
@[simp] theorem State.ended_rs : s.ended.rs = s.rs := rfl
@[simp] theorem State.ended_trkRem : s.ended.trkRem = s.trkRem := rfl
@[simp] theorem State.ended_msgLen : s.ended.msgLen = s.msgLen := rfl
@[simp] theorem State.ended_msgPos : s.ended.msgPos = s.msgPos := rfl
@[simp] theorem State.ended_dialect : s.ended.dialect = s.dialect := rfl
@[simp] theorem State.ended_snapCount : s.ended.snapCount = s.snapCount := rfl
@[simp] theorem State.ended_outLen : s.ended.outLen = s.outLen := rfl
@[simp] theorem State.ended_xlen : s.ended.xlen = s.xlen := rfl
@[simp] theorem State.ended_inMem : s.ended.inMem = s.inMem := rfl
@[simp] theorem State.ended_msgMem : s.ended.msgMem = s.msgMem := rfl
@[simp] theorem State.ended_dmem : s.ended.dmem = s.dmem := rfl
@[simp] theorem State.ended_snapMem : s.ended.snapMem = s.snapMem := rfl
@[simp] theorem State.ended_outMem : s.ended.outMem = s.outMem := rfl
@[simp] theorem State.ended_xbufMem : s.ended.xbufMem = s.xbufMem := rfl
@[simp] theorem State.ended_cfg : s.ended.cfg = s.cfg := rfl
@[simp] theorem State.ended_draws : s.ended.draws = s.draws := rfl
@[simp] theorem State.ended_agenda : s.ended.agenda = s.agenda := rfl
@[simp] theorem State.ended_script : s.ended.script = s.script := rfl
@[simp] theorem State.ended_hostPc : s.ended.hostPc = s.hostPc := rfl
@[simp] theorem State.ended_polls : s.ended.polls = s.polls := rfl
@[simp] theorem State.ended_busData : s.ended.busData = s.busData := rfl
@[simp] theorem State.ended_mem (sp : Space) : s.ended.mem sp = s.mem sp := by cases sp <;> rfl
@[simp] theorem State.ended_cell (sp : Space) (c : Nat) : s.ended.cell sp c = s.cell sp c := by cases sp <;> rfl

@[simp] theorem State.status_cw (b : Byte) : (s.status b).cw = s.cw := rfl
@[simp] theorem State.status_busy (b : Byte) : (s.status b).busy = s.busy := rfl
@[simp] theorem State.status_halt (b : Byte) : (s.status b).halt = s.halt := rfl
@[simp] theorem State.status_ovr (b : Byte) : (s.status b).ovr = s.ovr := rfl
@[simp] theorem State.status_last (b : Byte) : (s.status b).last = s.last := rfl
@[simp] theorem State.status_err (b : Byte) : (s.status b).err = s.err := rfl
@[simp] theorem State.status_errInfo (b : Byte) : (s.status b).errInfo = s.errInfo := rfl
@[simp] theorem State.status_warn (b : Byte) : (s.status b).warn = s.warn := rfl
@[simp] theorem State.status_wcnt (b : Byte) : (s.status b).wcnt = s.wcnt := rfl
@[simp] theorem State.status_arg (b : Byte) : (s.status b).arg = s.arg := rfl
@[simp] theorem State.status_lat (b : Byte) : (s.status b).lat = s.lat := rfl
@[simp] theorem State.status_res0 (b : Byte) : (s.status b).res0 = s.res0 := rfl
@[simp] theorem State.status_res1 (b : Byte) : (s.status b).res1 = s.res1 := rfl
@[simp] theorem State.status_inLen (b : Byte) : (s.status b).inLen = s.inLen := rfl
@[simp] theorem State.status_iptr (b : Byte) : (s.status b).iptr = wordOf (s.iptr.toNat + 1) := rfl
@[simp] theorem State.status_dmode (b : Byte) : (s.status b).dmode = s.dmode := rfl
@[simp] theorem State.status_trkOpen (b : Byte) : (s.status b).trkOpen = s.trkOpen := rfl
@[simp] theorem State.status_rs (b : Byte) : (s.status b).rs = b := rfl
@[simp] theorem State.status_trkRem (b : Byte) : (s.status b).trkRem = if s.trkOpen then wordOf (s.trkRem.toNat - 1) else s.trkRem := rfl
@[simp] theorem State.status_msgLen (b : Byte) : (s.status b).msgLen = s.msgLen := rfl
@[simp] theorem State.status_msgPos (b : Byte) : (s.status b).msgPos = s.msgPos := rfl
@[simp] theorem State.status_dialect (b : Byte) : (s.status b).dialect = s.dialect := rfl
@[simp] theorem State.status_snapCount (b : Byte) : (s.status b).snapCount = s.snapCount := rfl
@[simp] theorem State.status_outLen (b : Byte) : (s.status b).outLen = s.outLen := rfl
@[simp] theorem State.status_xlen (b : Byte) : (s.status b).xlen = s.xlen := rfl
@[simp] theorem State.status_inMem (b : Byte) : (s.status b).inMem = s.inMem := rfl
@[simp] theorem State.status_msgMem (b : Byte) : (s.status b).msgMem = s.msgMem := rfl
@[simp] theorem State.status_dmem (b : Byte) : (s.status b).dmem = s.dmem := rfl
@[simp] theorem State.status_snapMem (b : Byte) : (s.status b).snapMem = s.snapMem := rfl
@[simp] theorem State.status_outMem (b : Byte) : (s.status b).outMem = s.outMem := rfl
@[simp] theorem State.status_xbufMem (b : Byte) : (s.status b).xbufMem = s.xbufMem := rfl
@[simp] theorem State.status_cfg (b : Byte) : (s.status b).cfg = s.cfg := rfl
@[simp] theorem State.status_draws (b : Byte) : (s.status b).draws = s.draws := rfl
@[simp] theorem State.status_agenda (b : Byte) : (s.status b).agenda = s.agenda := rfl
@[simp] theorem State.status_script (b : Byte) : (s.status b).script = s.script := rfl
@[simp] theorem State.status_hostPc (b : Byte) : (s.status b).hostPc = s.hostPc := rfl
@[simp] theorem State.status_polls (b : Byte) : (s.status b).polls = s.polls := rfl
@[simp] theorem State.status_busData (b : Byte) : (s.status b).busData = s.busData := rfl
@[simp] theorem State.status_mem (b : Byte) (sp : Space) : (s.status b).mem sp = s.mem sp := by cases sp <;> rfl
@[simp] theorem State.status_cell (b : Byte) (sp : Space) (c : Nat) : (s.status b).cell sp c = s.cell sp c := by cases sp <;> rfl

@[simp] theorem State.setMem_cw (sp : Space) (m : Memory) : (s.setMem sp m).cw = s.cw := by cases sp <;> rfl
@[simp] theorem State.setMem_busy (sp : Space) (m : Memory) : (s.setMem sp m).busy = s.busy := by cases sp <;> rfl
@[simp] theorem State.setMem_halt (sp : Space) (m : Memory) : (s.setMem sp m).halt = s.halt := by cases sp <;> rfl
@[simp] theorem State.setMem_ovr (sp : Space) (m : Memory) : (s.setMem sp m).ovr = s.ovr := by cases sp <;> rfl
@[simp] theorem State.setMem_last (sp : Space) (m : Memory) : (s.setMem sp m).last = s.last := by cases sp <;> rfl
@[simp] theorem State.setMem_err (sp : Space) (m : Memory) : (s.setMem sp m).err = s.err := by cases sp <;> rfl
@[simp] theorem State.setMem_errInfo (sp : Space) (m : Memory) : (s.setMem sp m).errInfo = s.errInfo := by cases sp <;> rfl
@[simp] theorem State.setMem_warn (sp : Space) (m : Memory) : (s.setMem sp m).warn = s.warn := by cases sp <;> rfl
@[simp] theorem State.setMem_wcnt (sp : Space) (m : Memory) : (s.setMem sp m).wcnt = s.wcnt := by cases sp <;> rfl
@[simp] theorem State.setMem_arg (sp : Space) (m : Memory) : (s.setMem sp m).arg = s.arg := by cases sp <;> rfl
@[simp] theorem State.setMem_lat (sp : Space) (m : Memory) : (s.setMem sp m).lat = s.lat := by cases sp <;> rfl
@[simp] theorem State.setMem_res0 (sp : Space) (m : Memory) : (s.setMem sp m).res0 = s.res0 := by cases sp <;> rfl
@[simp] theorem State.setMem_res1 (sp : Space) (m : Memory) : (s.setMem sp m).res1 = s.res1 := by cases sp <;> rfl
@[simp] theorem State.setMem_inLen (sp : Space) (m : Memory) : (s.setMem sp m).inLen = s.inLen := by cases sp <;> rfl
@[simp] theorem State.setMem_iptr (sp : Space) (m : Memory) : (s.setMem sp m).iptr = s.iptr := by cases sp <;> rfl
@[simp] theorem State.setMem_dmode (sp : Space) (m : Memory) : (s.setMem sp m).dmode = s.dmode := by cases sp <;> rfl
@[simp] theorem State.setMem_trkOpen (sp : Space) (m : Memory) : (s.setMem sp m).trkOpen = s.trkOpen := by cases sp <;> rfl
@[simp] theorem State.setMem_rs (sp : Space) (m : Memory) : (s.setMem sp m).rs = s.rs := by cases sp <;> rfl
@[simp] theorem State.setMem_trkRem (sp : Space) (m : Memory) : (s.setMem sp m).trkRem = s.trkRem := by cases sp <;> rfl
@[simp] theorem State.setMem_msgLen (sp : Space) (m : Memory) : (s.setMem sp m).msgLen = s.msgLen := by cases sp <;> rfl
@[simp] theorem State.setMem_msgPos (sp : Space) (m : Memory) : (s.setMem sp m).msgPos = s.msgPos := by cases sp <;> rfl
@[simp] theorem State.setMem_dialect (sp : Space) (m : Memory) : (s.setMem sp m).dialect = s.dialect := by cases sp <;> rfl
@[simp] theorem State.setMem_snapCount (sp : Space) (m : Memory) : (s.setMem sp m).snapCount = s.snapCount := by cases sp <;> rfl
@[simp] theorem State.setMem_outLen (sp : Space) (m : Memory) : (s.setMem sp m).outLen = s.outLen := by cases sp <;> rfl
@[simp] theorem State.setMem_xlen (sp : Space) (m : Memory) : (s.setMem sp m).xlen = s.xlen := by cases sp <;> rfl
@[simp] theorem State.setMem_cfg (sp : Space) (m : Memory) : (s.setMem sp m).cfg = s.cfg := by cases sp <;> rfl
@[simp] theorem State.setMem_draws (sp : Space) (m : Memory) : (s.setMem sp m).draws = s.draws := by cases sp <;> rfl
@[simp] theorem State.setMem_agenda (sp : Space) (m : Memory) : (s.setMem sp m).agenda = s.agenda := by cases sp <;> rfl
@[simp] theorem State.setMem_script (sp : Space) (m : Memory) : (s.setMem sp m).script = s.script := by cases sp <;> rfl
@[simp] theorem State.setMem_hostPc (sp : Space) (m : Memory) : (s.setMem sp m).hostPc = s.hostPc := by cases sp <;> rfl
@[simp] theorem State.setMem_polls (sp : Space) (m : Memory) : (s.setMem sp m).polls = s.polls := by cases sp <;> rfl
@[simp] theorem State.setMem_busData (sp : Space) (m : Memory) : (s.setMem sp m).busData = s.busData := by cases sp <;> rfl

@[simp] theorem State.writeBytes_cw (sp : Space) (a : Nat) (bs : List Byte) : (s.writeBytes sp a bs).cw = s.cw := s.setMem_cw sp _
@[simp] theorem State.writeBytes_busy (sp : Space) (a : Nat) (bs : List Byte) : (s.writeBytes sp a bs).busy = s.busy := s.setMem_busy sp _
@[simp] theorem State.writeBytes_halt (sp : Space) (a : Nat) (bs : List Byte) : (s.writeBytes sp a bs).halt = s.halt := s.setMem_halt sp _
@[simp] theorem State.writeBytes_ovr (sp : Space) (a : Nat) (bs : List Byte) : (s.writeBytes sp a bs).ovr = s.ovr := s.setMem_ovr sp _
@[simp] theorem State.writeBytes_last (sp : Space) (a : Nat) (bs : List Byte) : (s.writeBytes sp a bs).last = s.last := s.setMem_last sp _
@[simp] theorem State.writeBytes_err (sp : Space) (a : Nat) (bs : List Byte) : (s.writeBytes sp a bs).err = s.err := s.setMem_err sp _
@[simp] theorem State.writeBytes_errInfo (sp : Space) (a : Nat) (bs : List Byte) : (s.writeBytes sp a bs).errInfo = s.errInfo := s.setMem_errInfo sp _
@[simp] theorem State.writeBytes_warn (sp : Space) (a : Nat) (bs : List Byte) : (s.writeBytes sp a bs).warn = s.warn := s.setMem_warn sp _
@[simp] theorem State.writeBytes_wcnt (sp : Space) (a : Nat) (bs : List Byte) : (s.writeBytes sp a bs).wcnt = s.wcnt := s.setMem_wcnt sp _
@[simp] theorem State.writeBytes_arg (sp : Space) (a : Nat) (bs : List Byte) : (s.writeBytes sp a bs).arg = s.arg := s.setMem_arg sp _
@[simp] theorem State.writeBytes_lat (sp : Space) (a : Nat) (bs : List Byte) : (s.writeBytes sp a bs).lat = s.lat := s.setMem_lat sp _
@[simp] theorem State.writeBytes_res0 (sp : Space) (a : Nat) (bs : List Byte) : (s.writeBytes sp a bs).res0 = s.res0 := s.setMem_res0 sp _
@[simp] theorem State.writeBytes_res1 (sp : Space) (a : Nat) (bs : List Byte) : (s.writeBytes sp a bs).res1 = s.res1 := s.setMem_res1 sp _
@[simp] theorem State.writeBytes_inLen (sp : Space) (a : Nat) (bs : List Byte) : (s.writeBytes sp a bs).inLen = s.inLen := s.setMem_inLen sp _
@[simp] theorem State.writeBytes_iptr (sp : Space) (a : Nat) (bs : List Byte) : (s.writeBytes sp a bs).iptr = s.iptr := s.setMem_iptr sp _
@[simp] theorem State.writeBytes_dmode (sp : Space) (a : Nat) (bs : List Byte) : (s.writeBytes sp a bs).dmode = s.dmode := s.setMem_dmode sp _
@[simp] theorem State.writeBytes_trkOpen (sp : Space) (a : Nat) (bs : List Byte) : (s.writeBytes sp a bs).trkOpen = s.trkOpen := s.setMem_trkOpen sp _
@[simp] theorem State.writeBytes_rs (sp : Space) (a : Nat) (bs : List Byte) : (s.writeBytes sp a bs).rs = s.rs := s.setMem_rs sp _
@[simp] theorem State.writeBytes_trkRem (sp : Space) (a : Nat) (bs : List Byte) : (s.writeBytes sp a bs).trkRem = s.trkRem := s.setMem_trkRem sp _
@[simp] theorem State.writeBytes_msgLen (sp : Space) (a : Nat) (bs : List Byte) : (s.writeBytes sp a bs).msgLen = s.msgLen := s.setMem_msgLen sp _
@[simp] theorem State.writeBytes_msgPos (sp : Space) (a : Nat) (bs : List Byte) : (s.writeBytes sp a bs).msgPos = s.msgPos := s.setMem_msgPos sp _
@[simp] theorem State.writeBytes_dialect (sp : Space) (a : Nat) (bs : List Byte) : (s.writeBytes sp a bs).dialect = s.dialect := s.setMem_dialect sp _
@[simp] theorem State.writeBytes_snapCount (sp : Space) (a : Nat) (bs : List Byte) : (s.writeBytes sp a bs).snapCount = s.snapCount := s.setMem_snapCount sp _
@[simp] theorem State.writeBytes_outLen (sp : Space) (a : Nat) (bs : List Byte) : (s.writeBytes sp a bs).outLen = s.outLen := s.setMem_outLen sp _
@[simp] theorem State.writeBytes_xlen (sp : Space) (a : Nat) (bs : List Byte) : (s.writeBytes sp a bs).xlen = s.xlen := s.setMem_xlen sp _
@[simp] theorem State.writeBytes_cfg (sp : Space) (a : Nat) (bs : List Byte) : (s.writeBytes sp a bs).cfg = s.cfg := s.setMem_cfg sp _
@[simp] theorem State.writeBytes_draws (sp : Space) (a : Nat) (bs : List Byte) : (s.writeBytes sp a bs).draws = s.draws := s.setMem_draws sp _
@[simp] theorem State.writeBytes_agenda (sp : Space) (a : Nat) (bs : List Byte) : (s.writeBytes sp a bs).agenda = s.agenda := s.setMem_agenda sp _
@[simp] theorem State.writeBytes_script (sp : Space) (a : Nat) (bs : List Byte) : (s.writeBytes sp a bs).script = s.script := s.setMem_script sp _
@[simp] theorem State.writeBytes_hostPc (sp : Space) (a : Nat) (bs : List Byte) : (s.writeBytes sp a bs).hostPc = s.hostPc := s.setMem_hostPc sp _
@[simp] theorem State.writeBytes_polls (sp : Space) (a : Nat) (bs : List Byte) : (s.writeBytes sp a bs).polls = s.polls := s.setMem_polls sp _
@[simp] theorem State.writeBytes_busData (sp : Space) (a : Nat) (bs : List Byte) : (s.writeBytes sp a bs).busData = s.busData := s.setMem_busData sp _

end

/-! ## Spaces -/

/-- The memory of every space after one is replaced. -/
@[simp] theorem State.setMem_mem (s : State) (sp sp' : Space) (m : Memory) :
    (s.setMem sp m).mem sp' = if sp' = sp then m else s.mem sp' := by
  cases sp <;> cases sp' <;> rfl

/-- The memory of every space after a write. -/
theorem State.writeBytes_mem (s : State) (sp sp' : Space) (a : Nat) (bs : List Byte) :
    (s.writeBytes sp a bs).mem sp'
      = if sp' = sp then Memory.setMany (unlisted s.cfg sp) a bs (s.mem sp) else s.mem sp' :=
  s.setMem_mem sp sp' _

/-- A cell of another space after a write. -/
theorem State.writeBytes_cell_other (s : State) {sp sp' : Space} (a : Nat) (bs : List Byte) (c : Nat)
    (h : sp' ≠ sp) : (s.writeBytes sp a bs).cell sp' c = s.cell sp' c := by
  simp [State.cell, State.writeBytes_mem, h]

/-- A cell of the written space after a write: inside the range the byte written, outside what it held. -/
theorem State.writeBytes_cell (s : State) (sp : Space) (a : Nat) (bs : List Byte) (c : Nat)
    (hm : Memory.wf (unlisted s.cfg sp) (s.mem sp) = true) :
    (s.writeBytes sp a bs).cell sp c
      = if a ≤ c ∧ c < a + bs.length then bs[c - a]? else s.cell sp c := by
  simp only [State.cell, State.writeBytes_cfg, State.writeBytes_mem, if_true]
  exact Memory.cell_setMany bs c (Nat.zero_le a) hm

/-- Writes of the block keep every space in canonical form. -/
theorem State.writeBytes_wf (s : State) (sp sp' : Space) (a : Nat) (bs : List Byte)
    (hm : Memory.wf (unlisted s.cfg sp') (s.mem sp') = true) :
    Memory.wf (unlisted (s.writeBytes sp a bs).cfg sp') ((s.writeBytes sp a bs).mem sp') = true := by
  rw [State.writeBytes_cfg, State.writeBytes_mem]
  split_ifs with h
  · subst h; exact Memory.rising_setMany bs (Nat.zero_le a) hm
  · exact hm

/-- A write inside a space's size keeps every listed offset below its space's size. -/
theorem State.writeBytes_below (s : State) (sp sp' : Space) (a : Nat) (bs : List Byte)
    (ha : a + bs.length ≤ Config.size s.cfg sp)
    (hm : Memory.below (Config.size s.cfg sp') (s.mem sp') = true) :
    Memory.below (Config.size (s.writeBytes sp a bs).cfg sp') ((s.writeBytes sp a bs).mem sp') = true := by
  rw [State.writeBytes_cfg, State.writeBytes_mem]
  split_ifs with h
  · subst h; exact Memory.below_setMany bs ha hm
  · exact hm

/-! ## Reads -/

@[simp] theorem State.readBytes_length (s : State) (site : ReadSite) (sp : Space) (a n : Nat) :
    (s.readBytes site sp a n).length = n := by
  induction n generalizing a with
  | zero => rfl
  | succ n ih => simp [State.readBytes, ih]

/-- A read of a written cell gives the value it holds, whatever the draws are. -/
theorem State.readByte_of_cell {s : State} {site : ReadSite} {sp : Space} {a : Nat} {b : Byte}
    (h : s.cell sp a = some b) : s.readByte site sp a = b := by
  simp [State.readByte, h]

/-- The bytes a read gives, one by one. -/
theorem State.readBytes_getElem? (s : State) (site : ReadSite) (sp : Space) (a n i : Nat) (h : i < n) :
    (s.readBytes site sp a n)[i]? = some (s.readByte site sp (a + i)) := by
  induction n generalizing a i with
  | zero => omega
  | succ n ih =>
    cases i with
    | zero => simp [State.readBytes]
    | succ i =>
      have := ih (a + 1) i (by omega)
      simpa [State.readBytes, Nat.add_assoc, Nat.add_comm 1 i] using this

/-- Two states that agree on the cells and the draw counter read alike. -/
theorem State.readByte_congr {s t : State} (site : ReadSite) {sp : Space} {a : Nat}
    (hc : t.cell sp a = s.cell sp a) (hd : t.draws = s.draws) : t.readByte site sp a = s.readByte site sp a := by
  simp [State.readByte, hc, hd]

theorem State.readBytes_congr {s t : State} (site : ReadSite) {sp : Space}
    (hc : ∀ a, t.cell sp a = s.cell sp a) (hd : t.draws = s.draws) (a n : Nat) :
    t.readBytes site sp a n = s.readBytes site sp a n := by
  induction n generalizing a with
  | zero => rfl
  | succ n ih => simp [State.readBytes, ih, State.readByte_congr site (hc a) hd]

end Sys2Proof.Machine
end

