-- ==== Sys2Proof/Laws/Stream.lean ====
section
/-! SUPPORT. What the reads of the stream can do: the cursor moves on, and nothing else changes. -/

namespace Sys2Proof.Machine

theorem wordOf_toNat (v : Word) : wordOf v.toNat = v := by simp

theorem wordOf_of_lt {n : Nat} (h : n < 2 ^ 32) : (wordOf n).toNat = n := by
  simpa using Nat.mod_eq_of_lt h

@[simp] theorem State.consume_zero (s : State) : s.consume 0 = s := by
  cases s; simp [State.consume]

/-- Consuming in two parts is consuming at once. -/
theorem State.consume_consume (s : State) (a b : Nat) : (s.consume a).consume b = s.consume (a + b) := by
  have h1 : wordOf ((wordOf (s.iptr.toNat + a)).toNat + b) = wordOf (s.iptr.toNat + (a + b)) := by
    apply BitVec.eq_of_toNat_eq; simp; omega
  have h2 : wordOf ((wordOf (s.trkRem.toNat - a)).toNat - b) = wordOf (s.trkRem.toNat - (a + b)) := by
    have := s.trkRem.isLt
    apply BitVec.eq_of_toNat_eq; simp; omega
  cases s; rename_i trkOpen _ _ _ _ _ _ _ _ _ _ _ _ _ _ _ _ _ _ _ _
  cases trkOpen <;> simp_all [State.consume]

theorem State.consume_iptr_toNat {s : State} {n : Nat} (h : n ≤ s.left) :
    (s.consume n).iptr.toNat = s.iptr.toNat + n := by
  have h1 := s.inLen.isLt
  have h2 := s.iptr.isLt
  simp only [State.left] at h
  rw [State.consume_iptr, wordOf_of_lt (by omega)]

theorem State.consume_left {s : State} {n : Nat} (h : n ≤ s.left) : (s.consume n).left = s.left - n := by
  have := State.consume_iptr_toNat h
  simp only [State.left] at h ⊢
  rw [this, State.consume_inLen]; omega

theorem State.status_eq (s : State) (b : Byte) : s.status b = { s.consume 1 with rs := b } := rfl

/-- Everything Next() can do. -/
theorem State.next1_cases (s : State) :
    (1 ≤ s.left ∧ s.next1 = .ok (s.readByte .next .input s.iptr.toNat) (s.consume 1))
      ∨ (s.left = 0 ∧ s.next1 = .trunc s) := by
  by_cases h : s.iptr.toNat < s.inLen.toNat
  · left; exact ⟨by simp only [State.left]; omega, by simp [State.next1, h]⟩
  · right; exact ⟨by simp only [State.left]; omega, by simp [State.next1, h]⟩

/-- Everything a look at the cursor can do. -/
theorem State.peek_cases (s : State) :
    (1 ≤ s.left ∧ s.peek = .ok (s.readByte .next .input s.iptr.toNat) s) ∨ (s.left = 0 ∧ s.peek = .trunc s) := by
  by_cases h : s.iptr.toNat < s.inLen.toNat
  · left; exact ⟨by simp only [State.left]; omega, by simp [State.peek, h]⟩
  · right; exact ⟨by simp only [State.left]; omega, by simp [State.peek, h]⟩

/-- Everything Skip(n) can do. -/
theorem State.skip_cases (s : State) (n : Nat) :
    (n ≤ s.left ∧ s.skip n = .ok () (s.consume n)) ∨ (s.left < n ∧ s.skip n = .trunc (s.consume s.left)) := by
  by_cases h : n ≤ s.left
  · left; exact ⟨h, by simp [State.skip, h]⟩
  · right; exact ⟨by omega, by simp [State.skip, h]⟩

/-- Everything ReadVLQ can do, with `k` bytes allowed. -/
theorem State.readVlqFrom_cases (k v : Nat) (s : State) :
    (∃ n m, 1 ≤ m ∧ m ≤ k ∧ m ≤ s.left ∧ State.readVlqFrom k v s = .ok n (s.consume m))
      ∨ (∃ m, m ≤ s.left ∧ State.readVlqFrom k v s = .trunc (s.consume m))
      ∨ (∃ m, m ≤ s.left ∧ State.readVlqFrom k v s = .malformed (s.consume m)) := by
  induction k generalizing v s with
  | zero => right; right; exact ⟨0, by omega, by simp [State.readVlqFrom]⟩
  | succ k ih =>
    rcases s.next1_cases with ⟨h, e⟩ | ⟨h, e⟩
    · by_cases hb : (s.readByte .next .input s.iptr.toNat).toNat < 0x80
      · left; exact ⟨_, 1, by omega, by omega, h, by simp only [State.readVlqFrom, e, hb, if_true]; rfl⟩
      · have hl := State.consume_left h
        rcases ih (v * 128 + (s.readByte .next .input s.iptr.toNat).toNat % 128) (s.consume 1) with
          ⟨n, m, h1, h2, h3, h4⟩ | ⟨m, h3, h4⟩ | ⟨m, h3, h4⟩
        · left
          refine ⟨n, 1 + m, by omega, by omega, by omega, ?_⟩
          simp only [State.readVlqFrom, e, hb, if_false, h4, State.consume_consume]
        · right; left
          refine ⟨1 + m, by omega, ?_⟩
          simp only [State.readVlqFrom, e, hb, if_false, h4, State.consume_consume]
        · right; right
          refine ⟨1 + m, by omega, ?_⟩
          simp only [State.readVlqFrom, e, hb, if_false, h4, State.consume_consume]
    · right; left; exact ⟨0, by omega, by simp [State.readVlqFrom, e]⟩

/-- Everything ReadVLQ can do. -/
theorem State.readVlq_cases (s : State) :
    (∃ n m, 1 ≤ m ∧ m ≤ 4 ∧ m ≤ s.left ∧ s.readVlq = .ok n (s.consume m))
      ∨ (∃ m, m ≤ s.left ∧ s.readVlq = .trunc (s.consume m))
      ∨ (∃ m, m ≤ s.left ∧ s.readVlq = .malformed (s.consume m)) :=
  State.readVlqFrom_cases vlqMaxBytes 0 s

/-- A byte found in IN lies in the range searched, and a read at it gives the byte. -/
theorem State.findByte_some {s : State} {site : ReadSite} {b : Byte} {a n j : Nat}
    (h : s.findByte site b a n = some j) : a ≤ j ∧ j < a + n ∧ s.readByte site .input j = b := by
  induction n generalizing a with
  | zero => simp [State.findByte] at h
  | succ n ih =>
    simp only [State.findByte] at h
    split_ifs at h with hb
    · cases h; exact ⟨by omega, by omega, hb⟩
    · obtain ⟨h1, h2, h3⟩ := ih h; exact ⟨by omega, by omega, h3⟩

/-- The search gives the first offset of the range at which a read gives the byte. -/
theorem State.findByte_eq_some {s : State} {site : ReadSite} {b : Byte} {a n j : Nat} (h1 : a ≤ j) (h2 : j < a + n)
    (h3 : s.readByte site .input j = b) (h4 : ∀ k, a ≤ k → k < j → s.readByte site .input k ≠ b) :
    s.findByte site b a n = some j := by
  induction n generalizing a with
  | zero => omega
  | succ n ih =>
    simp only [State.findByte]
    by_cases h : a = j
    · subst h; simp [h3]
    · rw [if_neg (h4 a (Nat.le_refl a) (by omega))]
      exact ih (by omega) (by omega) (fun k hk hj => h4 k (by omega) hj)

/-- The search gives nothing where no read of the range gives the byte. -/
theorem State.findByte_eq_none {s : State} {site : ReadSite} {b : Byte} {a n : Nat}
    (h : ∀ k, a ≤ k → k < a + n → s.readByte site .input k ≠ b) : s.findByte site b a n = none := by
  induction n generalizing a with
  | zero => rfl
  | succ n ih =>
    simp only [State.findByte]
    rw [if_neg (h a (Nat.le_refl a) (by omega))]
    exact ih (fun k hk hj => h k (by omega) (by omega))

/-- A search reads nothing but IN and the draws. -/
theorem State.findByte_congr {s t : State} {site : ReadSite} {b : Byte}
    (h : ∀ k, t.readByte site .input k = s.readByte site .input k) (a n : Nat) :
    t.findByte site b a n = s.findByte site b a n := by
  induction n generalizing a with
  | zero => rfl
  | succ n ih => simp only [State.findByte, h, ih]

end Sys2Proof.Machine
end

