-- ==== Sys2Proof/Laws/Demux.lean ====
section
/-! SUPPORT. What the stream elements and the demultiplexer's loop can do: what an element that goes on leaves behind,
that the loop ends, and what no element touches. -/

namespace Sys2Proof.Machine

/-! ## Results of the reads, handled -/

theorem Sig.orEnd_go {α : Type} {r : Sig α} {f : α → State → Flow} {u : State} (h : r.orEnd f = .go u) :
    ∃ v t, r = .ok v t ∧ f v t = .go u := by
  cases r with
  | ok v t => exact ⟨v, t, rfl, h⟩
  | trunc t => simp [Sig.orEnd] at h
  | malformed t => simp [Sig.orEnd] at h

theorem Sig.orEnd_raise {α : Type} {r : Sig α} {f : α → State → Flow} {e : Fatal} (h : r.orEnd f = .raise e) :
    ∃ v t, r = .ok v t ∧ f v t = .raise e := by
  cases r with
  | ok v t => exact ⟨v, t, rfl, h⟩
  | trunc t => simp [Sig.orEnd] at h
  | malformed t => simp [Sig.orEnd] at h

theorem State.skip_ok {s t : State} {n : Nat} {v : Unit} (h : s.skip n = .ok v t) : n ≤ s.left ∧ t = s.consume n := by
  rcases s.skip_cases n with ⟨h1, h2⟩ | ⟨h1, h2⟩
  · rw [h2] at h; cases h; exact ⟨h1, rfl⟩
  · rw [h2] at h; cases h

theorem State.next1_ok {s t : State} {b : Byte} (h : s.next1 = .ok b t) : 1 ≤ s.left ∧ t = s.consume 1 := by
  rcases s.next1_cases with ⟨h1, h2⟩ | ⟨h1, h2⟩
  · rw [h2] at h; cases h; exact ⟨h1, rfl⟩
  · rw [h2] at h; cases h

theorem State.peek_ok {s t : State} {b : Byte} (h : s.peek = .ok b t) :
    1 ≤ s.left ∧ t = s ∧ b = s.readByte .next .input s.iptr.toNat := by
  rcases s.peek_cases with ⟨h1, h2⟩ | ⟨h1, h2⟩
  · rw [h2] at h; cases h; exact ⟨h1, rfl, rfl⟩
  · rw [h2] at h; cases h

theorem State.readVlq_ok {s t : State} {n : Nat} (h : s.readVlq = .ok n t) :
    ∃ m, 1 ≤ m ∧ m ≤ s.left ∧ t = s.consume m := by
  rcases s.readVlq_cases with ⟨n', m, h1, _, h3, h4⟩ | ⟨m, _, h4⟩ | ⟨m, _, h4⟩
  · rw [h4] at h; cases h; exact ⟨m, h1, h3, rfl⟩
  · rw [h4] at h; cases h
  · rw [h4] at h; cases h

/-! ## Elements that go on -/

/-- `t` is `s` with between 1 and all the bytes left consumed, and RS written or not. -/
def Advanced (s t : State) : Prop := ∃ m r, 1 ≤ m ∧ m ≤ s.left ∧ t = { s.consume m with rs := r }

theorem State.rs_self (s : State) : { s with rs := s.rs } = s := rfl

theorem Advanced.consume {s : State} {m : Nat} (h1 : 1 ≤ m) (h2 : m ≤ s.left) : Advanced s (s.consume m) :=
  ⟨m, s.rs, h1, h2, rfl⟩

theorem skipEvent_go {b : Byte} {n : Nat} {s u : State} (hl : 1 ≤ s.left) (h : skipEvent b n s = .go u) :
    1 + n ≤ s.left ∧ u = { s.consume (1 + n) with rs := b } := by
  obtain ⟨v, t, h1, h2⟩ := Sig.orEnd_go h
  obtain ⟨h3, rfl⟩ := State.skip_ok h1
  cases h2
  have h4 : (s.status b).left = s.left - 1 := by simpa [State.left, State.status] using State.consume_left hl
  refine ⟨by omega, ?_⟩
  rw [← State.consume_consume]
  rfl

theorem skipEvent_advanced {b : Byte} {n : Nat} {s u : State} (hl : 1 ≤ s.left) (h : skipEvent b n s = .go u) :
    Advanced s u := by
  obtain ⟨h1, h2⟩ := skipEvent_go hl h
  exact ⟨1 + n, b, by omega, h1, h2⟩

theorem smfRunningDataBody_go {d : BitVec 7} {s u : State} (hl : 1 ≤ s.left) (h : smfRunningDataBody d s = .go u) :
    Advanced s u := by
  simp only [smfRunningDataBody] at h
  split at h
  · obtain ⟨v, t, h1, h2⟩ := Sig.orEnd_go h
    obtain ⟨h3, rfl⟩ := State.skip_ok h1
    cases h2
    rw [State.consume_left hl] at h3
    rw [State.consume_consume]
    exact Advanced.consume (by omega) (by omega)
  · cases h

theorem smfMetaBody_go {s u : State} (hl : 1 ≤ s.left) (h : smfMetaBody s = .go u) : Advanced s u := by
  obtain ⟨_, t1, h1, h⟩ := Sig.orEnd_go h
  obtain ⟨l1, rfl⟩ := State.next1_ok h1
  obtain ⟨n, t2, h2, h⟩ := Sig.orEnd_go h
  obtain ⟨m, _, l2, rfl⟩ := State.readVlq_ok h2
  obtain ⟨_, t3, h3, h⟩ := Sig.orEnd_go h
  obtain ⟨l3, rfl⟩ := State.skip_ok h3
  cases h
  rw [State.consume_left l2] at l3
  rw [State.consume_left l1] at l2 l3
  rw [State.consume_left hl] at l1 l2 l3
  simp only [State.consume_consume]
  exact Advanced.consume (by omega) (by omega)

/-- A SysEx payload ends the command. -/
theorem sysexPayload_ne_go (n : Nat) (s u : State) : sysexPayload n s ≠ .go u := by
  simp only [sysexPayload]
  split_ifs <;> simp

theorem sysexEvent_ne_go (b : Byte) (s u : State) : sysexEvent b s ≠ .go u := fun h => by
  obtain ⟨n, t, _, h⟩ := Sig.orEnd_go h
  exact sysexPayload_ne_go n t u h

/-- An event that goes on has consumed at least its first byte, and changed nothing but the cursor, TRK_REM and RS. -/
theorem eventBody_go {i : Instr} {s u : State} (hl : 1 ≤ s.left) (h : eventBody i s = .go u) : Advanced s u := by
  cases i <;> simp only [eventBody, smfCh8Body, smfCh9Body, smfChABody, smfChBBody, smfProgramChangeBody,
      smfChannelPressureBody, smfChEBody, smfMtcQuarterFrameBody, smfSongPositionBody, smfSongSelectBody,
      smfUndefinedCommonBody, smfTuneRequestBody, smfRealtimeBody, smfSysexStartBody, smfSysexEscapeBody] at h <;>
    first
    | exact skipEvent_advanced hl h
    | exact smfRunningDataBody_go hl h
    | exact smfMetaBody_go hl h
    | exact absurd h (sysexEvent_ne_go _ _ _)
    | cases h

/-- A track event that goes on has consumed at least two bytes. -/
theorem trackEvent_go {s u : State} (h : trackEvent s = .go u) :
    ∃ m r, 2 ≤ m ∧ m ≤ s.left ∧ u = { s.consume m with rs := r } := by
  obtain ⟨_, t1, h1, h⟩ := Sig.orEnd_go h
  obtain ⟨m, l0, l1, rfl⟩ := State.readVlq_ok h1
  obtain ⟨b, t2, h2, h⟩ := Sig.orEnd_go h
  obtain ⟨l2, rfl, _⟩ := State.peek_ok h2
  obtain ⟨m', r, l3, l4, rfl⟩ := eventBody_go l2 h
  rw [State.consume_left l1] at l4
  exact ⟨m + m', r, by omega, by omega, by rw [State.consume_consume]⟩

/-- An opened track has consumed an 8-byte header. -/
theorem openTrack_go {s u : State} (h : openTrack s = .go u) : 8 ≤ s.left ∧ ∃ len, u =
    { s with trkRem := len, iptr := wordOf (s.iptr.toNat + 8), trkOpen := true, rs := 0 } := by
  simp only [openTrack] at h
  split_ifs at h with h1 h2
  · cases h
  · split at h
    · simp only [chunkMtrkBody, h2, if_false] at h
      cases h
      exact ⟨by omega, _, rfl⟩
    · cases h

/-! ## Termination (R156) -/

/-- What every iteration that goes on makes smaller. -/
def loopMeasure (s : State) : Nat := 2 * s.left + if s.trkOpen then 1 else 0

theorem iptr_add_toNat {s : State} {n : Nat} (h : n ≤ s.left) : (wordOf (s.iptr.toNat + n)).toNat = s.iptr.toNat + n :=
  State.consume_iptr_toNat h

theorem smfIteration_measure {s u : State} (h : smfIteration s = .go u) : loopMeasure u < loopMeasure s := by
  simp only [smfIteration] at h
  split_ifs at h with h1 h2 h3
  · cases h
    simp [loopMeasure, State.left, h1]
  · obtain ⟨m, r, h4, h5, rfl⟩ := trackEvent_go h
    have h6 : (s.consume m).left = s.left - m := State.consume_left h5
    show loopMeasure (s.consume m) < _
    cases ht : s.trkOpen <;> simp [loopMeasure, h6, ht] <;> omega
  · obtain ⟨h4, len, rfl⟩ := openTrack_go h
    have h5 := iptr_add_toNat h4
    simp only [loopMeasure, State.left] at h4 ⊢
    simp only [h5, if_true]; omega

theorem smfLoop_of_measure (k : Nat) (s : State) (h : loopMeasure s < k) : ∃ v, smfLoop k s = some v := by
  induction k generalizing s with
  | zero => omega
  | succ k ih =>
    simp only [smfLoop]
    split
    · rename_i t e
      exact ih t (by have := smfIteration_measure e; omega)
    · exact ⟨_, rfl⟩
    · exact ⟨_, rfl⟩

theorem loopMeasure_lt (s : State) : loopMeasure s < 2 * s.inLen.toNat + 2 := by
  simp only [loopMeasure, State.left]; split_ifs <;> omega

/-- The loop ends within the iterations R156 allows, in every state. -/
theorem smfLoop_terminates (s : State) : ∃ v, smfNext s = some v :=
  smfLoop_of_measure _ s (loopMeasure_lt s)

/-- More iterations than the loop needs change nothing. -/
theorem smfLoop_mono {k k' : Nat} {s : State} {v : Verdict} (hk : k ≤ k') (h : smfLoop k s = some v) :
    smfLoop k' s = some v := by
  induction k generalizing k' s with
  | zero => simp [smfLoop] at h
  | succ k ih =>
    obtain ⟨k', rfl⟩ : ∃ j, k' = j + 1 := ⟨k' - 1, by omega⟩
    simp only [smfLoop] at h ⊢
    split at h
    · rename_i t e; exact ih (by omega) h
    · exact h
    · exact h

/-- One iteration unrolled: the loop from the state an iteration leaves is the rest of the loop. -/
theorem smfNext_eq (s : State) : smfNext s =
    match smfIteration s with
    | .go t => smfNext t
    | .done t => some (.done t)
    | .raise e => some (.raise e) := by
  obtain ⟨v, hv⟩ := smfLoop_terminates s
  rw [hv]
  rw [smfNext, smfLoop] at hv
  cases e : smfIteration s with
  | go t =>
    rw [e] at hv
    obtain ⟨w, hw⟩ := smfLoop_terminates t
    dsimp only at hv ⊢
    rw [hw]
    simp only [smfNext] at hw
    rcases Nat.le_total (2 * s.inLen.toNat + 1) (2 * t.inLen.toNat + 2) with h | h
    · rw [smfLoop_mono h hv] at hw; exact hw
    · rw [smfLoop_mono h hw] at hv; exact hv.symm
  | done t =>
    rw [e] at hv
    exact hv.symm
  | raise x =>
    rw [e] at hv
    exact hv.symm

/-- DEMUX_NEXT's rule gives a verdict in every state. -/
theorem demuxNextBody_terminates (s : State) : ∃ v, demuxNextBody s = some v := by
  simp only [demuxNextBody]
  split
  · split_ifs
    · simp only [smfStart]
      split
      · exact smfLoop_terminates _
      · exact ⟨_, rfl⟩
      · exact ⟨_, rfl⟩
    · exact ⟨_, rfl⟩
  · exact ⟨_, rfl⟩
  · exact smfLoop_terminates s
  · exact ⟨_, rfl⟩

/-! ## Induction over the loop -/

/-- What every iteration keeps holds of what the loop ends in. -/
theorem smfNext_induct {P Q : State → Prop} {R : Fatal → Prop}
    (hgo : ∀ s t, P s → smfIteration s = .go t → P t) (hdone : ∀ s t, P s → smfIteration s = .done t → Q t)
    (hraise : ∀ s e, P s → smfIteration s = .raise e → R e) {s : State} (hs : P s) :
    match smfNext s with
    | some (.done t) => Q t
    | some (.raise e) => R e
    | none => False := by
  have key : ∀ k s, P s → ∀ v, smfLoop k s = some v → match v with | .done t => Q t | .raise e => R e := by
    intro k
    induction k with
    | zero => intro s _ v h; simp [smfLoop] at h
    | succ k ih =>
      intro s hs v h
      simp only [smfLoop] at h
      split at h
      · rename_i t e; exact ih t (hgo s t hs e) v h
      · rename_i t e; cases h; exact hdone s t hs e
      · rename_i t e; cases h; exact hraise s _ hs e
  obtain ⟨v, hv⟩ := smfLoop_terminates s
  rw [hv]
  have := key _ s hs v hv
  cases v <;> exact this

/-! ## What no element touches -/

/-- `t` differs from `s` at most in SDX state, the message, the warnings and the results. -/
structure DemuxOnly (s t : State) : Prop where
  hostSide : SameHostSide s t
  errors : SameErrors s t
  image : SameImage s t
  sinks : SameSinks s t
  status : t.busy = s.busy ∧ t.last = s.last ∧ t.inLen = s.inLen ∧ t.draws = s.draws
  mem : ∀ sp, sp ≠ .msg → t.mem sp = s.mem sp

theorem DemuxOnly.refl (s : State) : DemuxOnly s s :=
  ⟨⟨rfl, rfl, rfl, rfl, rfl, rfl, rfl, rfl, rfl⟩, ⟨rfl, rfl, rfl, rfl⟩, ⟨rfl, rfl⟩, ⟨rfl, rfl⟩, ⟨rfl, rfl, rfl, rfl⟩,
    fun _ _ => rfl⟩

theorem DemuxOnly.trans {s t u : State} (h1 : DemuxOnly s t) (h2 : DemuxOnly t u) : DemuxOnly s u := by
  obtain ⟨⟨a1, a2, a3, a4, a5, a6, a7, a8, a9⟩, ⟨b1, b2, b3, b4⟩, ⟨c1, c2⟩, ⟨d1, d2⟩, ⟨e1, e2, e3, e4⟩, f⟩ := h1
  obtain ⟨⟨a1', a2', a3', a4', a5', a6', a7', a8', a9'⟩, ⟨b1', b2', b3', b4'⟩, ⟨c1', c2'⟩, ⟨d1', d2'⟩,
    ⟨e1', e2', e3', e4'⟩, f'⟩ := h2
  exact ⟨⟨a1'.trans a1, a2'.trans a2, a3'.trans a3, a4'.trans a4, a5'.trans a5, a6'.trans a6, a7'.trans a7,
    a8'.trans a8, a9'.trans a9⟩, ⟨b1'.trans b1, b2'.trans b2, b3'.trans b3, b4'.trans b4⟩, ⟨c1'.trans c1, c2'.trans c2⟩,
    ⟨d1'.trans d1, d2'.trans d2⟩, ⟨e1'.trans e1, e2'.trans e2, e3'.trans e3, e4'.trans e4⟩,
    fun sp h => (f' sp h).trans (f sp h)⟩

/-- One update by SDX. -/
theorem DemuxOnly.update {s : State} (iptr : Word) (dmode : DMode) (isOpen : Bool) (rs : Byte)
    (trkRem msgLen msgPos warn wcnt res0 res1 : Word) (m : Memory) :
    DemuxOnly s { s with
      iptr := iptr, dmode := dmode, trkOpen := isOpen, rs := rs, trkRem := trkRem, msgLen := msgLen,
      msgPos := msgPos, warn := warn, wcnt := wcnt, res0 := res0, res1 := res1, msgMem := m } :=
  ⟨⟨rfl, rfl, rfl, rfl, rfl, rfl, rfl, rfl, rfl⟩, ⟨rfl, rfl, rfl, rfl⟩, ⟨rfl, rfl⟩, ⟨rfl, rfl⟩, ⟨rfl, rfl, rfl, rfl⟩,
    fun sp h => by cases sp <;> first | rfl | exact absurd rfl h⟩

/-- The end of the input after a signal. -/
theorem DemuxOnly.closed (s : State) (w : Warning) : DemuxOnly s (s.warnOn w).ended.noMessage :=
  DemuxOnly.update _ _ _ _ _ _ _ _ _ _ _ _

theorem DemuxOnly.consume (s : State) (n : Nat) : DemuxOnly s (s.consume n) :=
  DemuxOnly.update _ _ _ _ _ _ _ _ _ _ _ _

theorem DemuxOnly.copyPayload (s : State) (k : Nat) : DemuxOnly s (s.copyPayload k) :=
  DemuxOnly.update _ _ _ _ _ _ _ _ _ _ _ _

theorem DemuxOnly.warnOn (s : State) (w : Warning) : DemuxOnly s (s.warnOn w) :=
  DemuxOnly.update _ _ _ _ _ _ _ _ _ _ _ _

theorem DemuxOnly.ended (s : State) : DemuxOnly s s.ended := DemuxOnly.update _ _ _ _ _ _ _ _ _ _ _ _

theorem DemuxOnly.deliver (s : State) : DemuxOnly s s.deliver := DemuxOnly.update _ _ _ _ _ _ _ _ _ _ _ _

/-- A flow whose states differ from `s` in nothing but what SDX writes. -/
def Flow.Frames (s : State) : Flow → Prop
  | .go t => DemuxOnly s t
  | .done t => DemuxOnly s t
  | .raise _ => True

theorem Sig.orEnd_frames {α : Type} {s : State} {r : Sig α} {f : α → State → Flow}
    (hok : ∀ v t, r = .ok v t → (f v t).Frames s)
    (hend : ∀ t, r = .trunc t ∨ r = .malformed t → DemuxOnly s t) : (r.orEnd f).Frames s := by
  cases r with
  | ok v t => exact hok v t rfl
  | trunc t => exact (hend t (.inl rfl)).trans (DemuxOnly.closed t _)
  | malformed t => exact (hend t (.inr rfl)).trans (DemuxOnly.closed t _)

theorem skip_frames {s t : State} (h : DemuxOnly s t) (n : Nat) {f : Unit → State → Flow}
    (hf : ∀ u, DemuxOnly s u → (f () u).Frames s) : ((t.skip n).orEnd f).Frames s := by
  rcases t.skip_cases n with ⟨_, h2⟩ | ⟨_, h2⟩ <;> rw [h2]
  · exact hf _ (h.trans (DemuxOnly.consume t _))
  · exact (h.trans (DemuxOnly.consume t _)).trans (DemuxOnly.closed _ _)

theorem readVlq_frames {s t : State} (h : DemuxOnly s t) {f : Nat → State → Flow}
    (hf : ∀ n u, DemuxOnly s u → (f n u).Frames s) : (t.readVlq.orEnd f).Frames s := by
  rcases t.readVlq_cases with ⟨n, m, _, _, _, h4⟩ | ⟨m, _, h4⟩ | ⟨m, _, h4⟩ <;> rw [h4]
  · exact hf _ _ (h.trans (DemuxOnly.consume t _))
  · exact (h.trans (DemuxOnly.consume t _)).trans (DemuxOnly.closed _ _)
  · exact (h.trans (DemuxOnly.consume t _)).trans (DemuxOnly.closed _ _)

theorem DemuxOnly.statusRead (s : State) (b : Byte) : DemuxOnly s (s.status b) :=
  DemuxOnly.update _ _ _ _ _ _ _ _ _ _ _ _

theorem skipEvent_frames (b : Byte) (n : Nat) (s : State) : (skipEvent b n s).Frames s :=
  skip_frames (DemuxOnly.statusRead s b) n fun _ h => h

theorem smfRunningDataBody_frames (d : BitVec 7) (s : State) : (smfRunningDataBody d s).Frames s := by
  simp only [smfRunningDataBody]
  split
  · exact skip_frames (DemuxOnly.consume s 1) _ fun _ h => h
  · exact (DemuxOnly.consume s 1).trans (DemuxOnly.closed _ _)

theorem smfMetaBody_frames (s : State) : (smfMetaBody s).Frames s := by
  have h := DemuxOnly.consume s 1
  simp only [smfMetaBody]
  rcases (s.consume 1).next1_cases with ⟨_, e⟩ | ⟨_, e⟩ <;> rw [e]
  · exact readVlq_frames (h.trans (DemuxOnly.consume _ 1)) fun n _ hu => skip_frames hu n fun _ hv => hv
  · exact h.trans (DemuxOnly.closed _ _)

theorem sysexPayload_frames {s t : State} (h : DemuxOnly s t) (n : Nat) : (sysexPayload n t).Frames s := by
  simp only [sysexPayload]
  split_ifs
  · trivial
  · exact ((((h.trans (DemuxOnly.copyPayload t _)).trans (DemuxOnly.warnOn _ _)).trans (DemuxOnly.ended _)).trans
      (DemuxOnly.warnOn _ _)).trans (DemuxOnly.deliver _)
  · exact (h.trans (DemuxOnly.copyPayload t _)).trans (DemuxOnly.deliver _)
  · exact ((h.trans (DemuxOnly.copyPayload t _)).trans (DemuxOnly.warnOn _ _)).trans (DemuxOnly.deliver _)

theorem sysexEvent_frames (b : Byte) (s : State) : (sysexEvent b s).Frames s :=
  readVlq_frames (DemuxOnly.statusRead s b) fun n _ h => sysexPayload_frames h n

theorem eventBody_frames (i : Instr) (s : State) : (eventBody i s).Frames s := by
  cases i <;> simp only [eventBody, smfCh8Body, smfCh9Body, smfChABody, smfChBBody, smfProgramChangeBody,
      smfChannelPressureBody, smfChEBody, smfMtcQuarterFrameBody, smfSongPositionBody, smfSongSelectBody,
      smfUndefinedCommonBody, smfTuneRequestBody, smfRealtimeBody, smfSysexStartBody, smfSysexEscapeBody] <;>
    first
    | exact skipEvent_frames _ _ s
    | exact smfRunningDataBody_frames _ s
    | exact smfMetaBody_frames s
    | exact sysexEvent_frames _ s
    | exact DemuxOnly.closed s _

theorem vlqBody_frames (groups : List (BitVec 7)) (s : State) : (vlqBody groups s).Frames s := by
  simp only [vlqBody]
  split_ifs
  · exact skip_frames (DemuxOnly.refl s) _ fun _ h => h
  · exact skip_frames (DemuxOnly.refl s) _ fun _ h => h.trans (DemuxOnly.closed _ _)

theorem badHeader_frames (s : State) : (badHeader s).Frames s := DemuxOnly.closed s _

theorem chunkMthdBody_frames (s : State) : (chunkMthdBody s).Frames s := by
  simp only [chunkMthdBody]
  split_ifs
  · exact badHeader_frames s
  · exact badHeader_frames s
  · exact DemuxOnly.update _ _ _ _ _ _ _ _ _ _ _ _

theorem chunkMtrkBody_frames (s : State) : (chunkMtrkBody s).Frames s := by
  simp only [chunkMtrkBody]
  split_ifs
  · exact badHeader_frames s
  · exact DemuxOnly.update _ _ _ _ _ _ _ _ _ _ _ _

theorem smfIteration_frames (s : State) : (smfIteration s).Frames s := by
  simp only [smfIteration]
  split_ifs
  · exact DemuxOnly.update _ _ _ _ _ _ _ _ _ _ _ _
  · exact DemuxOnly.update _ _ _ _ _ _ _ _ _ _ _ _
  · refine readVlq_frames (DemuxOnly.refl s) fun _ t h => ?_
    rcases t.peek_cases with ⟨_, e⟩ | ⟨_, e⟩ <;> rw [e]
    · have := eventBody_frames (decodeStatus (t.readByte .next .input t.iptr.toNat)) t
      simp only [Sig.orEnd]
      revert this
      cases eventBody (decodeStatus (t.readByte .next .input t.iptr.toNat)) t with
      | go u => exact fun this => h.trans this
      | done u => exact fun this => h.trans this
      | raise e => exact id
    · exact h.trans (DemuxOnly.closed _ _)
  · simp only [openTrack]
    split_ifs
    · exact DemuxOnly.update _ _ _ _ _ _ _ _ _ _ _ _
    · exact badHeader_frames s
    · split
      · exact chunkMtrkBody_frames s
      · exact badHeader_frames s

theorem smfNext_frames {s t u : State} (h : DemuxOnly s t) (hv : smfNext t = some (.done u)) : DemuxOnly s u := by
  have := smfNext_induct (P := DemuxOnly s) (Q := DemuxOnly s) (R := fun _ => True)
    (fun a b ha e => by have := smfIteration_frames a; rw [e] at this; exact ha.trans this)
    (fun a b ha e => by have := smfIteration_frames a; rw [e] at this; exact ha.trans this)
    (fun _ _ _ _ => trivial) h
  rwa [hv] at this

theorem rawSysexBody_frames (s : State) : (rawSysexBody s).Frames s := by
  simp only [rawSysexBody]
  cases s.findByte .rawFind endMarker (s.iptr.toNat + 1) (s.inLen.toNat - (s.iptr.toNat + 1)) <;>
    (simp only
     split_ifs
     · trivial
     · exact DemuxOnly.update _ _ _ _ _ _ _ _ _ _ _ _)

theorem rawNext_frames {s t u : State} (h : DemuxOnly s t) (hv : rawNext t = .done u) : DemuxOnly s u := by
  simp only [rawNext] at hv
  cases e : t.findByte .rawScan startMarker t.iptr.toNat t.left with
  | none =>
    rw [e] at hv; cases hv
    exact h.trans (DemuxOnly.update _ _ _ _ _ _ _ _ _ _ _ _)
  | some j =>
    rw [e] at hv
    have h1 : DemuxOnly t { t with iptr := wordOf j } := DemuxOnly.update _ _ _ _ _ _ _ _ _ _ _ _
    have h2 := rawSysexBody_frames { t with iptr := wordOf j }
    revert h2
    cases hb : rawSysexBody { t with iptr := wordOf j } with
    | go v => intro h2; simp only [hb, Flow.verdict] at hv; cases hv; exact (h.trans h1).trans h2
    | done v => intro h2; simp only [hb, Flow.verdict] at hv; cases hv; exact (h.trans h1).trans h2
    | raise e => simp [hb, Flow.verdict] at hv

/-- DEMUX_NEXT writes SDX state, the message, the warnings and the results, and nothing else. -/
theorem demuxNextBody_frames {s t : State} (hv : demuxNextBody s = some (.done t)) : DemuxOnly s t := by
  have hm (m : DMode) : DemuxOnly s { s with dmode := m } := DemuxOnly.update _ _ _ _ _ _ _ _ _ _ _ _
  simp only [demuxNextBody] at hv
  split at hv
  · split_ifs at hv
    · simp only [smfStart] at hv
      have h1 := chunkMthdBody_frames { s with dmode := .smf }
      split at hv <;> rename_i e <;> rw [e] at h1
      · exact smfNext_frames ((hm .smf).trans h1) hv
      · cases hv; exact (hm .smf).trans h1
      · cases hv
    · exact rawNext_frames (hm .raw) (Option.some.inj hv)
  · exact rawNext_frames (DemuxOnly.refl s) (Option.some.inj hv)
  · exact smfNext_frames (DemuxOnly.refl s) hv
  · cases hv; exact DemuxOnly.update _ _ _ _ _ _ _ _ _ _ _ _

end Sys2Proof.Machine
end

