-- ==== Sys2Proof/Laws/Invariant.lean ====
section
/-! SUPPORT. The invariant, operation by operation. -/

namespace Sys2Proof.Machine

/-! ## Spaces -/

theorem State.SpaceOk.writeBytes {s : State} {sp sp' : Space} {a : Nat} {bs : List Byte} (h : s.SpaceOk sp')
    (ha : a + bs.length ≤ Config.size s.cfg sp) : (s.writeBytes sp a bs).SpaceOk sp' :=
  ⟨s.writeBytes_wf sp sp' a bs h.1, s.writeBytes_below sp sp' a bs ha h.2⟩

/-- A written range is written. -/
theorem State.Written.writeBytes_self {s : State} {sp : Space} {a : Nat} {bs : List Byte} (h : s.SpaceOk sp) :
    (s.writeBytes sp a bs).Written sp a bs.length := fun i hi => by
  rw [s.writeBytes_cell sp a bs (a + i) h.1]
  simp [hi]

/-- A write takes no value away. -/
theorem State.Written.writeBytes {s : State} {sp sp' : Space} {a lo n : Nat} {bs : List Byte} (hok : s.SpaceOk sp)
    (h : s.Written sp' lo n) : (s.writeBytes sp a bs).Written sp' lo n := fun i hi => by
  by_cases e : sp' = sp
  · subst e
    rw [s.writeBytes_cell sp' a bs (lo + i) hok.1]
    split_ifs with hr
    · rw [List.getElem?_eq_getElem (by omega)]; rfl
    · exact h i hi
  · rw [s.writeBytes_cell_other a bs (lo + i) e]; exact h i hi

/-! ## Warnings -/

theorem Warning.mask_bounds (w : Warning) : w.mask.toNat < 256 ∧ w.mask ≠ 0 := by
  cases w <;> decide

theorem warn_or_bounds {v : Word} (h : v.toNat < 256) (w : Warning) : (v ||| w.mask).toNat < 256 := by
  rw [BitVec.toNat_or]
  exact Nat.or_lt_two_pow (n := 8) h w.mask_bounds.1

theorem warn_or_ne_zero (v : Word) (w : Warning) : v ||| w.mask ≠ 0 := fun h => by
  have h0 : v ||| w.mask = 0#32 := h
  rw [BitVec.or_eq_zero_iff] at h0
  exact w.mask_bounds.2 h0.2

theorem saturatingSucc_ne_zero (v : Word) : saturatingSucc v ≠ 0 := by
  simp only [saturatingSucc]
  split_ifs with h
  · rw [h]; decide
  · intro e
    have h1 := v.isLt
    have h2 := congrArg BitVec.toNat e
    have h3 : v.toNat ≠ 4294967295 := fun x => h (BitVec.eq_of_toNat_eq x)
    simp at h2
    omega

/-! ## One update at a time -/

namespace State.Inv
variable {s : State}

theorem warnOn (h : s.Inv) (w : Warning) : (s.warnOn w).Inv :=
  ⟨h.cfgValid, h.spaces, h.cursor, h.message, h.output, h.expansion, h.snapshots, h.unlatched, h.errors,
    ⟨warn_or_bounds h.warnings.1 w, iff_of_false (warn_or_ne_zero _ w) (saturatingSucc_ne_zero _)⟩, h.stream⟩

theorem results (h : s.Inv) (a b : Word) : (s.results a b).Inv :=
  ⟨h.cfgValid, h.spaces, h.cursor, h.message, h.output, h.expansion, h.snapshots, h.unlatched, h.errors,
    h.warnings, h.stream⟩

theorem ended (h : s.Inv) : s.ended.Inv :=
  ⟨h.cfgValid, h.spaces, h.cursor, h.message, h.output, h.expansion, h.snapshots, h.unlatched, h.errors,
    h.warnings, by simp [State.ended]⟩

theorem noMessage (h : s.Inv) : s.noMessage.Inv :=
  ⟨h.cfgValid, h.spaces, h.cursor, ⟨by simp [State.noMessage], by simp [State.noMessage], fun i hi => by simp [State.noMessage] at hi⟩,
    h.output, h.expansion, h.snapshots, h.unlatched, h.errors, h.warnings,
    ⟨fun e => let f := h.stream.1 e; ⟨f.1, f.2.1, f.2.2.1, f.2.2.2.1, rfl, rfl⟩, h.stream.2⟩⟩

theorem deliver (h : s.Inv) : s.deliver.Inv :=
  ⟨h.cfgValid, h.spaces, h.cursor, h.message, h.output, h.expansion, h.snapshots, h.unlatched, h.errors,
    h.warnings, h.stream⟩

theorem complete (h : s.Inv) (hh : s.halt = false) : s.complete.Inv :=
  ⟨h.cfgValid, h.spaces, h.cursor, h.message, h.output, h.expansion, h.snapshots, h.unlatched,
    ⟨h.errors.1, h.errors.2.1, by simp [State.complete, hh]⟩, h.warnings, h.stream⟩

theorem refuse (h : s.Inv) (hh : s.halt = true) : s.refuse.Inv :=
  ⟨h.cfgValid, h.spaces, h.cursor, h.message, h.output, h.expansion, h.snapshots, h.unlatched,
    ⟨h.errors.1, h.errors.2.1, by simp [State.refuse, hh]⟩, h.warnings, h.stream⟩

theorem takeFatal (h : s.Inv) {e : Fatal} (he : e.code ≠ .none) : (s.takeFatal e).Inv :=
  ⟨h.cfgValid, h.spaces, h.cursor, h.message, h.output, h.expansion, h.snapshots, h.unlatched,
    ⟨by simp [State.takeFatal, he], by simp [State.takeFatal, he], by simp [State.takeFatal]⟩, h.warnings, h.stream⟩

/-- The stream's own registers may take any values the cursor's bound allows, once DMODE is SMF. -/
theorem smf (h : s.Inv) {iptr rem : Word} {isOpen : Bool} {rs : Byte} (hi : iptr.toNat ≤ s.inLen.toNat) :
    ({ s with iptr := iptr, trkRem := rem, trkOpen := isOpen, rs := rs, dmode := .smf } : State).Inv :=
  ⟨h.cfgValid, h.spaces, ⟨h.cursor.1, hi⟩, h.message, h.output, h.expansion, h.snapshots, h.unlatched, h.errors,
    h.warnings, by simp⟩

theorem raw (h : s.Inv) {iptr : Word} (hi : iptr.toNat ≤ s.inLen.toNat)
    (hm : s.dmode = .unset ∨ s.dmode = .raw) : ({ s with iptr := iptr, dmode := .raw } : State).Inv :=
  ⟨h.cfgValid, h.spaces, ⟨h.cursor.1, hi⟩, h.message, h.output, h.expansion, h.snapshots, h.unlatched, h.errors,
    h.warnings, ⟨by simp, fun _ => by
      rcases hm with e | e
      · have f := h.stream.1 e; exact ⟨f.2.1, f.2.2.1, f.2.2.2.1⟩
      · exact h.stream.2 e⟩⟩

/-- A body copied to MSG from bytes that lie inside the stream. -/
theorem body (h : s.Inv) {bs : List Byte} {pos len : Word} (hl : len.toNat = bs.length)
    (hp : pos.toNat + bs.length ≤ s.inLen.toNat) (hm : bs.length ≤ s.cfg.msgBytes) (hd : s.dmode ≠ .unset) :
    ({ s.writeBytes .msg 0 bs with msgPos := pos, msgLen := len } : State).Inv where
  cfgValid := by simpa using h.cfgValid
  spaces sp := (h.spaces sp).writeBytes (by simpa [Config.size] using hm)
  cursor := by simpa using h.cursor
  message := by
    refine ⟨by simpa [hl] using hp, by simpa [hl] using hm, ?_⟩
    show (s.writeBytes .msg 0 bs).Written .msg 0 len.toNat
    rw [hl]
    exact State.Written.writeBytes_self (h.spaces .msg)
  output := ⟨by simpa using h.output.1, by
    show (s.writeBytes .msg 0 bs).Written .out 0 (s.writeBytes .msg 0 bs).outLen.toNat
    rw [State.writeBytes_outLen]
    exact State.Written.writeBytes (h.spaces .msg) h.output.2⟩
  expansion := ⟨by simpa using h.expansion.1, by
    show (s.writeBytes .msg 0 bs).Written .xbuf 0 (s.writeBytes .msg 0 bs).xlen.toNat
    rw [State.writeBytes_xlen]
    exact State.Written.writeBytes (h.spaces .msg) h.expansion.2⟩
  snapshots := ⟨by simpa using h.snapshots.1, fun d hd k hk => by
    show (s.writeBytes .msg 0 bs).Written .snap _ _
    simp only [State.writeBytes_dialect, State.writeBytes_snapCount, State.writeBytes_cfg] at hd hk ⊢
    exact State.Written.writeBytes (h.spaces .msg) (h.snapshots.2 d hd k hk)⟩
  unlatched := h.unlatched
  errors := by simpa using h.errors
  warnings := by simpa using h.warnings
  stream := ⟨fun e => absurd e (by simpa using hd), by simpa using h.stream.2⟩

end State.Inv

/-! ## The demultiplexer -/

/-- The invariant inside an SMF. -/
def SmfInv (s : State) : Prop := s.Inv ∧ s.dmode = .smf

/-- The invariant along a flow; a fatal error has a code. -/
def Flow.Keeps : Flow → Prop
  | .go t => SmfInv t
  | .done t => t.Inv
  | .raise e => e.code ≠ .none

/-- The invariant at the end of a command's rule; a fatal error has a code. -/
def Verdict.Keeps : Verdict → Prop
  | .done t => t.Inv
  | .raise e => e.code ≠ .none

theorem Sig.orEnd_keeps {α : Type} {r : Sig α} {f : α → State → Flow}
    (hok : ∀ v t, r = .ok v t → (f v t).Keeps) (hend : ∀ t, r = .trunc t ∨ r = .malformed t → t.Inv) :
    (r.orEnd f).Keeps := by
  cases r with
  | ok v t => exact hok v t rfl
  | trunc t => exact ((hend t (.inl rfl)).warnOn _).ended.noMessage
  | malformed t => exact ((hend t (.inr rfl)).warnOn _).ended.noMessage

theorem iptr_le_of_left {s : State} {n : Nat} (hb : s.iptr.toNat ≤ s.inLen.toNat) (h : n ≤ s.left) :
    (wordOf (s.iptr.toNat + n)).toNat ≤ s.inLen.toNat := by
  rw [iptr_add_toNat h]; simp only [State.left] at h; omega

theorem SmfInv.consume {s : State} {n : Nat} (h : SmfInv s) (hn : n ≤ s.left) : SmfInv (s.consume n) := by
  have e : s.consume n = { s with
      iptr := wordOf (s.iptr.toNat + n)
      trkRem := if s.trkOpen then wordOf (s.trkRem.toNat - n) else s.trkRem
      trkOpen := s.trkOpen, rs := s.rs, dmode := .smf } := by rw [← h.2]; rfl
  refine ⟨?_, by simpa using h.2⟩
  rw [e]
  exact h.1.smf (iptr_le_of_left h.1.cursor.2 hn)

theorem SmfInv.setRs {s : State} (h : SmfInv s) (r : Byte) : SmfInv { s with rs := r } := by
  have e : ({ s with rs := r } : State) = { s with
      iptr := s.iptr, trkRem := s.trkRem, trkOpen := s.trkOpen, rs := r, dmode := .smf } := by rw [← h.2]
  exact ⟨e ▸ h.1.smf h.1.cursor.2, h.2⟩

theorem SmfInv.status {s : State} (h : SmfInv s) (hl : 1 ≤ s.left) (b : Byte) : SmfInv (s.status b) :=
  (h.consume hl).setRs b

theorem SmfInv.skip {s : State} (h : SmfInv s) (n : Nat) {f : Unit → State → Flow}
    (hf : ∀ t, SmfInv t → (f () t).Keeps) : ((s.skip n).orEnd f).Keeps := by
  rcases s.skip_cases n with ⟨h1, h2⟩ | ⟨h1, h2⟩ <;> rw [h2]
  · exact hf _ (h.consume h1)
  · exact (((h.consume (Nat.le_refl _)).1.warnOn _).ended).noMessage

theorem SmfInv.readVlq {s : State} (h : SmfInv s) {f : Nat → State → Flow}
    (hf : ∀ n t, SmfInv t → (f n t).Keeps) : (s.readVlq.orEnd f).Keeps := by
  rcases s.readVlq_cases with ⟨n, m, _, _, h3, h4⟩ | ⟨m, h3, h4⟩ | ⟨m, h3, h4⟩ <;> rw [h4]
  · exact hf _ _ (h.consume h3)
  · exact (((h.consume h3).1.warnOn _).ended).noMessage
  · exact (((h.consume h3).1.warnOn _).ended).noMessage

theorem skipEvent_keeps {s : State} (h : SmfInv s) (hl : 1 ≤ s.left) (b : Byte) (n : Nat) : (skipEvent b n s).Keeps :=
  (h.status hl b).skip n fun _ ht => ht

theorem smfRunningDataBody_keeps {s : State} (h : SmfInv s) (hl : 1 ≤ s.left) (d : BitVec 7) :
    (smfRunningDataBody d s).Keeps := by
  simp only [smfRunningDataBody]
  split
  · exact (h.consume hl).skip _ fun _ ht => ht
  · exact (((h.consume hl).1.warnOn _).ended).noMessage

theorem smfMetaBody_keeps {s : State} (h : SmfInv s) (hl : 1 ≤ s.left) : (smfMetaBody s).Keeps := by
  have h1 := h.consume hl
  simp only [smfMetaBody]
  rcases (s.consume 1).next1_cases with ⟨l1, e⟩ | ⟨l1, e⟩ <;> rw [e]
  · exact (h1.consume l1).readVlq fun n t ht => ht.skip n fun _ hu => hu
  · exact ((h1.1.warnOn _).ended).noMessage

theorem copyPayload_inv {s : State} (h : SmfInv s) {k : Nat} (hk : k ≤ s.left) (hm : k ≤ s.cfg.msgBytes) :
    SmfInv (s.copyPayload k) := by
  have hlt := s.inLen.isLt
  have hl : s.left ≤ s.inLen.toNat := Nat.sub_le _ _
  have hb := h.1.body (bs := s.readBytes .next .input s.iptr.toNat k) (pos := s.iptr) (len := wordOf k)
    (by rw [State.readBytes_length]; exact wordOf_of_lt (by omega))
    (by have := h.1.cursor.2; simp only [State.readBytes_length, State.left] at hk ⊢; omega)
    (by simpa using hm) (by simp [h.2])
  have hs : SmfInv _ := ⟨hb, by simpa using h.2⟩
  exact hs.consume (by simpa [State.left] using hk)

theorem sysexPayload_keeps {s : State} (h : SmfInv s) (n : Nat) : (sysexPayload n s).Keeps := by
  simp only [sysexPayload]
  split_ifs with h1 h2 h3
  · simp [Flow.Keeps, capacityError]
  · exact ((((copyPayload_inv h (Nat.le_refl _) (by omega)).1.warnOn _).ended).warnOn _).deliver
  · exact (copyPayload_inv h (by omega) (by omega)).1.deliver
  · exact ((copyPayload_inv h (by omega) (by omega)).1.warnOn _).deliver

theorem sysexEvent_keeps {s : State} (h : SmfInv s) (hl : 1 ≤ s.left) (b : Byte) : (sysexEvent b s).Keeps :=
  (h.status hl b).readVlq fun n _ ht => sysexPayload_keeps ht n

theorem eventBody_keeps {s : State} (h : SmfInv s) (hl : 1 ≤ s.left) (i : Instr) : (eventBody i s).Keeps := by
  cases i <;> simp only [eventBody, smfCh8Body, smfCh9Body, smfChABody, smfChBBody, smfProgramChangeBody,
      smfChannelPressureBody, smfChEBody, smfMtcQuarterFrameBody, smfSongPositionBody, smfSongSelectBody,
      smfUndefinedCommonBody, smfTuneRequestBody, smfRealtimeBody, smfSysexStartBody, smfSysexEscapeBody] <;>
    first
    | exact skipEvent_keeps h hl _ _
    | exact smfRunningDataBody_keeps h hl _
    | exact smfMetaBody_keeps h hl
    | exact sysexEvent_keeps h hl _
    | exact ((h.1.warnOn _).ended).noMessage

theorem trackEvent_keeps {s : State} (h : SmfInv s) : (trackEvent s).Keeps := by
  refine h.readVlq fun _ t ht => ?_
  rcases t.peek_cases with ⟨l, e⟩ | ⟨l, e⟩ <;> rw [e]
  · exact eventBody_keeps ht l _
  · exact ((ht.1.warnOn _).ended).noMessage

theorem badHeader_keeps {s : State} (h : s.Inv) : (badHeader s).Keeps := ((h.warnOn _).ended).noMessage

theorem openTrack_keeps {s : State} (h : SmfInv s) : (openTrack s).Keeps := by
  simp only [openTrack]
  split_ifs with h1 h2
  · exact h.1.ended.noMessage
  · exact badHeader_keeps h.1
  · split
    · simp only [chunkMtrkBody, h2, if_false]
      refine ⟨?_, h.2⟩
      have := h.1.smf (iptr := wordOf (s.iptr.toNat + 8))
        (rem := wordOf (be32 (s.readBytes .trackLen .input (s.iptr.toNat + 4) 4))) (isOpen := true) (rs := 0)
        (iptr_le_of_left h.1.cursor.2 (by omega))
      rwa [← h.2] at this
    · exact badHeader_keeps h.1

theorem smfIteration_keeps {s : State} (h : SmfInv s) : (smfIteration s).Keeps := by
  simp only [smfIteration]
  split_ifs
  · have := h.1.smf (iptr := s.iptr) (rem := s.trkRem) (isOpen := false) (rs := s.rs) h.1.cursor.2
    rw [← h.2] at this
    exact ⟨this, h.2⟩
  · exact h.1.ended.noMessage
  · exact trackEvent_keeps h
  · exact openTrack_keeps h

theorem smfNext_keeps {s : State} (h : SmfInv s) {v : Verdict} (hv : smfNext s = some v) : v.Keeps := by
  have := smfNext_induct (P := SmfInv) (Q := State.Inv) (R := fun e => e.code ≠ .none)
    (fun s t hs e => by have := smfIteration_keeps hs; rwa [e] at this)
    (fun s t hs e => by have := smfIteration_keeps hs; rwa [e] at this)
    (fun s t hs e => by have := smfIteration_keeps hs; rwa [e] at this) h
  rw [hv] at this
  cases v <;> exact this

theorem Flow.verdict_keeps {f : Flow} (h : ∀ t, f = .go t → t.Inv) (h' : f.Keeps) : f.verdict.Keeps := by
  cases f with
  | go t => exact h t rfl
  | done t => exact h'
  | raise e => exact h'

/-- A raw message from a start marker inside the stream. -/
theorem rawSysexBody_keeps {s : State} (h : s.Inv) (hd : s.dmode = .raw) (hl : s.iptr.toNat < s.inLen.toNat) :
    (rawSysexBody s).Keeps := by
  have hlt := s.inLen.isLt
  have hn : ∀ n, s.iptr.toNat + 1 + n ≤ s.inLen.toNat → n ≤ s.cfg.msgBytes →
      ({ s.writeBytes .msg 0 (s.readBytes .rawCopy .input (s.iptr.toNat + 1) n) with
        msgLen := wordOf n, msgPos := wordOf (s.iptr.toNat + 1), iptr := wordOf (s.iptr.toNat + 1 + n) } : State).Inv := by
    intro n h1 h2
    have h3 := h.raw (iptr := wordOf (s.iptr.toNat + 1 + n)) (by rw [wordOf_of_lt (by omega)]; exact h1) (.inr hd)
    rw [← hd] at h3
    exact h3.body (bs := s.readBytes .rawCopy .input (s.iptr.toNat + 1) n) (pos := wordOf (s.iptr.toNat + 1))
      (len := wordOf n) (by rw [State.readBytes_length]; exact wordOf_of_lt (by omega))
      (by rw [wordOf_of_lt (by omega)]; simpa using h1) (by simpa using h2) (by simp [hd])
  have he : ∀ j, s.findByte .rawFind endMarker (s.iptr.toNat + 1) (s.inLen.toNat - (s.iptr.toNat + 1)) = some j →
      s.iptr.toNat + 1 ≤ j ∧ j < s.inLen.toNat := fun j e => by
    obtain ⟨h1, h2, _⟩ := State.findByte_some e
    omega
  simp only [rawSysexBody]
  cases e : s.findByte .rawFind endMarker (s.iptr.toNat + 1) (s.inLen.toNat - (s.iptr.toNat + 1)) with
  | none =>
    simp only
    split_ifs with h1
    · simp [Flow.Keeps, capacityError]
    · exact (((hn _ (by omega) (by omega)).warnOn _).ended).deliver
  | some j =>
    have := he j e
    simp only
    split_ifs with h1
    · simp [Flow.Keeps, capacityError]
    · exact (hn _ (by omega) (by omega)).deliver

theorem rawSysexBody_ne_go (s u : State) : rawSysexBody s ≠ .go u := by
  simp only [rawSysexBody]
  cases s.findByte .rawFind endMarker (s.iptr.toNat + 1) (s.inLen.toNat - (s.iptr.toNat + 1)) <;>
    (simp only; split_ifs <;> simp)

theorem rawNext_keeps {s : State} (h : s.Inv) (hd : s.dmode = .raw) : (rawNext s).Keeps := by
  have hc := h.cursor.2
  have hlt := s.inLen.isLt
  simp only [rawNext]
  cases e : s.findByte .rawScan startMarker s.iptr.toNat s.left with
  | none =>
    have := h.raw (iptr := wordOf (s.iptr.toNat + s.left)) (iptr_le_of_left hc (Nat.le_refl _)) (.inr hd)
    rw [← hd] at this
    exact this.ended.noMessage
  | some j =>
    obtain ⟨h1, h2, _⟩ := State.findByte_some e
    simp only [State.left] at h2
    have hj : (wordOf j).toNat = j := wordOf_of_lt (by omega)
    have := h.raw (iptr := wordOf j) (by rw [hj]; omega) (.inr hd)
    rw [← hd] at this
    exact Flow.verdict_keeps (fun t ht => absurd ht (rawSysexBody_ne_go _ t))
      (rawSysexBody_keeps this hd (by show (wordOf j).toNat < s.inLen.toNat; rw [hj]; omega))

theorem chunkMthdBody_keeps {s : State} (h : SmfInv s) : (chunkMthdBody s).Keeps := by
  have hlt := s.inLen.isLt
  simp only [chunkMthdBody]
  split_ifs with h1 h2
  · exact badHeader_keeps h.1
  · exact badHeader_keeps h.1
  · have := h.1.smf (iptr := wordOf (8 + be32 (s.readBytes .header .input 4 4))) (rem := s.trkRem)
      (isOpen := s.trkOpen) (rs := s.rs) (by rw [wordOf_of_lt (by omega)]; omega)
    rw [← h.2] at this
    exact ⟨this, h.2⟩

theorem demuxNextBody_keeps {s : State} (h : s.Inv) {v : Verdict} (hv : demuxNextBody s = some v) : v.Keeps := by
  simp only [demuxNextBody] at hv
  split at hv
  · rename_i hd
    split_ifs at hv with h1
    · have hs : SmfInv { s with dmode := .smf } :=
        ⟨h.smf (iptr := s.iptr) (rem := s.trkRem) (isOpen := s.trkOpen) (rs := s.rs) h.cursor.2, rfl⟩
      have hk := chunkMthdBody_keeps hs
      simp only [smfStart] at hv
      split at hv <;> rename_i e <;> rw [e] at hk
      · exact smfNext_keeps hk hv
      · cases hv; exact hk
      · cases hv; exact hk
    · cases hv
      exact rawNext_keeps (h.raw (iptr := s.iptr) h.cursor.2 (.inl hd)) rfl
  · rename_i hd; cases hv; exact rawNext_keeps h hd
  · rename_i hd; exact smfNext_keeps ⟨h, hd⟩ hv
  · cases hv; exact h.noMessage

/-! ## The other commands -/

theorem streamLoadBody_keeps {s : State} (h : s.Inv) : (streamLoadBody s).Keeps := by
  simp only [streamLoadBody]
  split_ifs with h1
  · simp [Verdict.Keeps, State.commandError]
  · refine State.Inv.results ?_ _ _
    exact ⟨h.cfgValid, h.spaces, ⟨by simpa [State.opnd] using h1, by simp⟩,
      ⟨by simp, by simp, fun i hi => by simp at hi⟩, h.output, h.expansion, h.snapshots, h.unlatched, h.errors,
      h.warnings, ⟨fun _ => ⟨rfl, rfl, rfl, rfl, rfl, rfl⟩, fun e => by simp at e⟩⟩

theorem imgInitBody_keeps {s : State} (h : s.Inv) : (imgInitBody s).Keeps := by
  refine State.Inv.results (s := { s with dmem := [], dialect := none, snapCount := 0 }) ?_ 0 0
  refine ⟨h.cfgValid, fun sp => ?_, h.cursor, h.message, h.output, h.expansion, ⟨by simp, by simp⟩, by simp, h.errors,
    h.warnings, h.stream⟩
  cases sp with
  | dmem => exact ⟨rfl, rfl⟩
  | input => exact h.spaces .input
  | msg => exact h.spaces .msg
  | snap => exact h.spaces .snap
  | out => exact h.spaces .out
  | xbuf => exact h.spaces .xbuf

theorem outClearBody_keeps {s : State} (h : s.Inv) : (outClearBody s).Keeps :=
  State.Inv.results (s := { s with outLen := 0 })
    ⟨h.cfgValid, h.spaces, h.cursor, h.message, ⟨by simp, fun i hi => by simp at hi⟩, h.expansion, h.snapshots,
      h.unlatched, h.errors, h.warnings, h.stream⟩ 0 0

theorem warnClearBody_keeps {s : State} (h : s.Inv) : (warnClearBody s).Keeps :=
  State.Inv.results (s := { s with warn := 0, wcnt := 0, ovr := false })
    ⟨h.cfgValid, h.spaces, h.cursor, h.message, h.output, h.expansion, h.snapshots, h.unlatched, h.errors,
      ⟨by simp, by simp⟩, h.stream⟩ 0 0

theorem readRegionBody_keeps {s : State} (h : s.Inv) : (readRegionBody s).Keeps := by
  simp only [readRegionBody]
  split_ifs
  · simp [Verdict.Keeps, State.commandError]
  · exact h.results _ _
  · exact h.results _ _
  · exact h.results _ _

theorem crc32Body_keeps {s : State} (h : s.Inv) : (crc32Body s).Keeps := by
  simp only [crc32Body]
  split
  · split_ifs
    · simp only [crcVerdict]
      split_ifs
      · exact h.results _ _
      · split
        · exact h.results _ _
        · simp [Verdict.Keeps]
        · exact (h.warnOn _).results _ _
    · simp [Verdict.Keeps, State.commandError]
  · simp [Verdict.Keeps, State.commandError]

/-- A write to XBUF from its start, with the new length. -/
theorem State.Inv.expand {s : State} (h : s.Inv) {bs : List Byte} {len : Word} (hl : len.toNat = bs.length)
    (hm : bs.length ≤ s.cfg.xbufBytes) : ({ s.writeBytes .xbuf 0 bs with xlen := len } : State).Inv where
  cfgValid := h.cfgValid
  spaces sp := (h.spaces sp).writeBytes (by simpa [Config.size] using hm)
  cursor := h.cursor
  message := ⟨h.message.1, h.message.2.1, State.Written.writeBytes (h.spaces .xbuf) h.message.2.2⟩
  output := ⟨h.output.1, State.Written.writeBytes (h.spaces .xbuf) h.output.2⟩
  expansion := by
    refine ⟨by simpa [hl] using hm, ?_⟩
    show (s.writeBytes .xbuf 0 bs).Written .xbuf 0 len.toNat
    rw [hl]
    exact State.Written.writeBytes_self (h.spaces .xbuf)
  snapshots := ⟨h.snapshots.1, fun d hd k hk =>
    State.Written.writeBytes (h.spaces .xbuf) (h.snapshots.2 d hd k hk)⟩
  unlatched := h.unlatched
  errors := h.errors
  warnings := h.warnings
  stream := h.stream

theorem inflateBody_keeps {s : State} (h : s.Inv) : (inflateBody s).Keeps := by
  simp only [inflateBody]
  split_ifs with h1 h2
  · simp [Verdict.Keeps, capacityError]
  · simp only [inflateVerdict]
    split
    · simp [Verdict.Keeps, formatError]
    · split_ifs with h3
      · simp [Verdict.Keeps, formatError]
      · have h4 := (s.lat.get .s2).isLt
        refine State.Inv.results ?_ _ _
        simp only [State.opnd] at h1 h2 h3 ⊢
        exact h.expand (by rw [wordOf_of_lt h4]; omega) (by omega)
  · simp [Verdict.Keeps, State.commandError]

/-- Bytes appended to OUT where they fit. -/
theorem appendOut_inv {s : State} (h : s.Inv) {bs : List Byte} (hm : s.outLen.toNat + bs.length ≤ s.cfg.outBytes) :
    (appendOut bs s).Inv ∧ (appendOut bs s).outLen.toNat = s.outLen.toNat + bs.length := by
  have hv : s.cfg.outBytes < 2 ^ 32 := by
    have := h.cfgValid
    simp only [Config.valid, Bool.and_eq_true, decide_eq_true_eq] at this
    exact this.1.2.2
  have hlen : (wordOf (s.outLen.toNat + bs.length)).toNat = s.outLen.toNat + bs.length := wordOf_of_lt (by omega)
  refine ⟨⟨h.cfgValid, fun sp => (h.spaces sp).writeBytes (by simpa [Config.size] using hm), h.cursor,
    ⟨h.message.1, h.message.2.1, State.Written.writeBytes (h.spaces .out) h.message.2.2⟩, ⟨?_, ?_⟩,
    ⟨h.expansion.1, State.Written.writeBytes (h.spaces .out) h.expansion.2⟩,
    ⟨h.snapshots.1, fun d hd k hk => State.Written.writeBytes (h.spaces .out) (h.snapshots.2 d hd k hk)⟩,
    h.unlatched, h.errors, h.warnings, h.stream⟩, hlen⟩
  · show (wordOf (s.outLen.toNat + bs.length)).toNat ≤ _
    rw [hlen]; exact hm
  · show (s.writeBytes .out s.outLen.toNat bs).Written .out 0 (wordOf (s.outLen.toNat + bs.length)).toNat
    rw [hlen]
    intro i hi
    by_cases hc : i < s.outLen.toNat
    · exact State.Written.writeBytes (h.spaces .out) h.output.2 i hc
    · have := State.Written.writeBytes_self (a := s.outLen.toNat) (bs := bs) (h.spaces .out) (i - s.outLen.toNat)
        (by omega)
      rwa [show s.outLen.toNat + (i - s.outLen.toNat) = 0 + i by omega] at this

theorem addressDigits_length (n a : Nat) : (addressDigits n a).length = n := by
  induction n with
  | zero => rfl
  | succ n ih => simp [addressDigits, ih]

theorem frameBytes_length (d : Dialect) (dev : BitVec 7) (addr : Nat) (payload : List Byte) :
    (frameBytes d dev addr payload).length = payload.length + d.digits + 7 := by
  simp [frameBytes, dataSetHeader, addressDigits_length]; omega

theorem emitFrames_inv {d : Dialect} {dev : BitVec 7} (c : Nat) {addr : Nat} {src : List Byte} {s : State} (h : s.Inv)
    (hm : s.outLen.toNat + src.length + c * (d.digits + 7) ≤ s.cfg.outBytes) :
    (emitFrames d dev c addr src s).Inv := by
  induction c generalizing addr src s with
  | zero => exact h
  | succ c ih =>
    have ht : (src.take maxChunk).length + (src.drop maxChunk).length = src.length := by
      rw [← List.length_append, List.take_append_drop]
    rw [Nat.add_mul] at hm
    have hf : s.outLen.toNat + (frameBytes d dev addr (src.take maxChunk)).length ≤ s.cfg.outBytes := by
      rw [frameBytes_length]; omega
    obtain ⟨h1, h2⟩ := appendOut_inv h hf
    refine ih h1 ?_
    show (appendOut _ s).outLen.toNat + _ + _ ≤ s.cfg.outBytes
    rw [h2, frameBytes_length]
    omega

theorem emitBody_keeps {s : State} (h : s.Inv) : (emitBody s).Keeps := by
  simp only [emitBody]
  split
  · split_ifs with h1 h2 h3 h4
    · simp [Verdict.Keeps, State.commandError]
    · simp [Verdict.Keeps, State.commandError]
    · simp [Verdict.Keeps, capacityError]
    · refine (emitFrames_inv _ h ?_).results _ _
      simp only [frameTotal] at h4
      simp only [State.readBytes_length]
      omega
    · simp [Verdict.Keeps, State.commandError]
  · simp [Verdict.Keeps, State.commandError]

end Sys2Proof.Machine
end

