-- ==== Sys2Proof/Laws/Encoding.lean ====
section
/-! SUPPORT. The encodings, function by function: status bytes, VLQs, addresses, checksums and emitted frames. -/

namespace Sys2Proof

/-! ## Bytes with a fixed top -/

theorem low_byte : ∀ g : BitVec 7, (0#1 ++ g : BitVec 8).toNat < 0x80 ∧ (0#1 ++ g : BitVec 8).setWidth 7 = g := by
  decide

theorem high_byte : ∀ g : BitVec 7, ¬ (1#1 ++ g : BitVec 8).toNat < 0x80 ∧ (1#1 ++ g : BitVec 8).setWidth 7 = g := by
  decide

theorem low_byte_of : ∀ b : Byte, b.toNat < 0x80 → (0#1 ++ b.setWidth 7 : BitVec 8) = b := by decide

theorem high_byte_of : ∀ b : Byte, ¬ b.toNat < 0x80 → (1#1 ++ b.setWidth 7 : BitVec 8) = b := by decide

/-! ## VLQs (R89) -/

/-- The bytes of the groups of a VLQ, with anything after them, decode to the groups. -/
theorem decodeVlq_vlqBytes (k : Nat) (gs : List (BitVec 7)) (rest : List Byte) (h1 : 1 ≤ gs.length)
    (h2 : gs.length ≤ k) : decodeVlq k (vlqBytes gs ++ rest) = .ok (gs, rest) := by
  induction gs generalizing k with
  | nil => simp at h1
  | cons g gs ih =>
    obtain ⟨k, rfl⟩ : ∃ j, k = j + 1 := ⟨k - 1, by simp at h2; omega⟩
    cases gs with
    | nil => simp [vlqBytes, decodeVlq, low_byte]
    | cons g' gs =>
      have := ih k (by simp) (by simpa using h2)
      simp [vlqBytes, decodeVlq, high_byte, this]

/-- What decodes to groups is their bytes. -/
theorem decodeVlq_ok {k : Nat} {bs : List Byte} {gs : List (BitVec 7)} {rest : List Byte}
    (h : decodeVlq k bs = .ok (gs, rest)) : 1 ≤ gs.length ∧ gs.length ≤ k ∧ bs = vlqBytes gs ++ rest := by
  induction k generalizing bs gs with
  | zero => simp [decodeVlq] at h
  | succ k ih =>
    cases bs with
    | nil => simp [decodeVlq] at h
    | cons b bs =>
      simp only [decodeVlq] at h
      split_ifs at h with hb
      · cases h; simp [vlqBytes, low_byte_of b hb]
      · split at h
        · rename_i gs' r e
          cases h
          obtain ⟨h1, h2, h3⟩ := ih e
          refine ⟨by simp, by simpa using h2, ?_⟩
          cases gs' with
          | nil => simp at h1
          | cons g gs => simp [vlqBytes, high_byte_of b hb, h3]
        · cases h

/-! ## Addresses (R94) -/

theorem two_pow_seven (n : Nat) : 2 ^ (7 * n) = 128 ^ n := by rw [pow_mul]; norm_num

/-- Digits look at an address below 128^n only through its remainder. -/
theorem addressDigits_mod (n m a : Nat) (h : m ≤ n) : addressDigits m a = addressDigits m (a % 128 ^ n) := by
  induction m with
  | zero => rfl
  | succ m ih =>
    simp only [addressDigits]
    rw [ih (by omega)]
    congr 2
    simp only [Nat.shiftRight_eq_div_pow, two_pow_seven]
    have h1 : 128 ^ n = 128 ^ m * 128 ^ (n - m) := by rw [← pow_add]; congr 1; omega
    rw [h1, Nat.mod_mul_right_div_self]
    have h2 : 128 ^ (n - m) = 128 * 128 ^ (n - m - 1) := by rw [← pow_succ']; congr 1; omega
    rw [h2, Nat.mod_mul_right_mod]

/-- The digits of an address spell it, after any digits. -/
theorem addressOf_addressDigits (n a acc : Nat) (h : a < 128 ^ n) :
    addressOf acc (addressDigits n a) = acc * 128 ^ n + a := by
  induction n generalizing a acc with
  | zero => simp at h; simp [addressDigits, addressOf, h]
  | succ n ih =>
    simp only [addressDigits, addressOf]
    rw [addressDigits_mod n n a le_rfl, ih _ _ (Nat.mod_lt _ (by positivity))]
    simp only [Nat.shiftRight_eq_div_pow, two_pow_seven]
    have h8 : a / 128 ^ n < 128 := by
      rw [Nat.div_lt_iff_lt_mul (by positivity)]; rw [pow_succ] at h; linarith
    have hdm := Nat.div_add_mod a (128 ^ n)
    generalize a / 128 ^ n = q at *
    have h9 : (byteOf (q % 128)).toNat = q := by simp only [byteOf, BitVec.toNat_ofNat]; omega
    have h10 : (acc * 128 + q) * 128 ^ n = acc * 128 ^ (n + 1) + 128 ^ n * q := by rw [pow_succ]; ring
    rw [h9]; omega

/-- Every address digit is below 0x80. -/
theorem addressDigits_lt (n a : Nat) : ∀ b ∈ addressDigits n a, b.toNat < 0x80 := by
  induction n with
  | zero => simp [addressDigits]
  | succ n ih =>
    intro b hb
    simp only [addressDigits, List.mem_cons] at hb
    rcases hb with rfl | hb
    · simp only [byteOf, BitVec.toNat_ofNat]; omega
    · exact ih b hb

/-! ## Checksums (R95, R203) -/

theorem sumBytes_append (a b : List Byte) : sumBytes (a ++ b) = sumBytes a + sumBytes b := by
  induction a with
  | nil => simp [sumBytes]
  | cons x a ih => simp [sumBytes, ih]; omega

theorem checksumOf_toNat (bs : List Byte) : (checksumOf bs).toNat = (128 - sumBytes bs % 128) % 128 := by
  simp only [checksumOf, byteOf, BitVec.toNat_ofNat]; omega

/-! ## Emitted frames (R202) -/

/-- An emitted frame decodes to itself. -/
theorem decodeEmitted_frameBytes (d : Dialect) (dev : BitVec 7) (addr : Nat) (p : List Byte)
    (h : wellFormed (.dt1Emit d dev addr p) = true) :
    decodeEmitted (frameBytes d dev addr p) = some (.dt1Emit d dev addr p) := by
  have hl := Machine.addressDigits_length d.digits addr
  have hd : dialectOfByte d.byte = some d := by cases d <;> decide
  have hw : addr < 128 ^ d.digits := by
    simp only [wellFormed, decide_eq_true_eq] at h
    cases d <;> simp only [Dialect.addressRange, Dialect.digits] at h ⊢ <;> omega
  simp only [frameBytes, dataSetHeader, List.cons_append, List.nil_append, decodeEmitted, hd]
  have e1 : (addressDigits d.digits addr ++ p
      ++ [checksumOf (addressDigits d.digits addr ++ p), endMarker]).take d.digits = addressDigits d.digits addr := by
    rw [List.append_assoc, List.take_left' hl]
  have e2 : ((addressDigits d.digits addr ++ p
      ++ [checksumOf (addressDigits d.digits addr ++ p), endMarker]).drop d.digits).take
        ((addressDigits d.digits addr ++ p
          ++ [checksumOf (addressDigits d.digits addr ++ p), endMarker]).length - d.digits - 2) = p := by
    rw [List.append_assoc, List.drop_left' hl]
    apply List.take_left'
    simp [hl]
  simp only [e1, e2, (low_byte dev).2, addressOf_addressDigits _ _ 0 hw, Nat.zero_mul, Nat.zero_add]
  simp [h]

end Sys2Proof
end

