-- ==== Sys2Proof/Laws/Step.lean ====
section
/-! SUPPORT. The invariant through INGEST, through a command of either outcome and through the host's accesses; what
an Execute and a step can do. -/

namespace Sys2Proof.Machine

/-! ## The parameters (R9) -/

theorem Config.valid_dialect {c : Config} (h : Config.valid c = true) (d : Dialect) :
    Config.cap c d ≤ c.memBytes ∧ Config.cap c d ≤ 128 ^ d.digits ∧ Config.trig c d < Config.cap c d
      ∧ Config.tmpBase c d + Config.tmpLen c d ≤ Config.cap c d ∧ 1 ≤ Config.tmpLen c d
      ∧ Config.tmpLen c d ≤ c.snapEntry := by
  simp only [Config.valid, Config.dialectOk, Bool.and_eq_true, decide_eq_true_eq] at h
  cases d
  · exact h.1.1.1.1.1.1.1.1
  · exact h.1.1.1.1.1.1.1.2

theorem Config.valid_snapMax {c : Config} (h : Config.valid c = true) : 1 ≤ c.snapMax ∧ c.snapMax < 2 ^ 32 := by
  simp only [Config.valid, Bool.and_eq_true, decide_eq_true_eq] at h
  exact h.1.1.1.1.1.2

/-! ## INGEST -/

/-- A payload written inside the capacity of the run's dialect, and the dialect latched. -/
theorem State.Inv.latch {s : State} (h : s.Inv) {d : Dialect} {addr : Nat} {bs : List Byte}
    (hd : s.dialect = none ∨ s.dialect = some d) (hb : addr + bs.length ≤ Config.cap s.cfg d) :
    ({ s.writeBytes .dmem addr bs with dialect := some d } : State).Inv where
  cfgValid := h.cfgValid
  spaces sp := (h.spaces sp).writeBytes
    (Nat.le_trans hb (Config.valid_dialect h.cfgValid d).1)
  cursor := h.cursor
  message := ⟨h.message.1, h.message.2.1, State.Written.writeBytes (h.spaces .dmem) h.message.2.2⟩
  output := ⟨h.output.1, State.Written.writeBytes (h.spaces .dmem) h.output.2⟩
  expansion := ⟨h.expansion.1, State.Written.writeBytes (h.spaces .dmem) h.expansion.2⟩
  snapshots := ⟨h.snapshots.1, fun d' hd' k hk => by
    obtain rfl : d = d' := by simpa using hd'
    rcases hd with e | e
    · have := (h.unlatched e).2
      have hk' : k < s.snapCount.toNat := hk
      rw [this] at hk'
      simp at hk'
    · exact State.Written.writeBytes (h.spaces .dmem) (h.snapshots.2 d e k hk)⟩
  unlatched := by simp
  errors := h.errors
  warnings := h.warnings
  stream := h.stream

/-- A snapshot appended where there is room. -/
theorem State.Inv.snapshot {s : State} (h : s.Inv) {d : Dialect} (hd : s.dialect = some d)
    (hn : s.snapCount.toNat < s.cfg.snapMax) : (takeSnapshot d s).Inv := by
  have hv := Config.valid_dialect h.cfgValid d
  have hs := Config.valid_snapMax h.cfgValid
  have hc : (s.snapCount + 1).toNat = s.snapCount.toNat + 1 := by
    rw [BitVec.toNat_add]; simp; omega
  have hfit : s.snapCount.toNat * s.cfg.snapEntry + Config.tmpLen s.cfg d ≤ s.cfg.snapMax * s.cfg.snapEntry := by
    have := Nat.mul_le_mul_right s.cfg.snapEntry hn
    rw [Nat.succ_mul] at this
    omega
  have hw : s.snapCount.toNat * s.cfg.snapEntry
      + (s.readBytes .snapshot .dmem (Config.tmpBase s.cfg d) (Config.tmpLen s.cfg d)).length
      ≤ Config.size s.cfg .snap := by rw [State.readBytes_length]; exact hfit
  exact {
    cfgValid := h.cfgValid
    spaces := fun sp => (h.spaces sp).writeBytes hw
    cursor := h.cursor
    message := ⟨h.message.1, h.message.2.1, State.Written.writeBytes (h.spaces .snap) h.message.2.2⟩
    output := ⟨h.output.1, State.Written.writeBytes (h.spaces .snap) h.output.2⟩
    expansion := ⟨h.expansion.1, State.Written.writeBytes (h.spaces .snap) h.expansion.2⟩
    snapshots := by
      refine ⟨by show (s.snapCount + 1).toNat ≤ s.cfg.snapMax; omega, fun d' hd' k hk => ?_⟩
      obtain rfl : d = d' := by
        have : s.dialect = some d' := hd'
        rw [hd] at this; exact Option.some.inj this
      have hk' : k < (s.snapCount + 1).toNat := hk
      rw [hc] at hk'
      by_cases hlast : k = s.snapCount.toNat
      · subst hlast
        have := State.Written.writeBytes_self (a := s.snapCount.toNat * s.cfg.snapEntry)
          (bs := s.readBytes .snapshot .dmem (Config.tmpBase s.cfg d) (Config.tmpLen s.cfg d)) (h.spaces .snap)
        rwa [State.readBytes_length] at this
      · exact State.Written.writeBytes (h.spaces .snap) (h.snapshots.2 d hd k (by omega))
    unlatched := fun e => by
      have : s.dialect = none := e
      rw [hd] at this; cases this
    errors := h.errors
    warnings := h.warnings
    stream := h.stream }

theorem ingestFrame_keeps {s : State} (h : s.Inv) (d : Dialect) (m : List Byte) : (ingestFrame d m s).Keeps := by
  simp only [ingestFrame]
  split_ifs with h1 h2 h3 h4 h5
  · simp [Verdict.Keeps]
  · exact (h.warnOn _).results _ _
  · exact (h.warnOn _).results _ _
  · simp [Verdict.Keeps, capacityError]
  · have hd : s.dialect = none ∨ s.dialect = some d := by
      by_cases e : s.dialect = none
      · exact .inl e
      · exact .inr (by by_contra e'; exact h3 ⟨e, e'⟩)
    have hw := h.latch (addr := frameAddress d m) (bs := framePayload d m) hd (by omega)
    simp only [writeFrame]
    split_ifs with h6
    · refine State.Inv.results (hw.snapshot rfl ?_) _ _
      have := h.snapshots.1
      have hne : s.snapCount.toNat ≠ s.cfg.snapMax := fun e => h5 ⟨h6, e⟩
      show s.snapCount.toNat < s.cfg.snapMax
      omega
    · exact hw.results _ _
  · exact (h.warnOn _).results _ _

theorem ingestMessage_keeps {s : State} (h : s.Inv) (m : List Byte) : (ingestMessage m s).Keeps := by
  simp only [ingestMessage]
  split
  · exact ingestFrame_keeps h _ _
  · exact ingestFrame_keeps h _ _
  · exact (h.warnOn _).results _ _

/-! ## An Execute -/

/-- The rule of a command word on a state: its verdict (R81, R83). -/
def commandVerdict (i : Instr) (s : State) : Option Verdict :=
  match i with
  | .nop => some (nopBody s)
  | .imgInit => some (imgInitBody s)
  | .streamLoad => some (streamLoadBody s)
  | .demuxNext => demuxNextBody s
  | .ingest => some (ingestBody s)
  | .readRegion => some (readRegionBody s)
  | .emit => some (emitBody s)
  | .outClear => some (outClearBody s)
  | .crc32 => some (crc32Body s)
  | .inflate => some (inflateBody s)
  | .warnClear => some (warnClearBody s)
  | .reserved w => some (reservedBody w s)
  | _ => none

/-- The twelve instructions a command word decodes to. -/
def IsCommand (i : Instr) : Prop :=
  i = .nop ∨ i = .imgInit ∨ i = .streamLoad ∨ i = .demuxNext ∨ i = .ingest ∨ i = .readRegion ∨ i = .emit
    ∨ i = .outClear ∨ i = .crc32 ∨ i = .inflate ∨ i = .warnClear ∨ ∃ w, i = .reserved w

theorem decodeCommand_isCommand (w : Word) : IsCommand (decodeCommand w) := by
  simp only [decodeCommand, IsCommand]
  split <;> simp

/-- Every Execute ends: refused while halted, else as the command's verdict says (R21, R253, R254, R275). -/
theorem exec_command {i : Instr} (hi : IsCommand i) (s : State) :
    ∃ v, commandVerdict i s = some v ∧ exec i s = .next (if s.halt then s.refuse else s.settle v) := by
  rcases hi with rfl | rfl | rfl | rfl | rfl | rfl | rfl | rfl | rfl | rfl | rfl | ⟨w, rfl⟩
  case inr.inr.inr.inl =>
    obtain ⟨v, hv⟩ := demuxNextBody_terminates s
    refine ⟨v, hv, ?_⟩
    show execDemuxNext s = _
    simp only [execDemuxNext, hv]
    split_ifs <;> rfl
  all_goals exact ⟨_, rfl, rfl⟩

/-- Every command's verdict keeps the invariant. -/
theorem commandVerdict_keeps {i : Instr} {s : State} (h : s.Inv) {v : Verdict} (hv : commandVerdict i s = some v) :
    v.Keeps := by
  cases i <;> simp only [commandVerdict, Option.some.injEq, reduceCtorEq] at hv
  case demuxNext => exact demuxNextBody_keeps h hv
  all_goals subst hv
  case nop => exact h
  case imgInit => exact imgInitBody_keeps h
  case streamLoad => exact streamLoadBody_keeps h
  case ingest => exact ingestMessage_keeps h _
  case readRegion => exact readRegionBody_keeps h
  case emit => exact emitBody_keeps h
  case outClear => exact outClearBody_keeps h
  case crc32 => exact crc32Body_keeps h
  case inflate => exact inflateBody_keeps h
  case warnClear => exact warnClearBody_keeps h
  case reserved w => simp [reservedBody, Verdict.Keeps]

/-! ## What no command touches -/

/-- `t` has the host's side, BUSY, LAST and the error registers of `s`, OVR apart. -/
structure CommandFrame (s t : State) : Prop where
  hostSide : SameHostSide s t
  errors : t.err = s.err ∧ t.errInfo = s.errInfo ∧ t.halt = s.halt
  status : t.busy = s.busy ∧ t.last = s.last
  draws : t.draws = s.draws

theorem CommandFrame.refl (s : State) : CommandFrame s s :=
  ⟨⟨rfl, rfl, rfl, rfl, rfl, rfl, rfl, rfl, rfl⟩, ⟨rfl, rfl, rfl⟩, ⟨rfl, rfl⟩, rfl⟩

theorem CommandFrame.results {s t : State} (h : CommandFrame s t) (a b : Word) : CommandFrame s (t.results a b) :=
  ⟨h.hostSide, h.errors, h.status, h.draws⟩

theorem CommandFrame.warnOn {s t : State} (h : CommandFrame s t) (w : Warning) : CommandFrame s (t.warnOn w) :=
  ⟨h.hostSide, h.errors, h.status, h.draws⟩

theorem CommandFrame.writeBytes {s t : State} (h : CommandFrame s t) (sp : Space) (a : Nat) (bs : List Byte) :
    CommandFrame s (t.writeBytes sp a bs) := by
  cases sp <;> exact ⟨h.hostSide, h.errors, h.status, h.draws⟩

theorem CommandFrame.latch {s t : State} (h : CommandFrame s t) (d : Option Dialect) :
    CommandFrame s { t with dialect := d } := ⟨h.hostSide, h.errors, h.status, h.draws⟩

theorem CommandFrame.snapshot {s t : State} (h : CommandFrame s t) (d : Dialect) :
    CommandFrame s (takeSnapshot d t) := by
  have := h.writeBytes .snap (t.snapCount.toNat * t.cfg.snapEntry)
    (t.readBytes .snapshot .dmem (Config.tmpBase t.cfg d) (Config.tmpLen t.cfg d))
  exact ⟨this.hostSide, this.errors, this.status, this.draws⟩

theorem ingestFrame_frame {d : Dialect} {m : List Byte} {s t : State} (h : ingestFrame d m s = .done t) :
    CommandFrame s t := by
  have r := CommandFrame.refl s
  have hw := (r.writeBytes .dmem (frameAddress d m) (framePayload d m)).latch (some d)
  simp only [ingestFrame, dropForeign] at h
  split_ifs at h
  · cases h; exact (r.warnOn _).results _ _
  · cases h; exact (r.warnOn _).results _ _
  · cases h
    simp only [writeFrame]
    split_ifs
    · exact (hw.snapshot d).results _ _
    · exact hw.results _ _
  · cases h; exact (r.warnOn _).results _ _

theorem ingestMessage_frame {m : List Byte} {s t : State} (h : ingestMessage m s = .done t) : CommandFrame s t := by
  simp only [ingestMessage] at h
  split at h
  · exact ingestFrame_frame h
  · exact ingestFrame_frame h
  · cases h; exact ((CommandFrame.refl s).warnOn _).results _ _

theorem emitFrames_frame {d : Dialect} {dev : BitVec 7} (c addr : Nat) (src : List Byte) {s t : State}
    (h : CommandFrame s t) : CommandFrame s (emitFrames d dev c addr src t) := by
  induction c generalizing addr src t with
  | zero => exact h
  | succ c ih => exact ih _ _ ⟨h.hostSide, h.errors, h.status, h.draws⟩

theorem commandVerdict_frame {i : Instr} {s t : State} (hv : commandVerdict i s = some (.done t)) :
    CommandFrame s t := by
  have r := CommandFrame.refl s
  cases i <;> simp only [commandVerdict, Option.some.injEq, reduceCtorEq] at hv
  case demuxNext =>
    have h := demuxNextBody_frames hv
    exact ⟨h.hostSide, ⟨h.errors.1, h.errors.2.1, h.errors.2.2.1⟩, ⟨h.status.1, h.status.2.1⟩, h.status.2.2.2⟩
  case nop => cases hv; exact r
  case imgInit => cases hv; exact ⟨r.hostSide, r.errors, r.status, r.draws⟩
  case streamLoad =>
    simp only [streamLoadBody] at hv
    split_ifs at hv; cases hv; exact ⟨r.hostSide, r.errors, r.status, r.draws⟩
  case ingest =>
    exact ingestMessage_frame hv
  case readRegion =>
    simp only [readRegionBody] at hv
    split_ifs at hv <;> cases hv <;> exact r.results _ _
  case emit =>
    simp only [emitBody] at hv
    split at hv
    · rename_i d sp _ _
      split_ifs at hv; cases hv
      exact (emitFrames_frame _ _ _ r).results _ _
    · cases hv
  case outClear => cases hv; exact ⟨r.hostSide, r.errors, r.status, r.draws⟩
  case crc32 =>
    simp only [crc32Body] at hv
    split at hv
    · split_ifs at hv
      simp only [crcVerdict] at hv
      split_ifs at hv
      · cases hv; exact r.results _ _
      · split at hv <;> cases hv
        · exact r.results _ _
        · exact (r.warnOn _).results _ _
    · cases hv
  case inflate =>
    simp only [inflateBody] at hv
    split_ifs at hv
    simp only [inflateVerdict] at hv
    split at hv
    · cases hv
    · split_ifs at hv; cases hv
      have := r.writeBytes .xbuf 0 ‹List Byte›
      exact ⟨this.hostSide, this.errors, this.status, this.draws⟩
  case warnClear => cases hv; exact ⟨r.hostSide, r.errors, r.status, r.draws⟩
  case reserved w => cases hv

/-- The state a command leaves keeps the invariant. -/
theorem exec_command_inv {i : Instr} (hi : IsCommand i) {s t : State} (h : s.Inv) (ht : exec i s = .next t) :
    t.Inv := by
  obtain ⟨v, hv, e⟩ := exec_command hi s
  rw [e] at ht
  cases ht
  split_ifs with hh
  · exact h.refuse hh
  · have hk := commandVerdict_keeps h hv
    cases v with
    | done t => exact State.Inv.complete hk ((commandVerdict_frame hv).errors.2.2.trans (by simpa using hh))
    | raise e => exact h.takeFatal hk

/-! ## The host's accesses -/

/-- Host-side fields bear on the invariant in nothing. -/
theorem State.Inv.host {s : State} (h : s.Inv) (cw : Word) (busy ovr : Bool) (arg lat : Operands) (draws : Nat)
    (agenda : List Turn) (script : List Line) (hostPc : Nat) (polls : List Nat)
    (busData : Word) :
    ({ s with
      cw := cw, busy := busy, ovr := ovr, arg := arg, lat := lat, draws := draws, agenda := agenda,
      script := script, hostPc := hostPc, polls := polls, busData := busData } : State).Inv :=
  ⟨h.cfgValid, h.spaces, h.cursor, h.message, h.output, h.expansion, h.snapshots, h.unlatched, h.errors,
    h.warnings, h.stream⟩

theorem State.Inv.writeInput {s : State} (h : s.Inv) {a : Nat} (ha : a < Config.size s.cfg .input) (b : Byte) :
    (s.writeBytes .input a [b]).Inv where
  cfgValid := h.cfgValid
  spaces sp := (h.spaces sp).writeBytes ha
  cursor := h.cursor
  message := ⟨h.message.1, h.message.2.1, State.Written.writeBytes (h.spaces .input) h.message.2.2⟩
  output := ⟨h.output.1, State.Written.writeBytes (h.spaces .input) h.output.2⟩
  expansion := ⟨h.expansion.1, State.Written.writeBytes (h.spaces .input) h.expansion.2⟩
  snapshots := ⟨h.snapshots.1, fun d hd k hk => State.Written.writeBytes (h.spaces .input) (h.snapshots.2 d hd k hk)⟩
  unlatched := h.unlatched
  errors := h.errors
  warnings := h.warnings
  stream := h.stream

theorem State.Inv.regWrite {s : State} (h : s.Inv) (r : Reg) (v : Word) : (s.regWrite r v).Inv := by
  cases r <;> first
    | exact h
    | exact h.host _ _ _ _ _ _ _ _ _ _ _
    | (simp only [State.regWrite, State.writeCmd]; split_ifs <;> exact h.host _ _ _ _ _ _ _ _ _ _ _)

end Sys2Proof.Machine
end

