-- ==== Sys2Proof/Laws/Outcomes.lean ====
section
/-! SUPPORT. How the ends of a command and of a stream element read in the terms claims use. -/

namespace Sys2Proof.Machine

/-! ## Ends of a command -/

theorem SameSpaces.refl (s : State) : SameSpaces s s := fun _ _ => rfl

/-- Taking a fatal error is what `EndsFatal` says. -/
theorem endsFatal_takeFatal (s : State) (e : Fatal) : EndsFatal s (s.takeFatal e) e.code e.info :=
  ⟨rfl, rfl, rfl, rfl, rfl, rfl, ⟨rfl, rfl, rfl, rfl, rfl, rfl, rfl, rfl, rfl⟩, ⟨rfl, rfl⟩, ⟨rfl, rfl⟩,
    ⟨rfl, rfl, rfl, rfl, rfl, rfl⟩, ⟨rfl, rfl⟩, ⟨rfl, rfl⟩, ⟨rfl, rfl⟩, fun sp _ => by cases sp <;> rfl⟩

/-- A refused command leaves everything but LAST and BUSY. -/
theorem refuse_same (s : State) : s.refuse.last = .refused ∧ s.refuse.busy = false ∧ SameHostSide s s.refuse
    ∧ SameErrors s s.refuse ∧ SameBlock s s.refuse :=
  ⟨rfl, rfl, ⟨rfl, rfl, rfl, rfl, rfl, rfl, rfl, rfl, rfl⟩, ⟨rfl, rfl, rfl, rfl⟩, ⟨rfl, rfl⟩, ⟨rfl, rfl⟩,
    ⟨rfl, rfl, rfl, rfl, rfl, rfl⟩, ⟨rfl, rfl⟩, ⟨rfl, rfl⟩, ⟨rfl, rfl⟩, fun sp _ => by cases sp <;> rfl⟩

/-- While HALT = 1 every instruction is refused (R254). -/
theorem exec_halted (i : Instr) {s : State} (h : s.halt = true) : exec i s = .next s.refuse := by
  cases i
  case demuxNext => show execDemuxNext s = _; simp [execDemuxNext, h]
  all_goals first
    | (show runCommand _ s = _; simp [runCommand, h])
    | (show runElement _ s = _; simp [runElement, h])

theorem runCommand_unhalted {body : State → Verdict} {s : State} (h : s.halt = false) :
    runCommand body s = .next (s.settle (body s)) := by simp [runCommand, h]

theorem runElement_unhalted {body : State → Flow} {s : State} (h : s.halt = false) :
    runElement body s = .next (s.settleFlow (body s)) := by simp [runElement, h]

theorem execDemuxNext_unhalted {s : State} {v : Verdict} (h : s.halt = false) (hv : demuxNextBody s = some v) :
    exec .demuxNext s = .next (s.settle v) := by
  show execDemuxNext s = _
  simp [execDemuxNext, h, hv]

/-! ## Warnings -/

theorem saturatingSucc_toNat (v : Word) : (saturatingSucc v).toNat = min (v.toNat + 1) 0xFFFFFFFF := by
  simp only [saturatingSucc]
  split_ifs with h
  · rw [h]; decide
  · have := v.isLt
    have h3 : v.toNat ≠ 4294967295 := fun x => h (BitVec.eq_of_toNat_eq x)
    simp; omega

theorem Warning.mask_getLsbD (w : Warning) (k : Nat) : w.mask.getLsbD k = decide (k = w.bit) := by
  have hb : w.bit < 8 := by cases w <;> decide
  simp only [Warning.mask, BitVec.getLsbD_shiftLeft]
  by_cases h : k = w.bit
  · subst h
    have : w.bit < 32 := by omega
    simp [this]
  · by_cases h2 : k < w.bit
    · simp [h, h2]
    · have : k - w.bit ≠ 0 := by omega
      simp [h, BitVec.getLsbD_one, this]

theorem warned_fields {s t : State} {w : Warning} (h1 : t.warn = s.warn ||| w.mask)
    (h2 : t.wcnt = saturatingSucc s.wcnt) : Warned s t w :=
  ⟨fun k => by rw [h1, BitVec.getLsbD_or, Warning.mask_getLsbD], by rw [h2, saturatingSucc_toNat]⟩

/-! ## Ends of a stream element -/

theorem trkRem_fall (s : State) (k : Nat) :
    (if s.trkOpen then wordOf (s.trkRem.toNat - k) else s.trkRem).toNat
      = if s.trkOpen then s.trkRem.toNat - k else s.trkRem.toNat := by
  split_ifs
  · have := s.trkRem.isLt
    exact wordOf_of_lt (by omega)
  · rfl

/-- Bytes consumed inside IN, and RS written. -/
theorem passed_consume {s : State} {k : Nat} (h : k ≤ s.left) (b : Byte) :
    Passed s { s.consume k with rs := b } k b :=
  ⟨⟨State.consume_iptr_toNat h, trkRem_fall s k⟩, rfl, rfl, rfl, rfl, rfl, rfl,
    ⟨rfl, rfl, rfl, rfl, rfl, rfl, rfl, rfl, rfl⟩, ⟨rfl, rfl, rfl, rfl⟩, ⟨rfl, rfl⟩, ⟨rfl, rfl⟩, ⟨rfl, rfl⟩, ⟨rfl, rfl⟩,
    ⟨rfl, rfl⟩, fun sp _ => by cases sp <;> rfl⟩

/-- An input ended with no message. -/
theorem inputOver_update (s : State) (iptr trkRem warn wcnt : Word) (rs : Byte) (isOpen : Bool) (draws : Nat) :
    InputOver s { s with
      iptr := iptr, trkRem := trkRem, trkOpen := isOpen, rs := rs, warn := warn, wcnt := wcnt, dmode := .ended,
      msgLen := 0, msgPos := 0, res0 := 0, res1 := 0, busy := false, last := .completed, draws := draws } :=
  ⟨⟨rfl, rfl⟩, ⟨rfl, rfl, rfl, rfl⟩, rfl, rfl, ⟨rfl, rfl, rfl, rfl, rfl, rfl, rfl, rfl, rfl⟩, ⟨rfl, rfl, rfl, rfl⟩,
    ⟨rfl, rfl⟩, ⟨rfl, rfl⟩, fun sp _ => by cases sp <;> rfl⟩

/-- A signal after bytes consumed inside IN, with RS written. -/
theorem signalled_consume {s : State} {k : Nat} (h : k ≤ s.left) (b : Byte) (w : Warning) :
    Signalled s (({ s.consume k with rs := b } : State).warnOn w).ended.noMessage.complete w k b := by
  have e : (({ s.consume k with rs := b } : State).warnOn w).ended.noMessage.complete = { s with
      iptr := wordOf (s.iptr.toNat + k)
      trkRem := if s.trkOpen then wordOf (s.trkRem.toNat - k) else s.trkRem
      trkOpen := s.trkOpen, rs := b, warn := s.warn ||| w.mask, wcnt := saturatingSucc s.wcnt, dmode := .ended,
      msgLen := 0, msgPos := 0, res0 := 0, res1 := 0, busy := false, last := .completed,
      draws := s.draws + 1 } := rfl
  rw [e]
  exact ⟨warned_fields rfl rfl, ⟨State.consume_iptr_toNat h, trkRem_fall s k⟩, rfl, rfl,
    inputOver_update s _ _ _ _ _ _ _⟩

/-! ## Delivering, in one update -/

theorem deliver_complete (t : State) : t.deliver.complete = { t with
    res0 := 1, res1 := t.msgLen, busy := false, last := .completed, draws := t.draws + 1 } := rfl

theorem unterm_deliver_complete (t : State) : (t.warnOn .unterm).deliver.complete = { t with
    warn := t.warn ||| Warning.unterm.mask, wcnt := saturatingSucc t.wcnt, res0 := 1, res1 := t.msgLen,
    busy := false, last := .completed, draws := t.draws + 1 } := rfl

theorem unterm_ended_deliver_complete (t : State) : (t.warnOn .unterm).ended.deliver.complete = { t with
    warn := t.warn ||| Warning.unterm.mask, wcnt := saturatingSucc t.wcnt, dmode := .ended, res0 := 1,
    res1 := t.msgLen, busy := false, last := .completed, draws := t.draws + 1 } := rfl

theorem cut_deliver_complete (t : State) : (((t.warnOn .trunc).ended.warnOn .unterm).deliver).complete = { t with
    warn := (t.warn ||| Warning.trunc.mask) ||| Warning.unterm.mask,
    wcnt := saturatingSucc (saturatingSucc t.wcnt), dmode := .ended, res0 := 1, res1 := t.msgLen, busy := false,
    last := .completed, draws := t.draws + 1 } := rfl

/-- A cell of MSG after bytes read from IN were copied to it. -/
theorem copied_cell {s : State} (hw : Memory.wf (unlisted s.cfg .msg) (s.mem .msg) = true) (site : ReadSite)
    (p n i : Nat) : (s.writeBytes .msg 0 (s.readBytes site .input p n)).cell .msg i
      = if i < n then some (s.readByte site .input (p + i)) else s.cell .msg i := by
  rw [State.writeBytes_cell _ _ _ _ _ hw]
  simp only [Nat.zero_le, true_and, Nat.zero_add, State.readBytes_length, Nat.sub_zero]
  split_ifs with h
  · exact State.readBytes_getElem? _ _ _ _ _ _ h
  · rfl

/-- A body copied to MSG and delivered, whatever became of the stream's registers and the warnings. -/
theorem delivered_update {s : State} (hw : Memory.wf (unlisted s.cfg .msg) (s.mem .msg) = true) (site : ReadSite)
    {p n : Nat} (hp : p < 2 ^ 32) (hn : n < 2 ^ 32) (iptr trkRem warn wcnt : Word) (rs : Byte) (dmode : DMode)
    (isOpen : Bool) (draws : Nat) :
    Delivered s { s.writeBytes .msg 0 (s.readBytes site .input p n) with
      iptr := iptr, trkRem := trkRem, trkOpen := isOpen, rs := rs, warn := warn, wcnt := wcnt, dmode := dmode,
      msgLen := wordOf n, msgPos := wordOf p, res0 := 1, res1 := wordOf n, busy := false, last := .completed,
      draws := draws } site p n :=
  ⟨⟨rfl, rfl⟩, wordOf_of_lt hn, wordOf_of_lt hp, rfl, wordOf_of_lt hn, copied_cell hw site p n,
    fun _ h _ => State.writeBytes_cell_other s _ _ _ h, rfl, ⟨rfl, rfl, rfl, rfl, rfl, rfl, rfl, rfl, rfl⟩,
    ⟨rfl, rfl, rfl, rfl⟩, ⟨rfl, rfl⟩, ⟨rfl, rfl⟩⟩

/-! ## ReadVLQ, to the byte -/

/-- Where ReadVLQ leaves the cursor: after the quantity, at the end of IN, or after the last byte allowed. -/
theorem State.readVlqFrom_exact (k v : Nat) (s : State) :
    (∃ n m, 1 ≤ m ∧ m ≤ k ∧ m ≤ s.left ∧ State.readVlqFrom k v s = .ok n (s.consume m))
      ∨ State.readVlqFrom k v s = .trunc (s.consume s.left)
      ∨ (k ≤ s.left ∧ State.readVlqFrom k v s = .malformed (s.consume k)) := by
  induction k generalizing v s with
  | zero => right; right; exact ⟨by omega, by simp [State.readVlqFrom]⟩
  | succ k ih =>
    rcases s.next1_cases with ⟨h, e⟩ | ⟨h, e⟩
    · by_cases hb : (s.readByte .next .input s.iptr.toNat).toNat < 0x80
      · left; exact ⟨_, 1, by omega, by omega, h, by simp only [State.readVlqFrom, e, hb, if_true]; rfl⟩
      · have hl := State.consume_left h
        rcases ih (v * 128 + (s.readByte .next .input s.iptr.toNat).toNat % 128) (s.consume 1) with
          ⟨n, m, h1, h2, h3, h4⟩ | h4 | ⟨h3, h4⟩
        · left
          refine ⟨n, 1 + m, by omega, by omega, by omega, ?_⟩
          simp only [State.readVlqFrom, e, hb, if_false, h4, State.consume_consume]
        · right; left
          simp only [State.readVlqFrom, e, hb, if_false, h4, State.consume_consume]
          rw [hl, show 1 + (s.left - 1) = s.left by omega]
        · right; right
          refine ⟨by omega, ?_⟩
          simp only [State.readVlqFrom, e, hb, if_false, h4, State.consume_consume, Nat.add_comm]
    · right; left; simp [State.readVlqFrom, e, h]

/-- Everything ReadVLQ can do, to the byte. -/
theorem State.readVlq_exact (s : State) :
    (∃ n m, 1 ≤ m ∧ m ≤ 4 ∧ m ≤ s.left ∧ s.readVlq = .ok n (s.consume m))
      ∨ s.readVlq = .trunc (s.consume s.left)
      ∨ (4 ≤ s.left ∧ s.readVlq = .malformed (s.consume 4)) := State.readVlqFrom_exact 4 0 s

/-- ReadVLQ does not look at RS. -/
theorem State.readVlqFrom_rs (k v : Nat) (b : Byte) (s : State) :
    State.readVlqFrom k v { s with rs := b } = match State.readVlqFrom k v s with
      | .ok n t => .ok n { t with rs := b }
      | .trunc t => .trunc { t with rs := b }
      | .malformed t => .malformed { t with rs := b } := by
  induction k generalizing v s with
  | zero => rfl
  | succ k ih =>
    by_cases h : s.iptr.toNat < s.inLen.toNat
    · have e : s.next1 = .ok (s.readByte .next .input s.iptr.toNat) (s.consume 1) := by simp [State.next1, h]
      have e' : ({ s with rs := b } : State).next1
          = .ok (s.readByte .next .input s.iptr.toNat) { s.consume 1 with rs := b } := by
        simp only [State.next1, h, if_true]; rfl
      simp only [State.readVlqFrom, e, e']
      split_ifs
      · rfl
      · exact ih _ _
    · have e : s.next1 = .trunc s := by simp [State.next1, h]
      have e' : ({ s with rs := b } : State).next1 = .trunc { s with rs := b } := by simp [State.next1, h]
      simp only [State.readVlqFrom, e, e']

/-! ## DEMUX_NEXT in SMF mode, iteration by iteration -/

/-- The event a byte begins, executed alone, is its rule inside the command. -/
theorem exec_decodeStatus (b : Byte) {s : State} (h : s.halt = false) :
    exec (decodeStatus b) s = .next (s.settleFlow (eventBody (decodeStatus b) s)) := by
  have key : ∀ i : Instr, i.format = .smfEvent → exec i s = .next (s.settleFlow (eventBody i s)) := by
    intro i hi
    cases i <;> simp only [Instr.format, reduceCtorEq] at hi
    all_goals exact runElement_unhalted h
  have hf : ∀ b : Byte, (decodeStatus b).format = .smfEvent := by decide
  exact key _ (hf b)

theorem smfIteration_dmode {s u : State} (e : smfIteration s = .go u) : u.dmode = s.dmode := by
  simp only [smfIteration] at e
  split_ifs at e
  · cases e; rfl
  · obtain ⟨m, r, _, _, rfl⟩ := trackEvent_go e; rfl
  · obtain ⟨_, l, rfl⟩ := openTrack_go e; rfl

/-- An iteration that ends the command ends DEMUX_NEXT. -/
theorem exec_demuxNext_done {s t : State} (hs : s.halt = false) (hd : s.dmode = .smf)
    (e : smfIteration s = .done t) : exec .demuxNext s = .next t.complete := by
  refine execDemuxNext_unhalted (v := .done t) hs ?_
  simp only [demuxNextBody, hd]
  rw [smfNext_eq, e]

theorem exec_demuxNext_raise {s : State} {f : Fatal} (hs : s.halt = false) (hd : s.dmode = .smf)
    (e : smfIteration s = .raise f) : exec .demuxNext s = .next (s.takeFatal f) := by
  refine execDemuxNext_unhalted (v := .raise f) hs ?_
  simp only [demuxNextBody, hd]
  rw [smfNext_eq, e]

end Sys2Proof.Machine
end

