-- ==== Sys2Proof/Laws/Emission.lean ====
section
/-! SUPPORT. EMIT: its frames one after the other are one append of all their bytes. -/

namespace Sys2Proof.Machine

/-- A write in two parts is a write of both. -/
theorem Memory.setMany_append (u : Option Byte) (a : Nat) (xs ys : List Byte) (m : Memory) :
    Memory.setMany u a (xs ++ ys) m = Memory.setMany u (a + xs.length) ys (Memory.setMany u a xs m) := by
  induction xs generalizing a m with
  | nil => rfl
  | cons x xs ih =>
    simp only [List.cons_append, Memory.setMany, List.length_cons]
    rw [ih, show a + 1 + xs.length = a + (xs.length + 1) by omega]

theorem appendOut_nil (s : State) : appendOut [] s = s := by
  cases s; simp [appendOut, State.writeBytes, State.setMem, State.mem, Memory.setMany]

/-- Two appends that fit a register are one. -/
theorem appendOut_append {s : State} {xs : List Byte} (ys : List Byte) (h : s.outLen.toNat + xs.length < 2 ^ 32) :
    appendOut ys (appendOut xs s) = appendOut (xs ++ ys) s := by
  have e : (appendOut xs s).outLen.toNat = s.outLen.toNat + xs.length := wordOf_of_lt h
  simp only [appendOut, State.writeBytes, State.setMem, State.mem, unlisted] at e ⊢
  rw [e, Memory.setMany_append, List.length_append, ← Nat.add_assoc]

/-- The bytes of the frames EMIT's loop appends. -/
def chunkFrames (d : Dialect) (dev : BitVec 7) : Nat → Nat → List Byte → List Byte
  | 0, _, _ => []
  | c + 1, addr, src =>
    frameBytes d dev addr (src.take maxChunk)
      ++ chunkFrames d dev c (addr + (src.take maxChunk).length) (src.drop maxChunk)

theorem chunkFrames_length (d : Dialect) (dev : BitVec 7) (c addr : Nat) (src : List Byte)
    (h : src.length ≤ 256 * c) : (chunkFrames d dev c addr src).length = src.length + c * (d.digits + 7) := by
  induction c generalizing addr src with
  | zero => simp at h; simp [chunkFrames, h]
  | succ c ih =>
    have hd : (src.drop maxChunk).length ≤ 256 * c := by simp [maxChunk]; omega
    have ht : (src.take maxChunk).length + (src.drop maxChunk).length = src.length := by
      rw [← List.length_append, List.take_append_drop]
    simp only [chunkFrames, List.length_append]
    rw [ih _ _ hd, frameBytes_length, Nat.add_mul]
    omega

/-- EMIT's loop is one append, where all frames fit a register. -/
theorem emitFrames_eq {d : Dialect} {dev : BitVec 7} (c addr : Nat) (src : List Byte) (s : State)
    (hs : src.length ≤ 256 * c) (h : s.outLen.toNat + (src.length + c * (d.digits + 7)) < 2 ^ 32) :
    emitFrames d dev c addr src s = appendOut (chunkFrames d dev c addr src) s := by
  induction c generalizing addr src s with
  | zero => simp [emitFrames, chunkFrames, appendOut_nil]
  | succ c ih =>
    have hd : (src.drop maxChunk).length ≤ 256 * c := by simp [maxChunk]; omega
    have ht : (src.take maxChunk).length + (src.drop maxChunk).length = src.length := by
      rw [← List.length_append, List.take_append_drop]
    rw [Nat.add_mul] at h
    have hf : s.outLen.toNat + (frameBytes d dev addr (src.take maxChunk)).length < 2 ^ 32 := by
      rw [frameBytes_length]; omega
    have e : (appendFrame d dev addr (src.take maxChunk) s).outLen.toNat
        = s.outLen.toNat + (frameBytes d dev addr (src.take maxChunk)).length := wordOf_of_lt hf
    simp only [emitFrames, chunkFrames]
    rw [ih _ _ _ hd (by rw [e, frameBytes_length]; omega)]
    exact appendOut_append _ hf

/-- The loop's bytes are the chunks' frames, in order. -/
theorem chunkFrames_eq (d : Dialect) (dev : BitVec 7) (addr : Nat) (src : List Byte) :
    chunkFrames d dev ((src.length + 255) / 256) addr src = emittedBytes d dev addr src := by
  have key : ∀ c addr (src : List Byte), c = (src.length + 255) / 256 → chunkFrames d dev c addr src
      = (List.range c).flatMap fun k => frameBytes d dev (addr + 256 * k) ((src.drop (256 * k)).take 256) := by
    intro c
    induction c with
    | zero => intro addr src _; rfl
    | succ c ih =>
      intro addr src hc
      have hd : c = ((src.drop maxChunk).length + 255) / 256 := by simp [maxChunk]; omega
      rw [List.range_succ_eq_map, List.flatMap_cons, List.flatMap_map, chunkFrames, ih _ _ hd]
      congr 1
      have hfun : ∀ k ∈ List.range c, frameBytes d dev (addr + (src.take maxChunk).length + 256 * k)
          (((src.drop maxChunk).drop (256 * k)).take 256)
          = frameBytes d dev (addr + 256 * k.succ) ((src.drop (256 * k.succ)).take 256) := by
        intro k hk
        have hl : (src.take maxChunk).length = 256 := by
          simp only [List.mem_range] at hk
          simp [maxChunk]; omega
        rw [hl, List.drop_drop, show maxChunk + 256 * k = 256 * k.succ by simp [maxChunk]; omega,
          show addr + 256 + 256 * k = addr + 256 * k.succ by omega]
      exact List.flatMap_congr hfun
  exact key _ addr src rfl

end Sys2Proof.Machine
end

