-- ==== Sys2Proof/Laws/Image.lean ====
section
/-! SUPPORT. INGEST: the body in MSG, the parts of a Data Set frame, and the cells a written frame leaves. -/

namespace Sys2Proof.Machine

/-! ## The body in MSG -/

/-- Reading cells that hold the bytes of a list gives the list. -/
theorem State.readBytes_of_cells {s : State} {site : ReadSite} {sp : Space} {a : Nat} {m : List Byte}
    (h : ∀ i, i < m.length → s.cell sp (a + i) = m[i]?) : s.readBytes site sp a m.length = m := by
  apply List.ext_getElem?
  intro i
  by_cases hi : i < m.length
  · rw [State.readBytes_getElem? _ _ _ _ _ _ hi]
    have e := h i hi
    rw [List.getElem?_eq_getElem hi] at e ⊢
    rw [State.readByte_of_cell e]
  · rw [List.getElem?_eq_none (by simp; omega), List.getElem?_eq_none (by omega)]

theorem message_of_holds {s : State} {m : List Byte} (h : Holds s m) : s.message = m := by
  have h1 : s.readBytes .message .msg 0 m.length = m :=
    State.readBytes_of_cells (fun i hi => by rw [Nat.zero_add]; exact h.2 i hi)
  unfold State.message
  rw [h.1, h1]

/-! ## The parts of a frame (R93, R173) -/

/-- A frame written out, with its parts found by INGEST's rule. -/
theorem isFrame_parts {d : Dialect} {dev cs : Byte} {digits payload m : List Byte}
    (h : IsFrame d dev digits payload cs m) :
    decodeDataSet m = some (dataSet d dev)
      ∧ frameRest d m = true ∧ frameAddress d m = addressOf 0 digits ∧ framePayload d m = payload
      ∧ frameSummed m = digits ++ payload ++ [cs] := by
  obtain ⟨rfl, hl, hlt, hp⟩ := h
  have e : [0x41, dev, d.byte, 0x12] ++ digits ++ payload ++ [cs, 0xF7]
      = 0x41 :: dev :: d.byte :: 0x12 :: (digits ++ (payload ++ [cs, 0xF7])) := by simp
  have hlen : 1 ≤ payload.length := List.length_pos_iff.mpr hp
  rw [e]
  refine ⟨?_, ?_, ?_, ?_, ?_⟩
  · cases d <;> simp [decodeDataSet, manufacturerId, dataSetCommand, dialectOfByte, Dialect.byte, dataSet]
  · simp only [frameRest, Bool.and_eq_true, decide_eq_true_eq, List.all_eq_true]
    refine ⟨⟨by simp; omega, ?_⟩, ?_⟩
    · have e3 : 0x41 :: dev :: d.byte :: 0x12 :: (digits ++ (payload ++ [cs, 0xF7]))
          = (0x41 :: dev :: d.byte :: 0x12 :: (digits ++ (payload ++ [cs]))) ++ [0xF7] := by simp
      rw [e3, List.getLast?_concat]; rfl
    simp only [List.drop_succ_cons, List.drop_zero]
    rw [List.take_left' hl]
    exact hlt
  · simp only [frameAddress, List.drop_succ_cons, List.drop_zero]
    rw [List.take_left' hl]
  · simp only [framePayload]
    rw [← List.drop_drop]
    simp only [List.drop_succ_cons, List.drop_zero]
    rw [List.drop_left' hl]
    apply List.take_left'
    simp; omega
  · simp only [frameSummed, List.drop_succ_cons, List.drop_zero]
    have e2 : digits ++ (payload ++ [cs, 0xF7]) = (digits ++ payload ++ [cs]) ++ [0xF7] := by simp
    rw [e2]
    apply List.take_left'
    simp

/-- A body whose first four bytes are those of a Data Set frame and whose rest checks is a frame. -/
theorem isFrame_of_parts {d : Dialect} {dev : Byte} {m : List Byte}
    (h : decodeDataSet m = some (dataSet d dev))
    (hr : frameRest d m = true) : ∃ digits payload cs, IsFrame d dev digits payload cs m := by
  have hh : ∃ tl, m = 0x41 :: dev :: d.byte :: 0x12 :: tl := by
    match m, h with
    | b0 :: b1 :: b2 :: b3 :: tl, h =>
      simp only [decodeDataSet] at h
      split_ifs at h with h1
      simp only [dialectOfByte] at h
      split_ifs at h with h2 h3
      · cases d <;> simp only [dataSet, Option.some.injEq, reduceCtorEq, Instr.dt1At3D.injEq] at h
        exact ⟨tl, by rw [h1.1, h1.2, h2, h]; rfl⟩
      · cases d <;> simp only [dataSet, Option.some.injEq, reduceCtorEq, Instr.dt1At57.injEq] at h
        exact ⟨tl, by rw [h1.1, h1.2, h3, h]; rfl⟩
    | [], h => cases d <;> simp [decodeDataSet] at h
    | [_], h => cases d <;> simp [decodeDataSet] at h
    | [_, _], h => cases d <;> simp [decodeDataSet] at h
    | [_, _, _], h => cases d <;> simp [decodeDataSet] at h
  obtain ⟨tl, rfl⟩ := hh
  simp only [frameRest, Bool.and_eq_true, decide_eq_true_eq, List.all_eq_true, List.drop_succ_cons,
    List.drop_zero, List.length_cons] at hr
  obtain ⟨⟨h1, h2⟩, h3⟩ := hr
  have hne : tl ≠ [] := fun e => by subst e; simp at h1
  have hlast : tl = tl.dropLast ++ [endMarker] := by
    have e1 := List.dropLast_append_getLast hne
    rw [List.getLast?_cons_cons, List.getLast?_cons_cons, List.getLast?_cons_cons,
      List.getLast?_eq_getLast_of_ne_nil (by simp)] at h2
    have e2 : tl.getLast hne = endMarker := by
      rw [List.getLast_cons hne] at h2; exact Option.some.inj h2
    rw [← e2]; exact e1.symm
  have hne2 : tl.dropLast ≠ [] := fun e => by
    have := congrArg List.length e; simp at this; omega
  have hdl := List.dropLast_append_getLast hne2
  refine ⟨tl.take d.digits, (tl.dropLast.dropLast).drop d.digits, tl.dropLast.getLast hne2, ?_, ?_, h3, ?_⟩
  · have e3 : tl.take d.digits = (tl.dropLast.dropLast).take d.digits := by
      rw [List.dropLast_eq_take, List.dropLast_eq_take, List.take_take, List.take_take]
      congr 1
      simp; omega
    rw [e3]
    simp only [List.cons_append, List.nil_append, List.append_assoc]
    congr 4
    rw [← List.append_assoc, List.take_append_drop]
    conv_lhs => rw [hlast, ← hdl]
    simp [endMarker]
  · simp; omega
  · intro e
    have := congrArg List.length e
    simp at this; omega

/-- INGEST's rule on a body. -/
theorem exec_ingest {s : State} (h : s.halt = false) : exec .ingest s = .next (s.settle (ingestMessage s.message s)) :=
  runCommand_unhalted h

/-- Every instruction that ingests a body does so by the rule of the frame's dialect. -/
theorem exec_ingester {d : Dialect} {dev cs : Byte} {digits payload m : List Byte} {i : Instr} {s : State}
    (hi : i ∈ ingesters d dev) (hs : s.halt = false) (hm : Holds s m) (hf : IsFrame d dev digits payload cs m) :
    exec i s = .next (s.settle (ingestFrame d m s)) := by
  have hmsg := message_of_holds hm
  have hd := (isFrame_parts hf).1
  simp only [ingesters, List.mem_cons, List.not_mem_nil, or_false] at hi
  rcases hi with rfl | rfl
  · rw [exec_ingest hs, hmsg]
    cases d <;> simp only [ingestMessage, hd, dataSet] <;> rfl
  · cases d
    · show runCommand _ s = _
      rw [runCommand_unhalted hs, hmsg]; rfl
    · show runCommand _ s = _
      rw [runCommand_unhalted hs, hmsg]; rfl

/-! ## The cells a written frame leaves -/

/-- Every cell of DMEM holds a value (R63). -/
theorem dmem_cell_some (s : State) (a : Nat) : ∃ b, s.cell .dmem a = some b := by
  simp only [State.cell, Memory.cell]
  split
  · exact ⟨_, rfl⟩
  · exact ⟨_, rfl⟩

theorem dmem_cell_read (s : State) (site : ReadSite) (a : Nat) : s.cell .dmem a = some (s.readByte site .dmem a) := by
  obtain ⟨b, h⟩ := dmem_cell_some s a
  rw [h, State.readByte_of_cell h]

/-- A snapshot's cells: the region's bytes at the next entry, the rest of SNAP as before. -/
theorem takeSnapshot_snap {s : State} (h : s.SpaceOk .snap) (d : Dialect) (a : Nat) :
    (takeSnapshot d s).cell .snap a
      = if s.snapCount.toNat * s.cfg.snapEntry ≤ a
            ∧ a < s.snapCount.toNat * s.cfg.snapEntry + Config.tmpLen s.cfg d then
          s.cell .dmem (Config.tmpBase s.cfg d + (a - s.snapCount.toNat * s.cfg.snapEntry))
        else s.cell .snap a := by
  refine (State.writeBytes_cell s .snap _ _ a h.1).trans ?_
  rw [State.readBytes_length]
  split_ifs with hr
  · rw [State.readBytes_getElem? _ _ _ _ _ _ (by omega)]
    exact (dmem_cell_read s .snapshot _).symm
  · rfl

theorem takeSnapshot_other (s : State) (d : Dialect) {sp : Space} (h : sp ≠ .snap) (a : Nat) :
    (takeSnapshot d s).cell sp a = s.cell sp a := State.writeBytes_cell_other s _ _ _ h

end Sys2Proof.Machine
end

