-- ==== Sys2Proof/Laws/PerInstr.lean ====
section
/-! SUPPORT. Per instruction: the code an instruction is spelled by is of its table's kind, a command word for the twelve
rows of CMDW and at least one stream byte for every other row (R80, R90, R93). -/

namespace Sys2Proof.Laws.CodeKind

/-- The encoder gives a well-formed instruction a word exactly in format CMDW, and else at least one byte. -/
def Statement (i : Instr) : Prop :=
  WellFormed i → (i.format = .cmdw ∧ ∃ w, encode i = .word w)
    ∨ (i.format ≠ .cmdw ∧ ∃ b bs, encode i = .bytes (b :: bs))

theorem nop : Statement .nop := fun _ => .inl ⟨rfl, _, rfl⟩
theorem imgInit : Statement .imgInit := fun _ => .inl ⟨rfl, _, rfl⟩
theorem streamLoad : Statement .streamLoad := fun _ => .inl ⟨rfl, _, rfl⟩
theorem demuxNext : Statement .demuxNext := fun _ => .inl ⟨rfl, _, rfl⟩
theorem ingest : Statement .ingest := fun _ => .inl ⟨rfl, _, rfl⟩
theorem readRegion : Statement .readRegion := fun _ => .inl ⟨rfl, _, rfl⟩
theorem emit : Statement .emit := fun _ => .inl ⟨rfl, _, rfl⟩
theorem outClear : Statement .outClear := fun _ => .inl ⟨rfl, _, rfl⟩
theorem crc32 : Statement .crc32 := fun _ => .inl ⟨rfl, _, rfl⟩
theorem inflate : Statement .inflate := fun _ => .inl ⟨rfl, _, rfl⟩
theorem warnClear : Statement .warnClear := fun _ => .inl ⟨rfl, _, rfl⟩
theorem reserved (word : Word) : Statement (.reserved word) := fun _ => .inl ⟨rfl, _, rfl⟩
theorem smfRunningData (data : BitVec 7) : Statement (.smfRunningData data) := fun _ => .inr ⟨nofun, _, _, rfl⟩
theorem smfCh8 (ch : BitVec 4) : Statement (.smfCh8 ch) := fun _ => .inr ⟨nofun, _, _, rfl⟩
theorem smfCh9 (ch : BitVec 4) : Statement (.smfCh9 ch) := fun _ => .inr ⟨nofun, _, _, rfl⟩
theorem smfChA (ch : BitVec 4) : Statement (.smfChA ch) := fun _ => .inr ⟨nofun, _, _, rfl⟩
theorem smfChB (ch : BitVec 4) : Statement (.smfChB ch) := fun _ => .inr ⟨nofun, _, _, rfl⟩
theorem smfProgramChange (ch : BitVec 4) : Statement (.smfProgramChange ch) := fun _ => .inr ⟨nofun, _, _, rfl⟩
theorem smfChannelPressure (ch : BitVec 4) : Statement (.smfChannelPressure ch) := fun _ => .inr ⟨nofun, _, _, rfl⟩
theorem smfChE (ch : BitVec 4) : Statement (.smfChE ch) := fun _ => .inr ⟨nofun, _, _, rfl⟩
theorem smfSysexStart : Statement .smfSysexStart := fun _ => .inr ⟨nofun, _, _, rfl⟩
theorem smfMtcQuarterFrame : Statement .smfMtcQuarterFrame := fun _ => .inr ⟨nofun, _, _, rfl⟩
theorem smfSongPosition : Statement .smfSongPosition := fun _ => .inr ⟨nofun, _, _, rfl⟩
theorem smfSongSelect : Statement .smfSongSelect := fun _ => .inr ⟨nofun, _, _, rfl⟩
theorem smfUndefinedCommon (low : BitVec 1) : Statement (.smfUndefinedCommon low) := fun _ => .inr ⟨nofun, _, _, rfl⟩
theorem smfTuneRequest : Statement .smfTuneRequest := fun _ => .inr ⟨nofun, _, _, rfl⟩
theorem smfSysexEscape : Statement .smfSysexEscape := fun _ => .inr ⟨nofun, _, _, rfl⟩
theorem smfRealtime (low : BitVec 3) : Statement (.smfRealtime low) := fun _ => .inr ⟨nofun, _, _, rfl⟩
theorem smfMeta : Statement .smfMeta := fun _ => .inr ⟨nofun, _, _, rfl⟩
theorem chunkMthd : Statement .chunkMthd := fun _ => .inr ⟨nofun, _, _, rfl⟩
theorem chunkMtrk : Statement .chunkMtrk := fun _ => .inr ⟨nofun, _, _, rfl⟩
theorem vlq (groups : List (BitVec 7)) : Statement (.vlq groups) := fun h => by
  match groups with
  | [] => exact absurd h (by decide)
  | [g] => exact .inr ⟨nofun, _, _, rfl⟩
  | g :: g' :: gs => exact .inr ⟨nofun, _, _, rfl⟩
theorem rawSysex : Statement .rawSysex := fun _ => .inr ⟨nofun, _, _, rfl⟩
theorem dt1At3D (dev : Byte) : Statement (.dt1At3D dev) := fun _ => .inr ⟨nofun, _, _, rfl⟩
theorem dt1At57 (dev : Byte) : Statement (.dt1At57 dev) := fun _ => .inr ⟨nofun, _, _, rfl⟩
theorem dt1Emit (d : Dialect) (dev : BitVec 7) (addr : Nat) (payload : List Byte) : Statement (.dt1Emit d dev addr payload) := fun _ => .inr ⟨nofun, _, _, rfl⟩

end Sys2Proof.Laws.CodeKind
end

