-- ==== Sys2Proof/Laws/Script.lean ====
section
/-! SUPPORT. The host's scripts: what the encoding of a statement is, how the host carries it out, and the labels of an
assembled script. -/

namespace Sys2Proof.Machine

/-! ## Runs of several steps -/

theorem Steps.one {s t : State} (h : step s = .next t) : Steps 1 s t := ⟨t, h, rfl⟩

theorem Steps.trans {m n : Nat} {s t u : State} (h1 : Steps m s t) (h2 : Steps n t u) : Steps (m + n) s u := by
  induction m generalizing s with
  | zero => obtain rfl : t = s := h1; rwa [Nat.zero_add]
  | succ m ih =>
    obtain ⟨w, hw, h1⟩ := h1
    rw [Nat.succ_add]
    exact ⟨w, hw, ih h1⟩

/-! ## The encoding of a statement -/

@[simp] theorem OperandName.value_number (n : OperandName) (v : Word) : n.value (.number v) = some v := rfl

/-- A value has a meaning under a name exactly as R96 lists it. -/
theorem OperandName.value_eq {n : OperandName} {x : OperandValue} {v : Word} :
    n.value x = some v ↔ x = .number v ∨ (n, x, v) ∈ operandWords := by
  cases x
  case number w => simp [OperandName.value, operandWords]
  all_goals
    simp only [OperandName.value, operandWords, List.mem_cons, Prod.mk.injEq, reduceCtorEq, Option.ite_none_right_eq_some,
      Option.some.injEq, List.not_mem_nil, false_and, and_false, true_and, or_false, false_or]
    exact and_congr_right fun _ => eq_comm

/-- An operand name has a register exactly as R96 lists it. -/
theorem operandSlot_eq {i : Instr} {n : OperandName} {k : Slot} (h : operandSlot i n = some k) :
    ∃ m, (i, n, m) ∈ operandNames ∧ k.reg.offset = 0x18 + 4 * m := by
  cases i <;> cases n <;> simp only [operandSlot, reduceCtorEq, Option.some.injEq] at h
  all_goals
    subst h
    first
      | exact ⟨0, by decide, rfl⟩ | exact ⟨1, by decide, rfl⟩ | exact ⟨2, by decide, rfl⟩ | exact ⟨3, by decide, rfl⟩
      | exact ⟨4, by decide, rfl⟩ | exact ⟨5, by decide, rfl⟩

/-- The writes of a statement's operands exist exactly where every name and every value has a meaning. -/
theorem operandWrites_isSome (i : Instr) (operands : List (OperandName × OperandValue)) :
    (operandWrites i operands).isSome = true ↔
      ∀ p ∈ operands, (operandSlot i p.1).isSome = true ∧ (p.1.value p.2).isSome = true := by
  induction operands with
  | nil => simp [operandWrites]
  | cons p rest ih =>
    obtain ⟨n, x⟩ := p
    simp only [operandWrites, List.mem_cons, forall_eq_or_imp, ← ih]
    cases operandSlot i n <;> cases n.value x <;> cases operandWrites i rest <;> simp

/-- What one operand adds to the writes of the others. -/
theorem operandWrites_cons {i : Instr} {p : OperandName × OperandValue} {rest : List (OperandName × OperandValue)}
    {ts : List Turn} (h : operandWrites i (p :: rest) = some ts) :
    ∃ k v us, operandSlot i p.1 = some k ∧ p.1.value p.2 = some v ∧ operandWrites i rest = some us
      ∧ ts = writeReg k.reg v :: us := by
  simp only [operandWrites] at h
  split at h
  · cases h; exact ⟨_, _, _, ‹_›, ‹_›, ‹_›, rfl⟩
  · cases h

/-- The encoding of a statement is the writes of its operands and the write of its word. -/
theorem encodeStatement_eq {i : Instr} {operands : List (OperandName × OperandValue)} {ts : List Turn}
    (h : encodeStatement i operands = some ts) :
    ∃ w us, encode i = .word w ∧ operandWrites i operands = some us ∧ ts = us ++ [writeReg .cmd w] := by
  simp only [encodeStatement] at h
  split at h
  · cases h; exact ⟨_, _, ‹_›, ‹_›, rfl⟩
  · cases h

/-! ## Carrying a statement out -/

/-- A step that takes a write of an operand register. -/
theorem step_writeArg {s : State} {k : Slot} {v : Word} {rest : List Turn} (h : s.agenda = writeReg k.reg v :: rest) :
    step s = .next { s with agenda := rest, arg := s.arg.put k v } := by
  cases k <;> simp only [step, h, writeReg, Slot.reg] <;> rfl

/-- A step that takes a write of CMD while BUSY = 0: the command is issued. -/
theorem step_writeCmd {s : State} {w : Word} {rest : List Turn} (h : s.agenda = writeReg .cmd w :: rest)
    (hb : s.busy = false) : step s = .next { s with agenda := rest, lat := s.arg, cw := w, busy := true } := by
  have e : step s = .next (({ s with agenda := rest } : State).writeCmd w) := by
    simp only [step, h, writeReg]; rfl
  simp only [e, State.writeCmd, hb, Bool.false_eq_true, if_false]

/-- A step that takes a read of STATUS. -/
theorem step_readStatus {s : State} {rest : List Turn} (h : s.agenda = readStatus :: rest) :
    step s = .next { s with agenda := rest, busData := s.statusWord, draws := s.draws + 1 } := by
  simp only [step, h, readStatus]; rfl

/-- A step that takes CORE's turn while BUSY = 1: the Execute of the command CW decodes to. -/
theorem step_core {s : State} {rest : List Turn} (h : s.agenda = .core :: rest) (hb : s.busy = true) :
    step s = exec s.fetch { s with agenda := rest } := by
  simp only [step, h, coreTurn, hb, if_true]; rfl

/-- The operand registers after one operand more. -/
theorem written_cons {i : Instr} {p : OperandName × OperandValue} {k : Slot} {v : Word} (hk : operandSlot i p.1 = some k)
    (hv : p.1.value p.2 = some v) (ps : List (OperandName × OperandValue)) (o : Operands) :
    written i (p :: ps) o = written i ps (o.put k v) := by
  simp only [written, List.foldl_cons, hk, hv]

/-- The host writes the operands of a statement, in order. -/
theorem steps_operands {i : Instr} {operands : List (OperandName × OperandValue)} {ts rest : List Turn} {s : State}
    (h : operandWrites i operands = some ts) (ha : s.agenda = ts ++ rest) :
    Steps ts.length s { s with agenda := rest, arg := written i operands s.arg } := by
  induction operands generalizing ts s with
  | nil =>
    cases h
    show _ = s
    rw [List.nil_append] at ha
    subst ha
    rfl
  | cons p ps ih =>
    obtain ⟨k, v, us, hk, hv, hu, rfl⟩ := operandWrites_cons h
    refine ⟨_, step_writeArg ha, ?_⟩
    rw [written_cons hk hv]
    exact ih (s := { s with agenda := us ++ rest, arg := s.arg.put k v }) hu rfl

/-- The host reads STATUS, any number of times. -/
theorem steps_reads (n : Nat) {rest : List Turn} {s : State} (ha : s.agenda = List.replicate n readStatus ++ rest) :
    Steps n s { s with
      agenda := rest, busData := if n = 0 then s.busData else s.statusWord, draws := s.draws + n } := by
  induction n generalizing s with
  | zero =>
    show _ = s
    rw [List.replicate_zero, List.nil_append] at ha
    subst ha
    rfl
  | succ n ih =>
    refine ⟨_, step_readStatus ha, ?_⟩
    have := ih (s := { s with
      agenda := List.replicate n readStatus ++ rest, busData := s.statusWord, draws := s.draws + 1 }) rfl
    rw [if_neg (Nat.succ_ne_zero n), show s.draws + (n + 1) = s.draws + 1 + n by omega]
    by_cases hn : n = 0
    · simp only [if_pos hn] at this; exact this
    · simp only [if_neg hn] at this; exact this

/-- A statement at the host's place in its script, taken: its writes and its polling go on the agenda. -/
theorem step_command {s : State} {label : Option Nat} {i : Instr} {operands : List (OperandName × OperandValue)}
    {ts : List Turn} (hb : s.busy = false) (ha : s.agenda = [])
    (hl : s.script[s.hostPc]? = some ⟨label, some (.command i operands)⟩) (ht : encodeStatement i operands = some ts) :
    step s = .next { s with
      hostPc := s.hostPc + 1, agenda := ts ++ pollTurns (s.polls.headD 0), polls := s.polls.tail } := by
  simp only [step, ha, hb, Bool.false_eq_true, if_false, hostStatement, hl, ht]

/-- STATUS shows BUSY in bit 0. -/
theorem State.statusWord_busy (s : State) : s.statusWord.getLsbD 0 = s.busy := by
  simp only [State.statusWord, flagWord]
  cases s.busy <;> cases s.halt <;> cases s.ovr <;> cases s.last <;> rfl

/-! ## Labels of an assembled script -/

/-- The labels the lines of a script carry. -/
def carried (lines : List Line) : List Nat := lines.filterMap Line.label

/-- The labels the lines of a script as written carry. -/
def carriedAsWritten (src : List SourceLine) : List Nat := src.filterMap SourceLine.label

/-- `freshLabel` lies above every label a script as written carries or jumps to. -/
theorem lt_freshLabel {src : List SourceLine} {l : SourceLine} (hl : l ∈ src) {k : Nat} (hk : k ∈ l.labels) :
    k < freshLabel src := by
  have above : ∀ (ks : List Nat) (m : Nat), m ≤ ks.foldr (fun k m => max (k + 1) m) m
      ∧ ∀ k ∈ ks, k < ks.foldr (fun k m => max (k + 1) m) m := by
    intro ks m
    induction ks with
    | nil => simp
    | cons a ks ih => simp only [List.foldr_cons, List.mem_cons, forall_eq_or_imp]; grind
  induction src with
  | nil => cases hl
  | cons l' ls ih =>
    simp only [freshLabel]
    rcases List.mem_cons.mp hl with rfl | h
    · exact (above _ _).2 k hk
    · exact Nat.lt_of_lt_of_le (ih h) (above _ _).1

/-- A line expanded carries its own label, and beside it only the two labels given to it, each once. -/
theorem carried_expandLine (fresh : Nat) (l : SourceLine) :
    carried (expandLine fresh l) = l.label.toList ∨ carried (expandLine fresh l) = l.label.toList ++ [fresh, fresh + 1] := by
  obtain ⟨label, stmt⟩ := l
  cases stmt with
  | none => left; cases label <;> rfl
  | some st =>
    cases st with
    | drain => right; cases label <;> rfl
    | _ => left; cases label <;> rfl

/-- Every label of an assembled script is carried by one line only, where that held of the script as written; the labels
of its DRAINs are not among those the script as written carries (R98). -/
theorem carried_expandFrom (src : List SourceLine) (fresh : Nat) (hn : (carriedAsWritten src).Nodup)
    (hf : ∀ k ∈ carriedAsWritten src, k < fresh) :
    (carried (expandFrom fresh src)).Nodup
      ∧ ∀ k ∈ carried (expandFrom fresh src), k ∈ carriedAsWritten src ∨ fresh ≤ k := by
  induction src generalizing fresh with
  | nil => simp [expandFrom, carried]
  | cons l ls ih =>
    have split : carriedAsWritten (l :: ls) = l.label.toList ++ carriedAsWritten ls := by
      obtain ⟨label, st⟩ := l; cases label <;> rfl
    rw [split] at hn hf ⊢
    simp only [List.mem_append] at hf ⊢
    obtain ⟨h1, h2⟩ := ih (fresh + 2) (List.nodup_append.mp hn).2.1 fun k hk => by
      have := hf k (.inr hk); omega
    have e : carried (expandFrom fresh (l :: ls)) = carried (expandLine fresh l) ++ carried (expandFrom (fresh + 2) ls) := by
      simp [expandFrom, carried]
    have own : ∀ k ∈ carried (expandLine fresh l), k ∈ l.label.toList ∨ k = fresh ∨ k = fresh + 1 := by
      intro k hk
      rcases carried_expandLine fresh l with h | h <;> rw [h] at hk
      · exact .inl hk
      · simpa using hk
    have ownNodup : (carried (expandLine fresh l)).Nodup := by
      have := (List.nodup_append.mp hn).1
      rcases carried_expandLine fresh l with h | h <;> rw [h]
      · exact this
      · refine List.nodup_append.mpr ⟨this, by simp, fun a ha b hb => ?_⟩
        have := hf a (.inl ha)
        simp only [List.mem_cons, List.not_mem_nil, or_false] at hb
        omega
    rw [e]
    refine ⟨List.nodup_append.mpr ⟨ownNodup, h1, fun a ha b hb => ?_⟩, fun k hk => ?_⟩
    · rcases own a ha with h | h
      · rcases h2 b hb with h' | h'
        · exact (List.nodup_append.mp hn).2.2 a h b h'
        · have := hf a (.inl h); omega
      · rcases h2 b hb with h' | h'
        · have := hf b (.inr h'); omega
        · omega
    · rcases List.mem_append.mp hk with hk | hk
      · rcases own k hk with h | h
        · exact .inl (.inl h)
        · right; omega
      · rcases h2 k hk with h | h
        · exact .inl (.inr h)
        · right; omega

/-- R98: assembling a script keeps its labels unambiguous. -/
theorem assemble_nodup {src : List SourceLine} (h : (carriedAsWritten src).Nodup) : (carried (assemble src)).Nodup := by
  refine (carried_expandFrom src (freshLabel src) h fun k hk => ?_).1
  obtain ⟨l, hl, hk⟩ := List.mem_filterMap.mp hk
  exact lt_freshLabel hl (by simp [SourceLine.labels, hk])

end Sys2Proof.Machine
end

