-- ==== Sys2Proof/Tests/Slice0.lean ====
section
/-! SUPPORT. The model's own tests. First checks on syntax and decoding, then one step per instruction with expected
values from 95_test_vectors.md, then for every obligation with hypotheses a witness that meets them. -/

namespace Sys2Proof.Machine.Slice0Tests

open Sys2Proof Sys2Proof.Machine

set_option Elab.async false

/-! ## Small states -/

/-- The state an outcome goes on to, if any. -/
def ran (o : Host.Outcome State Fault Refusal) : Option State :=
  match o with
  | .next t => some t
  | .fault _ => none
  | .refused _ => none

/-- Fresh, under the test configuration (95_test_vectors.md section 1). -/
def fresh : State := State.reset

/-- Fresh, with bytes at the start of IN. -/
def withIn (bytes : List Byte) : State := fresh.writeBytes .input 0 bytes

/-- A stream bound and not yet read. -/
def bound (bytes : List Byte) : State := { withIn bytes with inLen := wordOf bytes.length }

/-- An open track that holds all of IN, the cursor at its first byte. -/
def track (bytes : List Byte) (rs : Byte) : State :=
  { bound bytes with dmode := .smf, trkOpen := true, trkRem := wordOf bytes.length, rs := rs }

/-- An SMF whose header is read, no track open, the cursor at a byte. -/
def between (bytes : List Byte) : State := { bound bytes with dmode := .smf }

/-- Raw mode, the cursor at the first byte of IN. -/
def rawAt (bytes : List Byte) : State := { bound bytes with dmode := .raw }

/-- A body in MSG, as RAW_SYSEX leaves it. -/
def held (body : List Byte) : State :=
  { (bound (0xF0 :: body)).writeBytes .msg 0 body with
    dmode := .raw, iptr := wordOf (body.length + 1), msgLen := wordOf body.length, msgPos := 1 }

/-- Fresh, with operands in the latches. -/
def withOps (o : Operands) (s : State) : State := { s with lat := o, arg := o }

/-- A state with a command word pending. -/
def pending (w : Word) (s : State) : State := { s with cw := w, busy := true }

/-- Halted by a reserved word. -/
def halted : State := fresh.takeFatal ⟨.command, 0x0B⟩

/-- HDR of 95_test_vectors.md section 1. -/
def hdr : List Byte := [0x4D, 0x54, 0x68, 0x64, 0, 0, 0, 6, 0, 0, 0, 1, 0, 0x60]

/-- TRK(L) of 95_test_vectors.md section 1, for L below 65536. -/
def trk (len : Nat) : List Byte := [0x4D, 0x54, 0x72, 0x6B, 0, 0, byteOf (len / 256), byteOf len]

/-- The frame body of vector G1. -/
def bodyG1 : List Byte := [0x41, 0x10, 0x3D, 0x12, 0x00, 0x10, 0x00, 0x05, 0x06, 0x65, 0xF7]

/-- The frame body of vector G12 at the trigger address. -/
def bodyTrig : List Byte := [0x41, 0x10, 0x3D, 0x12, 0x00, 0x20, 0x02, 0x13, 0x14, 0x37, 0xF7]

/-- The stream of vector S2. -/
def streamS2 : List Byte := hdr ++ trk 0x16 ++ [0x00, 0x90, 0x3C, 0x64, 0x10, 0x3E, 0x64, 0x00, 0xC0, 0x05]
  ++ [0x00, 0x06, 0x00, 0xF0, 0x03, 0x01, 0x02, 0xF7, 0x00, 0xFF, 0x2F, 0x00]

/-! ## Well-formedness -/

theorem test_wf_refuses_reserved : ¬ WellFormed (.reserved 0x0A) ∧ ¬ WellFormed (.reserved 0) := by decide

theorem test_wf_refuses_realtime : ¬ WellFormed (.smfRealtime 7) := by decide

theorem test_wf_refuses_vlq : ¬ WellFormed (.vlq []) ∧ ¬ WellFormed (.vlq [1, 2, 3, 4, 5]) := by decide

theorem test_wf_refuses_frame : ¬ WellFormed (.dt1Emit .d3D 0 0 []) ∧ ¬ WellFormed (.dt1Emit .d3D 0 0x1FFFFF [1, 2])
    ∧ ¬ WellFormed (.dt1Emit .d57 0 0xFFFFFFF [1, 2]) ∧ ¬ WellFormed (.dt1Emit .d3D 0 0 (List.replicate 257 1)) := by
  decide +kernel

/-! ## Decoding: words written out from R81, R84 to R87, R89, R91, R93, R202 -/

theorem test_decode_commands : [0, 1, 2, 3, 4, 5, 6, 7, 8, 9, 10, 11, 0x103].map (fun w => decodeTableWord 32 w)
    = [.nop, .imgInit, .streamLoad, .demuxNext, .ingest, .readRegion, .emit, .outClear, .crc32, .inflate, .warnClear,
        .reserved 11, .reserved 0x103].map some := by decide

theorem test_decode_channel : [0x3C, 0x80, 0x9F, 0xA1, 0xB2, 0xC3, 0xD4, 0xE5].map (fun w => decodeTableWord 8 w)
    = [.smfRunningData 0x3C, .smfCh8 0, .smfCh9 15, .smfChA 1, .smfChB 2, .smfProgramChange 3, .smfChannelPressure 4,
        .smfChE 5].map some := by decide

theorem test_decode_system :
    [0xF0, 0xF1, 0xF2, 0xF3, 0xF4, 0xF5, 0xF6, 0xF7, 0xF8, 0xFE, 0xFF].map (fun w => decodeTableWord 8 w)
    = [.smfSysexStart, .smfMtcQuarterFrame, .smfSongPosition, .smfSongSelect, .smfUndefinedCommon 0,
        .smfUndefinedCommon 1, .smfTuneRequest, .smfSysexEscape, .smfRealtime 0, .smfRealtime 6, .smfMeta].map some := by
  decide

theorem test_decode_chunks : decodeTableWord 32 0x4D546864 = some .chunkMthd
    ∧ decodeTableWord 32 0x4D54726B = some .chunkMtrk := by decide

theorem test_decode_frames : decodeTableWord 32 0x41103D12 = some (.dt1At3D 0x10)
    ∧ decodeTableWord 32 0x417F5712 = some (.dt1At57 0x7F) := by decide

theorem test_decode_streams : decode .raw (.bytes [0xF0]) = .ok (.rawSysex, [])
    ∧ decode .vlq (.bytes [0xFF, 0x7F]) = .ok (.vlq [127, 127], [])
    ∧ decode .vlq (.bytes [0x80, 0x80, 0x80, 0x80, 0x00]) = .error .overlongVlq
    ∧ decode .dt1Emit (.bytes [0xF0, 0x41, 0x7F, 0x57, 0x12, 0x00, 0x7F, 0x7F, 0x7F, 0, 1, 2, 0, 0xF7])
      = .ok (.dt1Emit .d57 0x7F 0x1FFFFF [0, 1, 2], [])
    ∧ decode .dt1Emit (.bytes [0xF0, 0x41, 0x7F, 0x57, 0x12, 0x00, 0x7F, 0x7F, 0x7F, 0, 1, 2, 1, 0xF7])
      = .error .notAFrame := by decide +kernel

/-- Every row's word, placed by `withFetchWord` after reset, is the next instruction step runs: here an INGEST of a
frame, and a channel event under DEMUX_NEXT. -/
theorem test_fetch_word : (State.reset.withFetchWord 32 9).fetch = .inflate
    ∧ (ran (step (State.reset.withFetchWord 32 0x41103D12))).map (fun t => (t.dialect, t.res0, t.halt))
      = some (some .d3D, 0, false)
    ∧ (ran (step (State.reset.withFetchWord 8 0x93))).map (fun t => (t.iptr, t.dmode, t.rs, t.warn))
      = some (4, .ended, 0x93, 0) := by decide +kernel

/-! ## One step per instruction -/

/-- C1: NOP keeps the results. -/
theorem test_nop : (ran (exec .nop (fresh.results 7 8))).map (fun t => (t.res0, t.res1, t.last))
    = some (7, 8, .completed) := by decide +kernel

/-- G16. -/
theorem test_imgInit : (ran (exec .imgInit { fresh.writeBytes .dmem 0x800 [5, 6] with
      dialect := some .d3D, snapCount := 1, iptr := 9 })).map
      (fun t => (t.cell .dmem 0x800, t.dialect, t.snapCount, t.iptr)) = some (some 0xFF, none, 0, 9) := by
  decide +kernel

/-- L2, L5. -/
theorem test_streamLoad : (ran (exec .streamLoad (withOps ⟨0x8000, 0, 0, 0, 0, 0⟩ (track [0x90] 0xF0)))).map
      (fun t => (t.res0, t.inLen, t.dmode, t.trkOpen, t.trkRem, t.rs)) = some (0x8000, 0x8000, .unset, false, 0, 0) := by
  decide +kernel

/-- L3. -/
theorem test_streamLoad_error : (ran (exec .streamLoad (pending 2 (withOps ⟨0x8001, 0, 0, 0, 0, 0⟩ fresh)))).map
      (fun t => (t.err, t.errInfo, t.halt, t.inLen)) = some (.command, 2, true, 0) := by decide +kernel

/-- R2, first call: an inner F0 is data. -/
theorem test_demuxNext_raw : (ran (exec .demuxNext (bound [0x12, 0xF0, 0x01, 0xF0, 0x02, 0xF7, 0xF0, 0x03]))).map
      (fun t => (t.res1, t.msgPos, t.iptr, t.dmode, t.readBytes .host .msg 0 4))
    = some (4, 2, 6, .raw, [0x01, 0xF0, 0x02, 0xF7]) := by decide +kernel

/-- S2, first call: running status, program change, a SysEx event. -/
theorem test_demuxNext_smf : (ran (exec .demuxNext (bound streamS2))).map
      (fun t => (t.msgPos, t.iptr, t.trkRem, t.rs, t.readBytes .host .msg 0 3))
    = some (37, 40, 4, 0xF0, [0x01, 0x02, 0xF7]) := by decide +kernel

/-- G1. -/
theorem test_ingest : (ran (exec .ingest (held bodyG1))).map
      (fun t => (t.res0, t.res1, t.dialect, t.readBytes .host .dmem 0x800 3))
    = some (0, 0, some .d3D, [0x05, 0x06, 0xFF]) := by decide +kernel

/-- G12: the snapshot at the trigger address is taken after the write. -/
theorem test_ingest_snapshot : (ran (exec .ingest ((held bodyTrig).writeBytes .dmem 0x1000 [0x11, 0x12]))).map
      (fun t => (t.res1, t.snapCount, t.readBytes .host .snap 0 4)) = some (1, 1, [0x11, 0x12, 0x13, 0x14]) := by
  decide +kernel

/-- Q4, Q2. -/
theorem test_readRegion : let s := { fresh.writeBytes .dmem 0x800 [5, 6] with dialect := some .d3D }
    (ran (exec .readRegion (withOps ⟨0x7FFF, 2, 0, 0, 0, 0⟩ s))).map (fun t => t.res0) = some 2
    ∧ (ran (exec .readRegion (withOps ⟨0x802, 1, 0, 0, 0, 0⟩ s))).map (fun t => t.res0) = some 0
    ∧ (ran (exec .readRegion (withOps ⟨0x800, 2, 0, 0, 0, 0⟩ s))).map (fun t => t.res0) = some 1 := by decide +kernel

/-- M1. -/
theorem test_emit : (ran (exec .emit (withOps ⟨0x3D, 0x800, 0, 0, 2, 0x10⟩ (withIn [0x05, 0x06])))).map
      (fun t => (t.res0, t.res1, t.readBytes .host .out 0 12))
    = some (1, 12, [0xF0, 0x41, 0x10, 0x3D, 0x12, 0x00, 0x10, 0x00, 0x05, 0x06, 0x65, 0xF7]) := by decide +kernel

/-- M10, M14: CommandErrors on a dialect with high bits and on a range past 128^3. -/
theorem test_emit_error : (ran (exec .emit (withOps ⟨0x13D, 0, 0, 0, 1, 0x10⟩ fresh))).map (fun t => t.err)
      = some .command
    ∧ (ran (exec .emit (withOps ⟨0x3D, 0x1FFFFF, 0, 0, 2, 0x10⟩ fresh))).map (fun t => t.err) = some .command := by
  decide +kernel

/-- M2. -/
theorem test_outClear : (ran (exec .outClear { fresh.writeBytes .out 0 [1] with outLen := 1 })).map
      (fun t => (t.outLen, t.cell .out 0, t.res0)) = some (0, some 1, 0) := by decide +kernel

/-- K7. -/
theorem test_crc32 : (ran (exec .crc32 (withOps ⟨0, 0, 9, 0xCBF43927, 2, 0⟩
        (withIn [0x31, 0x32, 0x33, 0x34, 0x35, 0x36, 0x37, 0x38, 0x39])))).map
      (fun t => (t.res0, t.res1, t.warn, t.wcnt, t.halt)) = some (0xCBF43926, 0, 0x80, 1, false) := by decide +kernel

/-- K5 with P5: a mismatch in fatal mode. -/
theorem test_crc32_fatal : (ran (exec .crc32 (withOps ⟨0, 0, 8, 0x01C4E616, 1, 0⟩
        (withIn [0x01, 0x03, 0x00, 0xFC, 0xFF, 0x61, 0x62, 0x63])))).map
      (fun t => (t.err, t.errInfo, t.res0)) = some (.containerCrc, 0x01C4E617, 0) := by decide +kernel

/-- X4, X3. -/
theorem test_inflate_errors : (ran (exec .inflate (pending 9 (withOps ⟨0x7FFC, 8, 3, 0, 0, 0⟩ fresh)))).map
      (fun t => (t.err, t.errInfo)) = some (.command, 9)
    ∧ (ran (exec .inflate (withOps ⟨0, 8, 257, 0, 0, 0⟩ fresh))).map (fun t => (t.err, t.errInfo, t.xlen))
      = some (.capacity, 4, 0) := by decide +kernel

/-- C2. -/
theorem test_warnClear : (ran (exec .warnClear { fresh with warn := 0x50, wcnt := 3, ovr := true, res0 := 1 })).map
      (fun t => (t.warn, t.wcnt, t.ovr, t.res0)) = some (0, 0, false, 0) := by decide +kernel

/-- C5, C4. -/
theorem test_reserved : (ran (step (pending 0x103 fresh))).map (fun t => (t.err, t.errInfo, t.last))
      = some (.command, 0x103, .fatal)
    ∧ (ran (step (pending 0 halted))).map (fun t => (t.err, t.errInfo, t.last, t.cw))
      = some (.command, 0x0B, .refused, 0) := by decide +kernel

/-- S6, S2: running status with no class, and with a class of one data byte. -/
theorem test_smfRunningData : (ran (exec (.smfRunningData 0x40) (track [0x40, 0x7F] 0))).map
      (fun t => (t.warn, t.iptr, t.dmode)) = some (0x08, 1, .ended)
    ∧ (ran (exec (.smfRunningData 0x06) (track [0x06, 0x00] 0xC0))).map (fun t => (t.iptr, t.rs)) = some (1, 0xC0) := by
  decide +kernel

/-- R91, R140 to R146: the data bytes of the channel classes. -/
theorem test_channel_events :
    [Instr.smfCh8 1, .smfCh9 1, .smfChA 1, .smfChB 1, .smfProgramChange 1, .smfChannelPressure 1, .smfChE 1].map
      (fun i => (ran (exec i (track [0, 0, 0, 0] 0))).map (fun t => (t.iptr, t.trkRem, t.rs)))
    = [some (3, 1, 0x81), some (3, 1, 0x91), some (3, 1, 0xA1), some (3, 1, 0xB1), some (2, 2, 0xC1),
        some (2, 2, 0xD1), some (3, 1, 0xE1)] := by decide +kernel

/-- S20: the data bytes of the system events. -/
theorem test_system_events :
    [Instr.smfMtcQuarterFrame, .smfSongPosition, .smfSongSelect, .smfUndefinedCommon 1, .smfTuneRequest,
      .smfRealtime 6].map (fun i => (ran (exec i (track [0, 0, 0, 0] 0))).map (fun t => (t.iptr, t.rs)))
    = [some (2, 0xF1), some (3, 0xF2), some (2, 0xF3), some (1, 0xF5), some (1, 0xF6), some (1, 0xFE)] := by
  decide +kernel

/-- S1, S10: a meta event skipped, RS kept; one cut off. -/
theorem test_smfMeta : (ran (exec .smfMeta (track [0xFF, 0x03, 0x02, 0x41, 0x42, 0x00] 0x90))).map
      (fun t => (t.iptr, t.rs, t.trkRem)) = some (5, 0x90, 1)
    ∧ (ran (exec .smfMeta (track [0xFF, 0x03, 0x05, 0x41] 0))).map (fun t => (t.warn, t.iptr, t.dmode))
      = some (0x04, 4, .ended) := by decide +kernel

/-- S15, S8: a SysEx of length 0, and one cut off by the end of IN. -/
theorem test_smfSysexStart : (ran (exec .smfSysexStart (track [0xF0, 0x00, 0x00] 0))).map
      (fun t => (t.res0, t.res1, t.warn, t.msgPos, t.dmode)) = some (1, 0, 0x02, 2, .smf)
    ∧ (ran (exec .smfSysexStart (track [0xF0, 0x0A, 0x01, 0x02, 0x03] 0))).map
      (fun t => (t.res1, t.warn, t.wcnt, t.dmode)) = some (3, 0x06, 2, .ended) := by decide +kernel

/-- S16. -/
theorem test_smfSysexEscape : (ran (exec .smfSysexEscape (track [0xF7, 0x02, 0x01, 0xF7] 0))).map
      (fun t => (t.res1, t.rs, t.warn, t.readBytes .host .msg 0 2)) = some (2, 0xF7, 0, [0x01, 0xF7]) := by
  decide +kernel

/-- R124, S13. -/
theorem test_chunkMthd : (ran (exec .chunkMthd (bound hdr))).map (fun t => (t.iptr, t.warn)) = some (14, 0)
    ∧ (ran (exec .chunkMthd (bound [0x4D, 0x54, 0x68, 0x64, 0, 0, 0, 7, 0, 0, 0, 1, 0, 0x60]))).map
      (fun t => (t.iptr, t.warn)) = some (0, 1) := by decide +kernel

/-- S19: a declared length past the end of IN is accepted. -/
theorem test_chunkMtrk : (ran (exec .chunkMtrk (between (trk 0x100 ++ [0x00])))).map
      (fun t => (t.iptr, t.trkRem, t.trkOpen, t.rs)) = some (8, 256, true, 0) := by decide +kernel

/-- S4, S5. -/
theorem test_vlq : (ran (exec (.vlq [127, 127, 127, 127]) (track [0xFF, 0xFF, 0xFF, 0x7F, 0xF0] 0))).map
      (fun t => (t.iptr, t.trkRem)) = some (4, 1)
    ∧ (ran (exec (.vlq [0, 0, 0, 0, 0]) (track [0x80, 0x80, 0x80, 0x80, 0x00] 0))).map (fun t => (t.iptr, t.warn))
      = some (4, 0x08) := by decide +kernel

/-- R5, R7. -/
theorem test_rawSysex : (ran (exec .rawSysex (rawAt [0xF0, 0xF7]))).map (fun t => (t.res1, t.msgPos, t.iptr, t.warn))
      = some (1, 1, 2, 0)
    ∧ (ran (exec .rawSysex (rawAt [0xF0]))).map (fun t => (t.res0, t.res1, t.warn, t.dmode))
      = some (1, 0, 0x02, .ended) := by decide +kernel

/-- G11: a frame that ends exactly at CAP. -/
theorem test_dt1At3D : (ran (exec (.dt1At3D 0x10)
      (held [0x41, 0x10, 0x3D, 0x12, 0x01, 0x7F, 0x7E, 0x01, 0x02, 0x7F, 0xF7]))).map
      (fun t => (t.res0, t.readBytes .host .dmem 0x7FFE 2)) = some (0, [0x01, 0x02]) := by decide +kernel

/-- G7, G9. -/
theorem test_dt1At57 : (ran (exec (.dt1At57 0x10)
      (held [0x41, 0x10, 0x57, 0x12, 0x00, 0x03, 0x7F, 0x7E, 0x01, 0x02, 0x03, 0x7A, 0xF7]))).map
      (fun t => (t.res0, t.warn, t.dialect)) = some (3, 0x40, none)
    ∧ (ran (exec (.dt1At57 0x10) { held [0x41, 0x10, 0x57, 0x12, 0, 0, 0, 0x10, 0x02, 0x00, 0xF7] with
        dialect := some .d3D })).map (fun t => (t.err, t.errInfo)) = some (.checksum, 0x10) := by decide +kernel

/-- M7: a checksum of 0. -/
theorem test_dt1Emit : (ran (exec (.dt1Emit .d3D 0 0 [0x7F, 0x01]) fresh)).map
      (fun t => (t.outLen, t.readBytes .host .out 0 12))
    = some (12, [0xF0, 0x41, 0x00, 0x3D, 0x12, 0x00, 0x00, 0x00, 0x7F, 0x01, 0x00, 0xF7]) := by decide +kernel

/-- P-1, R22: a CMD write while BUSY = 1 sets OVR only; STATUS reads field by field. -/
theorem test_issue_busy : (ran (hostAct (.regWrite 0 4 3) (pending 0 fresh))).map (fun t => (t.cw, t.ovr, t.statusWord))
    = some (0, true, 0x5) := by decide +kernel

/-- Z1: a reset of a halted block with a command pending. -/
theorem test_reset : (ran (hostAct .reset (pending 0 { halted with warn := 3 }))).map
      (fun t => (t.statusWord, t.err, t.warn)) = some (0, .none, 0) := by decide +kernel

/-- R97: the accesses of a statement, the STATUS reads among them, and what the last one returns. -/
theorem test_script_polls : (ran (hostStatement { fresh with
      script := [⟨none, some (.command .streamLoad [(.len, .number 4)])⟩], polls := [1] })).map (fun t => t.agenda)
    = some [.host (.regWrite 0x18 4 4), .host (.regWrite 0x00 4 2), .host (.regRead 0x04 4), .core,
        .host (.regRead 0x04 4)] := by decide +kernel

/-- R98: DRAIN's labels are fresh in each of two; a numeric source stays a number. -/
theorem test_script_expansion : assemble [⟨some 0, some .drain⟩, ⟨none, some .drain⟩,
      ⟨none, some (.crcCheck (.number 3) (.number 0) (.number 1) (.number 9))⟩, ⟨none, some (.plain (.goto 0))⟩]
    = [⟨some 0, none⟩, ⟨some 1, some (.command .demuxNext [])⟩, ⟨none, some (.ifReg .res0 true 0 2)⟩,
        ⟨none, some (.command .ingest [])⟩, ⟨none, some (.goto 1)⟩, ⟨some 2, none⟩]
      ++ [⟨some 3, some (.command .demuxNext [])⟩, ⟨none, some (.ifReg .res0 true 0 4)⟩,
        ⟨none, some (.command .ingest [])⟩, ⟨none, some (.goto 3)⟩, ⟨some 4, none⟩]
      ++ [⟨none, some (.command .crc32 [(.src, .number 3), (.off, .number 0), (.len, .number 1),
        (.expect, .number 9), (.mode, .fatal)])⟩, ⟨none, some (.goto 0)⟩] := by decide +kernel

/-- R96: an empty range past the end of a space copies nothing; one byte past the end is refused. -/
theorem test_copy_past_end : (ran (hostStatement { fresh with
      script := [⟨none, some (.copy .dmem 0x10001 0x10001 .input 0)⟩] })).map (fun t => (t.hostPc, t.agenda))
      = some (1, [])
    ∧ ran (hostStatement { fresh with script := [⟨none, some (.copy .dmem 0x10000 0x10001 .input 0)⟩] }) = none := by
  decide +kernel

/-- R96: a reversed range, a word under a name that has no value for it, and a name that is not the mnemonic's. -/
theorem test_script_refused : (ran (hostStatement { fresh with script := [⟨none, some (.copy .dmem 2 1 .input 0)⟩] }))
      = none ∧ encodeStatement .crc32 [(.len, .fatal)] = none
    ∧ encodeStatement .nop [(.len, .number 0)] = none := by decide

/-- A refused access (R66). -/
theorem test_narrow_access : ran (hostAct (.regRead 0x04 1) fresh) = none := by decide +kernel

/-! ## Checks that give what the hypotheses ask -/

/-- Whether n cells of a space from an offset on hold values. -/
def writtenCheck (s : State) (sp : Space) (lo n : Nat) : Bool :=
  (List.range n).all fun i => (s.cell sp (lo + i)).isSome

theorem written_of_check {s : State} {sp : Space} {lo n : Nat} (h : writtenCheck s sp lo n = true) :
    s.Written sp lo n := fun i hi => by
  simp only [writtenCheck, List.all_eq_true, List.mem_range] at h
  exact h i hi

/-- The invariant, computed. -/
def invCheck (s : State) : Bool :=
  Config.valid s.cfg
  && [Space.input, .msg, .dmem, .snap, .out, .xbuf].all (fun sp =>
    Memory.wf (unlisted s.cfg sp) (s.mem sp) && Memory.below (Config.size s.cfg sp) (s.mem sp))
  && decide (s.inLen.toNat ≤ s.cfg.inBytes ∧ s.iptr.toNat ≤ s.inLen.toNat)
  && (decide (s.msgPos.toNat + s.msgLen.toNat ≤ s.inLen.toNat ∧ s.msgLen.toNat ≤ s.cfg.msgBytes)
    && writtenCheck s .msg 0 s.msgLen.toNat)
  && (decide (s.outLen.toNat ≤ s.cfg.outBytes) && writtenCheck s .out 0 s.outLen.toNat)
  && (decide (s.xlen.toNat ≤ s.cfg.xbufBytes) && writtenCheck s .xbuf 0 s.xlen.toNat)
  && (decide (s.snapCount.toNat ≤ s.cfg.snapMax) && match s.dialect with
    | none => decide (s.dmem = [] ∧ s.snapCount = 0)
    | some d => (List.range s.snapCount.toNat).all fun k =>
      writtenCheck s .snap (k * s.cfg.snapEntry) (Config.tmpLen s.cfg d))
  && decide ((s.halt = true ↔ s.err ≠ .none) ∧ (s.err = .none → s.errInfo = 0)
    ∧ (s.halt = true ↔ s.last ≠ .completed))
  && decide (s.warn.toNat < 256 ∧ (s.warn = 0 ↔ s.wcnt = 0))
  && decide ((s.dmode = .unset → s.iptr = 0 ∧ s.trkOpen = false ∧ s.trkRem = 0 ∧ s.rs = 0 ∧ s.msgLen = 0
      ∧ s.msgPos = 0) ∧ (s.dmode = .raw → s.trkOpen = false ∧ s.trkRem = 0 ∧ s.rs = 0))

theorem inv_of_check {s : State} (h : invCheck s = true) : s.Inv := by
  simp only [invCheck, Bool.and_eq_true, decide_eq_true_eq] at h
  obtain ⟨⟨⟨⟨⟨⟨⟨⟨⟨h1, h2⟩, h3⟩, h4⟩, h5⟩, h6⟩, h7⟩, h8⟩, h9⟩, h10⟩ := h
  refine ⟨h1, fun sp => ?_, h3, ⟨h4.1.1, h4.1.2, written_of_check h4.2⟩, ⟨h5.1, written_of_check h5.2⟩,
    ⟨h6.1, written_of_check h6.2⟩, ⟨h7.1, ?_⟩, ?_, h8, h9, h10⟩
  · have := List.all_eq_true.mp h2 sp (by cases sp <;> simp)
    simp only [Bool.and_eq_true] at this
    exact this
  · intro d hd k hk
    have := h7.2
    rw [hd] at this
    exact written_of_check (List.all_eq_true.mp this k (List.mem_range.mpr hk))
  · intro hd
    have := h7.2
    rw [hd] at this
    exact of_decide_eq_true this

/-- A raw body, computed. -/
def rawBodyCheck (s : State) (j n : Nat) (terminated : Bool) : Bool :=
  if terminated then
    decide (j + n < s.inLen.toNat ∧ 1 ≤ n ∧ s.readByte .rawFind .input (j + n) = endMarker)
      && (List.range (j + n)).all (fun k => decide (j < k → s.readByte .rawFind .input k ≠ endMarker))
  else
    decide (n = s.inLen.toNat - (j + 1))
      && (List.range s.inLen.toNat).all (fun k => decide (j < k → s.readByte .rawFind .input k ≠ endMarker))

theorem rawBody_of_check {s : State} {j n : Nat} {terminated : Bool} (h : rawBodyCheck s j n terminated = true) :
    RawBody s j n terminated := by
  cases terminated <;> simp only [rawBodyCheck, RawBody, Bool.false_eq_true, if_false, if_true, Bool.and_eq_true,
    decide_eq_true_eq, List.all_eq_true, List.mem_range] at h ⊢
  · exact ⟨h.1, fun k h1 h2 => h.2 k h2 h1⟩
  · exact ⟨h.1.1, h.1.2.1, h.1.2.2, fun k h1 h2 => h.2 k h2 h1⟩

/-- No start marker in [lo, hi) of IN, computed. -/
def noMarkerCheck (s : State) (lo hi : Nat) : Bool :=
  (List.range hi).all fun k => decide (lo ≤ k → s.readByte .rawScan .input k ≠ 0xF0)

theorem noMarker_of_check {s : State} {lo hi : Nat} (h : noMarkerCheck s lo hi = true) :
    ∀ k, lo ≤ k → k < hi → s.readByte .rawScan .input k ≠ 0xF0 := fun k h1 h2 => by
  simp only [noMarkerCheck, List.all_eq_true, List.mem_range, decide_eq_true_eq] at h
  exact h k h2 h1

/-- MSG holding a body, computed. -/
def holdsCheck (s : State) (m : List Byte) : Bool :=
  decide (s.msgLen.toNat = m.length) && (List.range m.length).all (fun i => decide (s.cell .msg i = m[i]?))

theorem holds_of_check {s : State} {m : List Byte} (h : holdsCheck s m = true) : Holds s m := by
  simp only [holdsCheck, Bool.and_eq_true, decide_eq_true_eq, List.all_eq_true, List.mem_range] at h
  exact h

/-- An outcome is a next state whose view is as computed. -/
theorem next_of_check {o : Host.Outcome State Fault Refusal} {f : State → Bool} (h : (ran o).map f = some true) :
    ∃ t, o = .next t ∧ f t = true := by
  cases o <;> simp only [ran, Option.map_none, Option.map_some, Option.some.injEq, reduceCtorEq] at h
  exact ⟨_, rfl, h⟩

/-- A result of ReadVLQ that is a value, computed. -/
def vlqIs (r : Sig Nat) (n left : Nat) : Bool :=
  match r with
  | .ok m t => decide (m = n ∧ t.left = left)
  | .trunc _ => false
  | .malformed _ => false

theorem vlq_of_check {r : Sig Nat} {n left : Nat} (h : vlqIs r n left = true) : ∃ t, r = .ok n t ∧ t.left = left := by
  cases r <;> simp only [vlqIs, decide_eq_true_eq, Bool.false_eq_true] at h
  obtain ⟨rfl, h⟩ := h
  exact ⟨_, rfl, h⟩

/-- Whether a result of ReadVLQ is TRUNC. -/
def isTrunc (r : Sig Nat) : Bool :=
  match r with
  | .trunc _ => true
  | .ok _ _ => false
  | .malformed _ => false

theorem trunc_of_check {r : Sig Nat} (h : isTrunc r = true) : ∃ t, r = .trunc t := by
  cases r <;> simp only [isTrunc, Bool.false_eq_true] at h
  exact ⟨_, rfl⟩

/-- Whether a result of ReadVLQ is MALFORMED. -/
def isMalformed (r : Sig Nat) : Bool :=
  match r with
  | .malformed _ => true
  | .ok _ _ => false
  | .trunc _ => false

theorem malformed_of_check {r : Sig Nat} (h : isMalformed r = true) : ∃ t, r = .malformed t := by
  cases r <;> simp only [isMalformed, Bool.false_eq_true] at h
  exact ⟨_, rfl⟩

/-! ## Witnesses: encoding -/

theorem witness_CommandWordsDecode : (0 : Word).toNat ≤ 0x0A ∧ (0x0A : Word).toNat ≤ 0x0A ∧ 0x0A < (0x0B : Word).toNat
    ∧ 0x0A < (0xFFFFFFFF : Word).toNat ∧ (pending 0x0B fresh).halt = false ∧ (pending 0x0B fresh).busy = true
    ∧ (pending 0x0B fresh).agenda = [] ∧ (pending 0x0B fresh).cw = 0x0B := by decide +kernel

theorem witness_EncodeThenDecode : WellFormed (.reserved 0x0B) ∧ WellFormed (.smfRealtime 6) ∧ WellFormed (.vlq [0])
    ∧ WellFormed (.vlq [1, 2, 3, 4]) ∧ WellFormed (.dt1Emit .d3D 0 0x1FFF00 (List.replicate 256 1))
    ∧ WellFormed (.dt1Emit .d57 0 0xFFFFFFF [1]) ∧ encode (.vlq [0]) = .bytes [0]
    ∧ Instr.format (.vlq [0]) ≠ .dt1Emit := by decide +kernel

theorem witness_DecodeThenEncode : decode .cmdw (.word 3) = .ok (.demuxNext, [])
    ∧ decode .smfEvent (.bytes [0xFE, 0x00]) = .ok (.smfRealtime 6, [0x00])
    ∧ decode .vlq (.bytes [0x81, 0x00, 0x01]) = .ok (.vlq [1, 0], [0x01]) := by decide +kernel

theorem witness_AddressDigits : 0 < 3 ∧ 2 < 3 ∧ 2 ^ 21 - 1 < 128 ^ 3 ∧ ([0x7F, 0x7F, 0x7F] : List Byte).length
      = Dialect.d3D.digits ∧ ([0x7F, 0x7F, 0x7F, 0x7F] : List Byte).length = Dialect.d57.digits
    ∧ ∀ b ∈ ([0x7F, 0x7F, 0x7F, 0x7F] : List Byte), b.toNat < 0x80 := by decide +kernel

theorem witness_EmittedChecksum : sumBytes (addressDigits Dialect.d3D.digits 0 ++ [0x7F, 0x01]) % 128 = 0 := by decide

theorem witness_VlqReads : (let s := track [0x81, 0x00] 0;
      WellFormed (.vlq [1, 0]) ∧ 2 ≤ s.left ∧ s.readBytes .next .input s.iptr.toNat 2 = vlqBytes [1, 0])
    ∧ (let s := track [0xFF, 0xFF, 0xFF, 0x7F] 0;
      WellFormed (.vlq [127, 127, 127, 127]) ∧ 4 ≤ s.left
        ∧ s.readBytes .next .input s.iptr.toNat 4 = vlqBytes [127, 127, 127, 127])
    ∧ (let s := track [0x80, 0x80, 0x80, 0x80] 0;
      4 ≤ s.left ∧ ∀ b ∈ s.readBytes .next .input s.iptr.toNat 4, 0x80 ≤ b.toNat)
    ∧ (let s := track [0x80, 0xFF, 0x80] 0;
      s.left < 4 ∧ ∀ b ∈ s.readBytes .next .input s.iptr.toNat s.left, 0x80 ≤ b.toNat) := by decide +kernel

/-! ## Witnesses: control, errors and warnings -/

theorem witness_NopDoesNothing : fresh.halt = false ∧ halted.halt = true := ⟨rfl, rfl⟩

theorem witness_WarnClearResult : ({ fresh with warn := 1, wcnt := 1, ovr := true } : State).halt = false := rfl

theorem witness_HaltedRefusal : Instr.format (.reserved 0x0B) = .cmdw ∧ halted.halt = true ∧ halted.busy = false ∧ (pending 3 halted).halt = true
    ∧ (pending 3 halted).busy = true ∧ (pending 3 halted).agenda = [] := by decide +kernel

theorem witness_FatalRollback : fresh.halt = false ∧ exec (.reserved 0x0B) fresh = .next halted
    ∧ halted.halt = true := ⟨rfl, rfl, rfl⟩

/-- A command or element and a state it raises in, for every instruction that may raise. -/
def raisers : List (Instr × State) :=
  [(.streamLoad, withOps ⟨0x8001, 0, 0, 0, 0, 0⟩ fresh), (.demuxNext, track [0x00, 0xF0, 0x84, 0x01] 0),
    (.ingest, held [0x41, 0x10, 0x3D, 0x12, 0x00, 0x10, 0x00, 0x05, 0x06, 0x66, 0xF7]),
    (.ingest, { held bodyTrig with snapCount := 2 }), (.readRegion, fresh), (.emit, fresh),
    (.emit, { withOps ⟨0x3D, 0, 2, 0, 1, 0⟩ fresh with outLen := 0x8000 }), (.crc32, withOps ⟨3, 0, 0, 0, 0, 0⟩ fresh),
    (.crc32, withOps ⟨2, 0, 1, 0, 1, 0⟩ fresh)]
  ++ [(.inflate, withOps ⟨0x8000, 1, 0, 0, 0, 0⟩ fresh), (.inflate, withOps ⟨0, 0, 257, 0, 0, 0⟩ fresh),
    (.reserved 0xFF, fresh), (.smfSysexStart, track [0xF0, 0x84, 0x01] 0),
    (.smfSysexEscape, track [0xF7, 0x84, 0x01] 0),
    (.rawSysex, { rawAt [0xF0, 0x01, 0xF7] with cfg := { Config.tc with msgBytes := 1 } }),
    (.dt1At3D 0x10, { held bodyTrig with snapCount := 2 }),
    (.dt1At57 0x10, held [0x41, 0x10, 0x57, 0x12, 0, 0, 0, 0x10, 0x02, 0x00, 0xF7]),
    (.dt1Emit .d3D 0 0 [1], { fresh with outLen := 0x8000 })]

theorem witness_ErrorsByCommand : ∀ p ∈ raisers, p.2.halt = false ∧ ∃ t, exec p.1 p.2 = .next t ∧ t.halt = true := by
  intro p hp
  have h : ∀ q ∈ raisers, q.2.halt = false ∧ (ran (exec q.1 q.2)).map (fun t => t.halt) = some true := by
    decide +kernel
  exact ⟨(h p hp).1, next_of_check (h p hp).2⟩

theorem witness_OnlyResetClearsErrors : halted.halt = true ∧ step halted = .next halted
    ∧ halted.agenda.head? ≠ some (.host .reset)
    ∧ ({ halted with agenda := [.host .reset] } : State).halt = true
    ∧ ({ halted with agenda := [.host .reset] } : State).agenda.head? = some (.host .reset)
    ∧ ∃ t, step { halted with agenda := [.host .reset] } = .next t :=
  ⟨rfl, rfl, by decide, rfl, rfl, _, rfl⟩

/-- A NOP about to run while three warnings stand. -/
def warned : State := pending 0 { fresh with warn := 3, wcnt := 2 }

theorem witness_WarningsAreSticky : step warned = .next warned.complete ∧ warned.agenda.head? ≠ some (.host .reset)
    ∧ ¬ Executes warned .warnClear ∧ warned.warn.getLsbD 1 = true :=
  ⟨rfl, by decide, fun h => absurd h.2.2.1 (by decide), by decide⟩

theorem witness_EveryCommandEnds : (pending 3 fresh).busy = true ∧ (pending 3 fresh).agenda = []
    ∧ (pending 3 halted).busy = true ∧ (pending 3 halted).agenda = [] ∧ (pending 0x0B fresh).busy = true
    ∧ (pending 0x0B fresh).agenda = [] := by decide +kernel

/-! ## Witnesses: streams -/

theorem witness_StreamLoadResult : fresh.halt = false ∧ fresh.lat.a0 = 0
    ∧ (withOps ⟨0x8000, 0, 0, 0, 0, 0⟩ fresh).lat.a0.toNat ≤ fresh.cfg.inBytes
    ∧ fresh.cfg.inBytes < (withOps ⟨0x8001, 0, 0, 0, 0, 0⟩ fresh).lat.a0.toNat := by decide +kernel

theorem witness_DemuxAfterEnd : ({ fresh with dmode := .ended } : State).halt = false
    ∧ ({ fresh with dmode := .ended } : State).dmode = .ended := ⟨rfl, rfl⟩

/-- A header chunk whose length is one more than what follows (S13). -/
def hdrLong : List Byte := [0x4D, 0x54, 0x68, 0x64, 0, 0, 0, 7, 0, 0, 0, 1, 0, 0x60]

theorem witness_DemuxSelectsMode :
    (let s := bound [0x00, 0xF0, 0x41, 0xF7];
      s.halt = false ∧ s.dmode = .unset ∧ ¬ (4 ≤ s.inLen.toNat ∧ s.readBytes .sniff .input 0 4 = [0x4D, 0x54, 0x68, 0x64]))
    ∧ (let s := bound [0x4D, 0x54, 0x68];
      s.halt = false ∧ s.dmode = .unset ∧ ¬ 4 ≤ s.inLen.toNat)
    ∧ (let s := bound hdr;
      s.halt = false ∧ s.dmode = .unset ∧ 8 ≤ s.inLen.toNat ∧ s.readBytes .sniff .input 0 4 = [0x4D, 0x54, 0x68, 0x64]
        ∧ be32 (s.readBytes .header .input 4 4) = s.inLen.toNat - 8)
    ∧ (let s := bound hdrLong;
      s.halt = false ∧ s.dmode = .unset ∧ s.readBytes .sniff .input 0 4 = [0x4D, 0x54, 0x68, 0x64]
        ∧ s.inLen.toNat - 8 < be32 (s.readBytes .header .input 4 4))
    ∧ (let s := bound [0x4D, 0x54, 0x68, 0x64];
      s.halt = false ∧ s.dmode = .unset ∧ s.readBytes .sniff .input 0 4 = [0x4D, 0x54, 0x68, 0x64]
        ∧ s.inLen.toNat < 8) := by decide +kernel

/-- `n` bytes 01 from an offset on, then an end marker. -/
def filled : Nat → Nat → Memory
  | lo, 0 => [(lo, 0xF7)]
  | lo, n + 1 => (lo, 0x01) :: filled (lo + 1) n

theorem filled_get (n : Nat) : ∀ lo k, lo ≤ k → k ≤ lo + n →
    Memory.get k (filled lo n) = some (if k = lo + n then 0xF7 else 0x01) := by
  induction n with
  | zero =>
    intro lo k h1 h2
    have : k = lo := by omega
    subst this
    simp [filled, Memory.get]
  | succ n ih =>
    intro lo k h1 h2
    by_cases h : lo = k
    · subst h; simp [filled, Memory.get]
    · rw [filled, Memory.get, if_neg h, if_neg (by omega), ih (lo + 1) k (by omega) (by omega),
        show lo + 1 + n = lo + (n + 1) by omega]

/-- A raw message of n + 1 bytes at the cursor in a block whose MSG takes 266, ended by an end marker. -/
def longRaw (n : Nat) : State :=
  { rawAt [] with
    inMem := (0, 0xF0) :: filled 1 n, inLen := wordOf (n + 2), cfg := { Config.tc with msgBytes := 266 } }

theorem longRaw_read (n : Nat) (site : ReadSite) {k : Nat} (h1 : 1 ≤ k) (h2 : k ≤ 1 + n) :
    (longRaw n).readByte site .input k = if k = 1 + n then 0xF7 else 0x01 := by
  have : (longRaw n).cell .input k = some (if k = 1 + n then 0xF7 else 0x01) := by
    show Memory.cell none k ((0, 0xF0) :: filled 1 n) = _
    rw [Memory.cell, Memory.get, if_neg (by omega), if_neg (by omega), filled_get n 1 k h1 h2]
  rw [State.readByte, this]

theorem longRaw_body {n : Nat} (h : n < 1000) : RawBody (longRaw n) 0 (n + 1) true := by
  have hl : (longRaw n).inLen.toNat = n + 2 := by
    show (wordOf (n + 2)).toNat = n + 2
    simp; omega
  refine ⟨by omega, by omega, ?_, fun k h1 h2 => ?_⟩
  · rw [longRaw_read n _ (by omega) (by omega), if_pos (by omega)]
    rfl
  · rw [longRaw_read n _ (by omega) (by omega), if_neg (by omega)]
    decide

theorem longRaw_inv : (longRaw 265).Inv ∧ (longRaw 266).Inv :=
  ⟨inv_of_check (by decide +kernel), inv_of_check (by decide +kernel)⟩

theorem witness_DemuxRawMessage :
    (let s := rawAt [0x01, 0x02];
      s.Inv ∧ s.halt = false ∧ s.dmode = .raw
        ∧ ∀ k, s.iptr.toNat ≤ k → k < s.inLen.toNat → s.readByte .rawScan .input k ≠ 0xF0)
    ∧ (let s := rawAt [0x12, 0xF0, 0x01, 0xF7];
      s.Inv ∧ s.halt = false ∧ s.dmode = .raw ∧ s.iptr.toNat ≤ 1 ∧ 1 < s.inLen.toNat
        ∧ s.readByte .rawScan .input 1 = 0xF0 ∧ (∀ k, s.iptr.toNat ≤ k → k < 1 → s.readByte .rawScan .input k ≠ 0xF0)
        ∧ RawBody s 1 2 true ∧ 2 ≤ s.cfg.msgBytes)
    ∧ (let s := rawAt [0xF0];
      s.Inv ∧ s.halt = false ∧ s.dmode = .raw ∧ s.iptr.toNat ≤ 0 ∧ 0 < s.inLen.toNat
        ∧ s.readByte .rawScan .input 0 = 0xF0 ∧ (∀ k, s.iptr.toNat ≤ k → k < 0 → s.readByte .rawScan .input k ≠ 0xF0)
        ∧ RawBody s 0 0 false ∧ 0 ≤ s.cfg.msgBytes)
    ∧ (let s := longRaw 266;
      s.Inv ∧ s.halt = false ∧ s.dmode = .raw ∧ s.iptr.toNat ≤ 0 ∧ 0 < s.inLen.toNat
        ∧ s.readByte .rawScan .input 0 = 0xF0 ∧ (∀ k, s.iptr.toNat ≤ k → k < 0 → s.readByte .rawScan .input k ≠ 0xF0)
        ∧ RawBody s 0 267 true ∧ s.cfg.msgBytes < 267) :=
  ⟨⟨inv_of_check (by decide +kernel), rfl, rfl, noMarker_of_check (by decide +kernel)⟩,
    ⟨inv_of_check (by decide +kernel), rfl, rfl, by decide +kernel, by decide +kernel, by decide +kernel,
      noMarker_of_check (by decide +kernel), rawBody_of_check (by decide +kernel), by decide +kernel⟩,
    ⟨inv_of_check (by decide +kernel), rfl, rfl, by decide +kernel, by decide +kernel, by decide +kernel,
      noMarker_of_check (by decide +kernel), rawBody_of_check (by decide +kernel), by decide +kernel⟩,
    ⟨longRaw_inv.2, rfl, rfl, by decide +kernel, by decide +kernel, by decide +kernel,
      fun k _ h => absurd h (Nat.not_lt_zero k), longRaw_body (by omega), by decide⟩⟩

theorem witness_RawSysexResult :
    (let s := longRaw 265;
      s.Inv ∧ s.halt = false ∧ s.dmode = .raw ∧ s.iptr.toNat < s.inLen.toNat ∧ RawBody s s.iptr.toNat 266 true
        ∧ 266 ≤ s.cfg.msgBytes)
    ∧ (let s := longRaw 266;
      s.Inv ∧ s.halt = false ∧ s.dmode = .raw ∧ s.iptr.toNat < s.inLen.toNat ∧ RawBody s s.iptr.toNat 267 true
        ∧ s.cfg.msgBytes < 267) :=
  ⟨⟨longRaw_inv.1, rfl, rfl, by decide +kernel, longRaw_body (by omega), by decide⟩,
    ⟨longRaw_inv.2, rfl, rfl, by decide +kernel, longRaw_body (by omega), by decide⟩⟩

theorem witness_DemuxTrackBoundary :
    (let s := { track [0x00] 0 with trkRem := 0 };
      s.halt = false ∧ s.dmode = .smf ∧ s.trkOpen = true ∧ s.trkRem = 0)
    ∧ (let s := { track [0x00] 0 with iptr := 1 };
      s.halt = false ∧ s.dmode = .smf ∧ s.iptr = s.inLen ∧ (s.trkOpen = true → s.trkRem ≠ 0))
    ∧ (let s := between (trk 0x100);
      s.halt = false ∧ s.dmode = .smf ∧ s.trkOpen = false ∧ s.iptr ≠ s.inLen ∧ 8 ≤ s.left
        ∧ s.readBytes .trackTag .input s.iptr.toNat 4 = [0x4D, 0x54, 0x72, 0x6B])
    ∧ (let s := between [0x4D, 0x54, 0x72, 0x6C, 0, 0, 0, 4];
      s.halt = false ∧ s.dmode = .smf ∧ s.trkOpen = false ∧ s.iptr ≠ s.inLen ∧ 8 ≤ s.left
        ∧ s.readBytes .trackTag .input s.iptr.toNat 4 ≠ [0x4D, 0x54, 0x72, 0x6B])
    ∧ (let s := between [0x4D, 0x54, 0x72, 0x6B, 0, 0, 0];
      s.halt = false ∧ s.dmode = .smf ∧ s.trkOpen = false ∧ s.iptr ≠ s.inLen ∧ s.left < 8) := by decide +kernel

/-- What DemuxRunsEvents asks of a state. -/
def EventReady (s : State) : Prop :=
  s.Inv ∧ s.halt = false ∧ s.busy = true ∧ s.dmode = .smf ∧ s.trkOpen = true ∧ s.trkRem ≠ 0 ∧ s.iptr ≠ s.inLen

theorem eventReady_of_check {s : State} (h : invCheck s = true) (h' : (s.halt = false ∧ s.busy = true ∧ s.dmode = .smf
    ∧ s.trkOpen = true ∧ s.trkRem ≠ 0 ∧ s.iptr ≠ s.inLen)) : EventReady s := ⟨inv_of_check h, h'⟩

theorem witness_DemuxRunsEvents :
    (EventReady (pending 3 (track [0x00, 0xF6] 0))
      ∧ ∃ n t, (pending 3 (track [0x00, 0xF6] 0)).readVlq = .ok n t ∧ 1 ≤ t.left)
    ∧ (EventReady (pending 3 (track [0x81, 0x00] 0))
      ∧ ∃ n t, (pending 3 (track [0x81, 0x00] 0)).readVlq = .ok n t ∧ t.left = 0)
    ∧ (EventReady (pending 3 (track [0x81] 0)) ∧ ∃ t, (pending 3 (track [0x81] 0)).readVlq = .trunc t)
    ∧ (EventReady (pending 3 (track [0x80, 0x80, 0x80, 0x80] 0))
      ∧ ∃ t, (pending 3 (track [0x80, 0x80, 0x80, 0x80] 0)).readVlq = .malformed t) := by
  have h1 : ∃ t, (pending 3 (track [0x00, 0xF6] 0)).readVlq = .ok 0 t ∧ t.left = 1 := vlq_of_check (by decide +kernel)
  have h2 : ∃ t, (pending 3 (track [0x81, 0x00] 0)).readVlq = .ok 128 t ∧ t.left = 0 :=
    vlq_of_check (by decide +kernel)
  obtain ⟨t1, e1, l1⟩ := h1
  obtain ⟨t2, e2, l2⟩ := h2
  exact ⟨⟨eventReady_of_check (by decide +kernel) (by decide +kernel), _, t1, e1, by omega⟩,
    ⟨eventReady_of_check (by decide +kernel) (by decide +kernel), _, t2, e2, l2⟩,
    ⟨eventReady_of_check (by decide +kernel) (by decide +kernel), trunc_of_check (by decide +kernel)⟩,
    ⟨eventReady_of_check (by decide +kernel) (by decide +kernel), malformed_of_check (by decide +kernel)⟩⟩

theorem witness_ChannelEvents : channelData (.smfCh9 3) = some 2 ∧ encode (.smfCh9 3) = .bytes [0x93]
    ∧ channelData (.smfChannelPressure 15) = some 1 ∧ encode (.smfChannelPressure 15) = .bytes [0xDF]
    ∧ (let s := track [0x93, 0x3C, 0x64] 0; s.halt = false ∧ s.iptr.toNat < s.inLen.toNat ∧ 1 + 2 ≤ s.left)
    ∧ (let s := track [0x93, 0x3C] 0; s.halt = false ∧ s.iptr.toNat < s.inLen.toNat ∧ s.left < 1 + 2)
    ∧ (let s := track [0x3C, 0x64] 0x93; s.halt = false ∧ s.iptr.toNat < s.inLen.toNat ∧ s.rs = 0x93 ∧ 2 ≤ s.left)
    ∧ (let s := track [0x3C] 0x93; s.halt = false ∧ s.iptr.toNat < s.inLen.toNat ∧ s.rs = 0x93 ∧ s.left < 2) := by
  decide +kernel

theorem witness_SystemEvents : WellFormed .smfSongPosition ∧ systemData .smfSongPosition = some 2
    ∧ encode .smfSongPosition = .bytes [0xF2] ∧ WellFormed (.smfRealtime 6) ∧ systemData (.smfRealtime 6) = some 0
    ∧ encode (.smfRealtime 6) = .bytes [0xFE]
    ∧ (let s := track [0xF2, 0x00, 0x08] 0; s.halt = false ∧ s.iptr.toNat < s.inLen.toNat ∧ 1 + 2 ≤ s.left)
    ∧ (let s := track [0xF2, 0x00] 0; s.halt = false ∧ s.iptr.toNat < s.inLen.toNat ∧ s.left < 1 + 2)
    ∧ (let s := track [0xFE] 0; s.halt = false ∧ s.iptr.toNat < s.inLen.toNat ∧ 1 + 0 ≤ s.left) := by decide +kernel

theorem witness_RunningStatusUnusable :
    (let s := track [0x40] 0x7F; s.halt = false ∧ s.iptr.toNat < s.inLen.toNat ∧ s.rs.toNat < 0x80)
    ∧ (let s := track [0x40] 0xF0; s.halt = false ∧ s.iptr.toNat < s.inLen.toNat ∧ 0xF0 ≤ s.rs.toNat) := by
  decide +kernel

theorem witness_MetaEvent :
    (let s := track [0xFF] 0; s.halt = false ∧ s.iptr.toNat < s.inLen.toNat ∧ s.left < 2)
    ∧ (let s := track [0xFF, 0x03, 0x02, 0x41, 0x42] 0;
      s.halt = false ∧ s.iptr.toNat < s.inLen.toNat ∧ 2 ≤ s.left ∧ ∃ n u, (s.consume 2).readVlq = .ok n u ∧ n ≤ u.left)
    ∧ (let s := track [0xFF, 0x03, 0x02, 0x41] 0;
      s.halt = false ∧ s.iptr.toNat < s.inLen.toNat ∧ 2 ≤ s.left ∧ ∃ n u, (s.consume 2).readVlq = .ok n u ∧ u.left < n)
    ∧ (let s := track [0xFF, 0x03] 0;
      s.halt = false ∧ s.iptr.toNat < s.inLen.toNat ∧ 2 ≤ s.left ∧ ∃ u, (s.consume 2).readVlq = .trunc u)
    ∧ (let s := track [0xFF, 0x03, 0x80, 0x80, 0x80, 0x80] 0;
      s.halt = false ∧ s.iptr.toNat < s.inLen.toNat ∧ 2 ≤ s.left ∧ ∃ u, (s.consume 2).readVlq = .malformed u) := by
  obtain ⟨t1, e1, l1⟩ := vlq_of_check (r := ((track [0xFF, 0x03, 0x02, 0x41, 0x42] 0).consume 2).readVlq) (n := 2)
    (left := 2) (by decide +kernel)
  obtain ⟨t2, e2, l2⟩ := vlq_of_check (r := ((track [0xFF, 0x03, 0x02, 0x41] 0).consume 2).readVlq) (n := 2)
    (left := 1) (by decide +kernel)
  exact ⟨by decide +kernel, ⟨rfl, by decide +kernel, by decide +kernel, _, t1, e1, by omega⟩,
    ⟨rfl, by decide +kernel, by decide +kernel, _, t2, e2, by omega⟩,
    ⟨rfl, by decide +kernel, by decide +kernel, trunc_of_check (by decide +kernel)⟩,
    ⟨rfl, by decide +kernel, by decide +kernel, malformed_of_check (by decide +kernel)⟩⟩

/-- What SysexEvents asks of a state. -/
def SysexReady (s : State) : Prop := s.Inv ∧ s.halt = false ∧ s.dmode = .smf ∧ s.iptr.toNat < s.inLen.toNat

theorem sysexReady_of_check {s : State} (h : invCheck s = true) (h' : s.halt = false ∧ s.dmode = .smf
    ∧ s.iptr.toNat < s.inLen.toNat) : SysexReady s := ⟨inv_of_check h, h'⟩

/-- Every clause, the two lengths at MSG_BYTES = 512 and one more among them. -/
theorem witness_SysexEvents :
    (SysexReady (track [0xF0, 0x84, 0x01] 0)
      ∧ ∃ u, ((track [0xF0, 0x84, 0x01] 0).consume 1).readVlq = .ok 513 u ∧ Config.tc.msgBytes < 513)
    ∧ (SysexReady (track [0xF7, 0x02, 0x01, 0xF7] 0)
      ∧ ∃ u, ((track [0xF7, 0x02, 0x01, 0xF7] 0).consume 1).readVlq = .ok 2 u ∧ 2 ≤ u.left)
    ∧ (SysexReady (track [0xF0, 0x84, 0x00] 0)
      ∧ ∃ u, ((track [0xF0, 0x84, 0x00] 0).consume 1).readVlq = .ok 512 u ∧ u.left < 512 ∧ 512 ≤ Config.tc.msgBytes)
    ∧ (SysexReady (track [0xF0, 0x80] 0) ∧ ∃ u, ((track [0xF0, 0x80] 0).consume 1).readVlq = .trunc u)
    ∧ (SysexReady (track [0xF0, 0x80, 0x80, 0x80, 0x80] 0)
      ∧ ∃ u, ((track [0xF0, 0x80, 0x80, 0x80, 0x80] 0).consume 1).readVlq = .malformed u) := by
  obtain ⟨t1, e1, l1⟩ := vlq_of_check (r := ((track [0xF0, 0x84, 0x01] 0).consume 1).readVlq) (n := 513) (left := 0)
    (by decide +kernel)
  obtain ⟨t2, e2, l2⟩ := vlq_of_check (r := ((track [0xF7, 0x02, 0x01, 0xF7] 0).consume 1).readVlq) (n := 2) (left := 2)
    (by decide +kernel)
  obtain ⟨t3, e3, l3⟩ := vlq_of_check (r := ((track [0xF0, 0x84, 0x00] 0).consume 1).readVlq) (n := 512) (left := 0)
    (by decide +kernel)
  exact ⟨⟨sysexReady_of_check (by decide +kernel) (by decide +kernel), t1, e1, by decide⟩,
    ⟨sysexReady_of_check (by decide +kernel) (by decide +kernel), t2, e2, by omega⟩,
    ⟨sysexReady_of_check (by decide +kernel) (by decide +kernel), t3, e3, by omega, by decide⟩,
    ⟨sysexReady_of_check (by decide +kernel) (by decide +kernel), trunc_of_check (by decide +kernel)⟩,
    ⟨sysexReady_of_check (by decide +kernel) (by decide +kernel), malformed_of_check (by decide +kernel)⟩⟩

theorem witness_HeaderChunk :
    (let s := bound hdr;
      s.halt = false ∧ 8 ≤ s.inLen.toNat ∧ be32 (s.readBytes .header .input 4 4) ≤ s.inLen.toNat - 8)
    ∧ (let s := bound hdrLong;
      s.halt = false ∧ 8 ≤ s.inLen.toNat ∧ s.inLen.toNat - 8 < be32 (s.readBytes .header .input 4 4))
    ∧ (let s := bound [0x4D, 0x54, 0x68, 0x64, 0, 0, 0];
      s.halt = false ∧ s.inLen.toNat < 8) := by decide +kernel

theorem witness_TrackChunk : (let s := between (trk 0); s.halt = false ∧ 8 ≤ s.left)
    ∧ (let s := between [0x4D, 0x54, 0x72, 0x6B, 0, 0, 0];
      s.halt = false ∧ s.iptr.toNat < s.inLen.toNat ∧ s.left < 8)
    ∧ (let s := between [0x4D]; s.halt = false ∧ s.iptr.toNat < s.inLen.toNat ∧ s.left < 8) := by decide +kernel

theorem witness_VlqElement :
    (let s := track [0x80, 0x80, 0x80, 0x00] 0;
      s.halt = false ∧ ([0, 0, 0, 0] : List (BitVec 7)).length ≤ 4 ∧ ([0, 0, 0, 0] : List (BitVec 7)).length ≤ s.left)
    ∧ (let s := track [0x80, 0x80, 0x80, 0x80] 0;
      s.halt = false ∧ 4 < ([0, 0, 0, 0, 0] : List (BitVec 7)).length ∧ 4 ≤ s.left)
    ∧ (let s := track [0x81] 0;
      s.halt = false ∧ s.left < min 4 ([1, 0] : List (BitVec 7)).length ∧ s.iptr.toNat ≤ s.inLen.toNat) := by
  decide +kernel

theorem witness_CursorMovesForward :
    (∃ t, (pending 3 (bound [0x12, 0xF0, 0xF7])).Inv ∧ step (pending 3 (bound [0x12, 0xF0, 0xF7])) = .next t)
    ∧ (∃ t, (pending 2 (rawAt [0xF0])).Inv ∧ step (pending 2 (rawAt [0xF0])) = .next t
      ∧ Executes (pending 2 (rawAt [0xF0])) .streamLoad) := by
  obtain ⟨t, e, _⟩ := next_of_check (o := step (pending 3 (bound [0x12, 0xF0, 0xF7]))) (f := fun _ => true)
    (by decide +kernel)
  exact ⟨⟨t, inv_of_check (by decide +kernel), e⟩, _, inv_of_check (by decide +kernel), rfl, rfl, rfl, by decide +kernel,
    .inl rfl⟩

/-! ## Witnesses: the image -/

theorem witness_ImageInit : ({ fresh with dmem := [(0, 1)] } : State).halt = false := rfl

theorem isFrame_G1 : IsFrame .d3D 0x10 [0x00, 0x10, 0x00] [0x05, 0x06] 0x65 bodyG1 :=
  ⟨rfl, rfl, by decide, by decide⟩

theorem witness_ForeignBodyDropped : fresh.halt = false ∧ (held [0x41, 0x10]).halt = false
    ∧ Holds (held [0x41, 0x10]) [0x41, 0x10]
    ∧ (¬ ∃ d dev digits payload cs, IsFrame d dev digits payload cs [0x41, 0x10])
    ∧ Holds (held bodyG1) bodyG1 ∧ ∃ d dev digits payload cs, IsFrame d dev digits payload cs bodyG1 := by
  refine ⟨rfl, rfl, holds_of_check (by decide +kernel), ?_, holds_of_check (by decide +kernel),
    ⟨_, _, _, _, _, isFrame_G1⟩⟩
  rintro ⟨d, dev, digits, payload, cs, h, _⟩
  have := congrArg List.length h
  simp at this

/-- The body of vector G2. -/
def bodyG2 : List Byte := [0x41, 0x10, 0x3D, 0x12, 0x00, 0x10, 0x00, 0x05, 0x06, 0x66, 0xF7]

theorem witness_ChecksumIsFatal : Instr.dt1At3D 0x10 ∈ ingesters .d3D 0x10 ∧ Instr.ingest ∈ ingesters .d3D 0x10
    ∧ (held bodyG2).halt = false ∧ Holds (held bodyG2) bodyG2
    ∧ IsFrame .d3D 0x10 [0x00, 0x10, 0x00] [0x05, 0x06] 0x66 bodyG2
    ∧ sumBytes ([0x00, 0x10, 0x00] ++ [0x05, 0x06] ++ [0x66]) % 128 ≠ 0 :=
  ⟨by decide, by decide, rfl, holds_of_check (by decide +kernel), ⟨rfl, rfl, by decide, by decide⟩, by decide⟩

/-- The body of vector G7, one byte past CAP. -/
def bodyG7 : List Byte := [0x41, 0x10, 0x57, 0x12, 0x00, 0x03, 0x7F, 0x7E, 0x01, 0x02, 0x03, 0x7A, 0xF7]

theorem witness_DroppedFrames : Instr.dt1At57 0x10 ∈ ingesters .d57 0x10 ∧ (held bodyG7).halt = false
    ∧ Holds (held bodyG7) bodyG7 ∧ IsFrame .d57 0x10 [0x00, 0x03, 0x7F, 0x7E] [0x01, 0x02, 0x03] 0x7A bodyG7
    ∧ sumBytes ([0x00, 0x03, 0x7F, 0x7E] ++ [0x01, 0x02, 0x03] ++ [0x7A]) % 128 = 0
    ∧ (held bodyG7).dialect = none
    ∧ Config.cap Config.tc .d57 < addressOf 0 [0x00, 0x03, 0x7F, 0x7E] + ([0x01, 0x02, 0x03] : List Byte).length
    ∧ Holds { held bodyG7 with dialect := some .d3D } bodyG7
    ∧ ({ held bodyG7 with dialect := some .d3D } : State).dialect ≠ none
    ∧ ({ held bodyG7 with dialect := some .d3D } : State).dialect ≠ some .d57 :=
  ⟨by decide, rfl, holds_of_check (by decide +kernel), ⟨rfl, rfl, by decide, by decide⟩, by decide, rfl, by decide,
    holds_of_check (by decide +kernel), by decide, by decide⟩

/-- The body of vector G6, which ends at CAP. -/
def bodyG6 : List Byte := [0x41, 0x10, 0x57, 0x12, 0x00, 0x03, 0x7F, 0x7D, 0x01, 0x02, 0x03, 0x7B, 0xF7]

/-- A body at the trigger address while SNAP is full. -/
def fullSnap : State :=
  { (held bodyTrig).writeBytes .snap 0 [1, 1, 1, 1, 1, 1, 1, 1, 1, 1, 1, 1] with
    dialect := some .d3D, snapCount := 2 }

theorem witness_FrameIngested :
    (Instr.dt1At57 0x10 ∈ ingesters .d57 0x10 ∧ (held bodyG6).Inv ∧ (held bodyG6).halt = false
      ∧ Holds (held bodyG6) bodyG6 ∧ IsFrame .d57 0x10 [0x00, 0x03, 0x7F, 0x7D] [0x01, 0x02, 0x03] 0x7B bodyG6
      ∧ sumBytes ([0x00, 0x03, 0x7F, 0x7D] ++ [0x01, 0x02, 0x03] ++ [0x7B]) % 128 = 0 ∧ (held bodyG6).dialect = none
      ∧ addressOf 0 [0x00, 0x03, 0x7F, 0x7D] + ([0x01, 0x02, 0x03] : List Byte).length = Config.cap Config.tc .d57
      ∧ addressOf 0 [0x00, 0x03, 0x7F, 0x7D] ≠ Config.trig Config.tc .d57)
    ∧ (Instr.ingest ∈ ingesters .d3D 0x10 ∧ (held bodyTrig).Inv ∧ (held bodyTrig).halt = false
      ∧ Holds (held bodyTrig) bodyTrig ∧ IsFrame .d3D 0x10 [0x00, 0x20, 0x02] [0x13, 0x14] 0x37 bodyTrig
      ∧ sumBytes ([0x00, 0x20, 0x02] ++ [0x13, 0x14] ++ [0x37]) % 128 = 0 ∧ (held bodyTrig).dialect = none
      ∧ addressOf 0 [0x00, 0x20, 0x02] + ([0x13, 0x14] : List Byte).length ≤ Config.cap Config.tc .d3D
      ∧ addressOf 0 [0x00, 0x20, 0x02] = Config.trig Config.tc .d3D
      ∧ (held bodyTrig).snapCount.toNat < Config.tc.snapMax)
    ∧ (fullSnap.Inv ∧ fullSnap.halt = false ∧ Holds fullSnap bodyTrig ∧ fullSnap.dialect = some .d3D
      ∧ fullSnap.snapCount.toNat = Config.tc.snapMax) :=
  ⟨⟨by decide, inv_of_check (by decide +kernel), rfl, holds_of_check (by decide +kernel),
      ⟨rfl, rfl, by decide, by decide⟩, by decide, rfl, by decide, by decide⟩,
    ⟨by decide, inv_of_check (by decide +kernel), rfl, holds_of_check (by decide +kernel),
      ⟨rfl, rfl, by decide, by decide⟩, by decide, rfl, by decide, by decide, by decide +kernel⟩,
    ⟨inv_of_check (by decide +kernel), rfl, holds_of_check (by decide +kernel), rfl, by decide +kernel⟩⟩

theorem witness_ReadRegionResult : fresh.halt = false ∧ fresh.lat.a1 = 0
    ∧ (withOps ⟨0xFFFF, 1, 0, 0, 0, 0⟩ fresh).lat.a1 ≠ 0 ∧ (withOps ⟨0xFFFF, 2, 0, 0, 0, 0⟩ fresh).lat.a1 ≠ 0
    ∧ (withOps ⟨0x7FFF, 2, 0, 0, 0, 0⟩ { fresh with dialect := some .d3D }).lat.a1 ≠ 0 := by decide +kernel

/-- Whether an INGEST writes its frame and what HALT is after a second one. -/
def twiceCheck (s : State) (halts : Bool) : Bool :=
  match ran (exec .ingest s) with
  | some t =>
    match ran (exec .ingest t) with
    | some u => decide (t.halt = false ∧ t.res0 = 0 ∧ u.halt = halts)
    | none => false
  | none => false

theorem twice_of_check {s : State} {halts : Bool} (h : twiceCheck s halts = true) : ∃ t u, exec .ingest s = .next t
    ∧ t.halt = false ∧ t.res0 = 0 ∧ exec .ingest t = .next u ∧ u.halt = halts := by
  simp only [twiceCheck] at h
  rcases h1 : exec .ingest s with t | _ | _ <;> rw [h1] at h <;> simp only [ran, Bool.false_eq_true] at h
  rcases h2 : exec .ingest t with u | _ | _ <;> rw [h2] at h <;> simp only [ran, Bool.false_eq_true] at h
  have h := of_decide_eq_true h
  exact ⟨t, u, rfl, h.1, h.2.1, h2, h.2.2⟩

/-- A body at the trigger address while one place of SNAP is left. -/
def lastSnap : State :=
  { (held bodyTrig).writeBytes .snap 0 [1, 1, 1, 1] with dialect := some .d3D, snapCount := 1 }

theorem witness_IngestTwice :
    ((held bodyG1).Inv ∧ (held bodyG1).halt = false ∧ ∃ t u, exec .ingest (held bodyG1) = .next t ∧ t.halt = false
      ∧ t.res0 = 0 ∧ exec .ingest t = .next u ∧ u.halt = false)
    ∧ (lastSnap.Inv ∧ lastSnap.halt = false ∧ ∃ t u, exec .ingest lastSnap = .next t ∧ t.halt = false ∧ t.res0 = 0
      ∧ exec .ingest t = .next u ∧ u.halt = true) :=
  ⟨⟨inv_of_check (by decide +kernel), rfl, twice_of_check (by decide +kernel)⟩,
    ⟨inv_of_check (by decide +kernel), rfl, twice_of_check (by decide +kernel)⟩⟩

theorem witness_WritersOfSpaces : exec .nop fresh = .next fresh.complete ∧ Instr.nop ≠ .demuxNext
    ∧ Instr.nop ≠ .rawSysex ∧ Instr.nop ≠ .smfSysexStart ∧ Instr.nop ≠ .smfSysexEscape
    ∧ (∀ d dev, Instr.nop ∉ ingesters d dev) ∧ Instr.nop ≠ .imgInit ∧ Instr.nop ≠ .emit
    ∧ (∀ d dev addr payload, Instr.nop ≠ .dt1Emit d dev addr payload) ∧ Instr.nop ≠ .outClear
    ∧ Instr.nop ≠ .inflate :=
  ⟨rfl, by decide, by decide, by decide, by decide, fun d dev h => by cases d <;> simp [ingesters, dataSet] at h,
    by decide, by decide, (by intro d dev addr payload h; cases h), by decide, by decide⟩

/-! ## Witnesses: emission, CRC, decompression -/

/-- A block whose OUT takes one frame of the largest size. -/
def smallOut : State := { fresh with cfg := { Config.tc with outBytes := 267 } }

/-- Every clause, with frames that fill OUT to the last byte and one byte more. -/
theorem witness_EmitResult : smallOut.Inv ∧ smallOut.halt = false
    ∧ (0x3C : Word) ≠ 0x3D ∧ (0x3C : Word) ≠ 0x57 ∧ 2 < (3 : Word).toNat ∧ 0x7F < (0x80 : Word).toNat
    ∧ ¬ (((0x57 : Word) ≠ 0x3D ∧ (0x57 : Word) ≠ 0x57) ∨ 2 < (2 : Word).toNat ∨ 0x7F < (0x7F : Word).toNat)
    ∧ (0x57 : Word) = Dialect.d57.byte.setWidth 32
    ∧ [Space.input, .xbuf, .dmem][(2 : Word).toNat]? = some .dmem
    ∧ Config.size Config.tc .dmem < 0xFFFF + 2 ∧ 128 ^ Dialect.d3D.digits < 0x1FFFFF + 2
    ∧ ¬ (Config.size Config.tc .dmem < 0xFF00 + 256 ∨ 128 ^ Dialect.d57.digits < 0xFFFFF00 + 256)
    ∧ 0 + (256 + (256 + 255) / 256 * (Dialect.d57.digits + 7)) ≤ smallOut.cfg.outBytes
    ∧ smallOut.cfg.outBytes < 0 + (257 + (257 + 255) / 256 * (Dialect.d57.digits + 7)) :=
  ⟨inv_of_check (by decide +kernel), by decide +kernel⟩

theorem witness_EmittedFrame : smallOut.Inv ∧ smallOut.halt = false
    ∧ smallOut.outLen.toNat + ((List.replicate 256 (1 : Byte)).length + Dialect.d57.digits + 7)
      ≤ smallOut.cfg.outBytes
    ∧ smallOut.cfg.outBytes
      < smallOut.outLen.toNat + ((List.replicate 257 (1 : Byte)).length + Dialect.d57.digits + 7) :=
  ⟨inv_of_check (by decide +kernel), by decide +kernel⟩

theorem witness_OutClearResult : ({ fresh with outLen := 1 } : State).halt = false := rfl

/-- The bytes EMIT builds for two bytes at the trigger address, bound as a stream. -/
def emittedTrig : State := bound (emittedBytes .d3D 0x10 0x1002 [0x13, 0x14])

/-- The same at the last two addresses of CAP. -/
def emittedLast : State := bound (emittedBytes .d3D 0x10 0x7FFE [0x13, 0x14])

theorem cells_of_check {s : State} {bs : List Byte}
    (h : (List.range s.inLen.toNat).all (fun a => decide (s.cell .input a = bs[a]?)) = true) :
    ∀ a, a < s.inLen.toNat → s.cell .input a = bs[a]? := fun a ha => by
  simp only [List.all_eq_true, List.mem_range, decide_eq_true_eq] at h
  exact h a ha

theorem witness_EmitRoundTrip :
    (emittedTrig.Inv ∧ emittedTrig.halt = false ∧ emittedTrig.dmode = .unset
      ∧ (∀ b ∈ ([0x13, 0x14] : List Byte), b.toNat < 0x80)
      ∧ 0x1002 + ([0x13, 0x14] : List Byte).length ≤ Config.cap Config.tc .d3D ∧ emittedTrig.dialect = none
      ∧ emittedTrig.snapCount.toNat < Config.tc.snapMax
      ∧ emittedTrig.inLen.toNat = (emittedBytes .d3D 0x10 0x1002 [0x13, 0x14]).length
      ∧ ∀ a, a < emittedTrig.inLen.toNat → emittedTrig.cell .input a = (emittedBytes .d3D 0x10 0x1002 [0x13, 0x14])[a]?)
    ∧ (emittedLast.Inv ∧ emittedLast.halt = false ∧ emittedLast.dmode = .unset
      ∧ 0x7FFE + ([0x13, 0x14] : List Byte).length = Config.cap Config.tc .d3D ∧ emittedLast.dialect = none
      ∧ emittedLast.inLen.toNat = (emittedBytes .d3D 0x10 0x7FFE [0x13, 0x14]).length
      ∧ ∀ a, a < emittedLast.inLen.toNat
        → emittedLast.cell .input a = (emittedBytes .d3D 0x10 0x7FFE [0x13, 0x14])[a]?) :=
  ⟨⟨inv_of_check (by decide +kernel), rfl, rfl, by decide, by decide, rfl, by decide, by decide +kernel,
      cells_of_check (by decide +kernel)⟩,
    ⟨inv_of_check (by decide +kernel), rfl, rfl, by decide, rfl, by decide +kernel, cells_of_check (by decide +kernel)⟩⟩

theorem witness_Crc32Result : fresh.halt = false ∧ 2 < (3 : Word).toNat
    ∧ ¬ (2 < (2 : Word).toNat ∨ 2 < (2 : Word).toNat) ∧ [Space.input, .xbuf, .dmem][(2 : Word).toNat]? = some .dmem
    ∧ Config.size fresh.cfg .dmem < (0xFFFF : Word).toNat + (2 : Word).toNat
    ∧ (0xFFFF : Word).toNat + (1 : Word).toNat ≤ Config.size fresh.cfg .dmem
    ∧ crcOf (fresh.readBytes .source .dmem 0 4) = 0xFFFFFFFF
    ∧ crcOf (fresh.readBytes .source .dmem 0 4) ≠ 0 := by decide +kernel

theorem witness_InflateResult : fresh.Inv ∧ fresh.halt = false
    ∧ fresh.cfg.inBytes < (0x7FFF : Word).toNat + (2 : Word).toNat
    ∧ (0x7FFF : Word).toNat + (1 : Word).toNat ≤ fresh.cfg.inBytes ∧ fresh.cfg.xbufBytes < (257 : Word).toNat
    ∧ (256 : Word).toNat ≤ fresh.cfg.xbufBytes := ⟨inv_of_check (by decide +kernel), by decide +kernel⟩

/-! ## Witnesses: the host, reset, a step, memory -/

theorem witness_IssueAndOperands : fresh.busy = false ∧ (pending 0 fresh).busy = true ∧ Slot.s1 ≠ Slot.s0 := by decide

theorem witness_RegisterAccesses : fresh.busy = false ∧ (0x60 : Nat) % 4 = 0 ∧ 0x5C < 0x60 ∧ (0x04 : Nat) % 4 = 0
    ∧ 0x00 < 0x04 ∧ 0x14 < 0x18 ∧ (0x30 : Nat) % 4 = 0 ∧ 0x2C < 0x30
    ∧ ((0x00, fresh.cw) : Nat × Word) ∈ [((0x00, fresh.cw) : Nat × Word)] := by decide +kernel

theorem witness_HostMemoryAccesses : fresh.Inv ∧ fresh.busy = false ∧ 0x7FFF < fresh.cfg.inBytes
    ∧ (pending 0 fresh).busy = true ∧ Space.msg ≠ .input ∧ 511 < Config.size fresh.cfg .msg
    ∧ Config.size fresh.cfg .msg ≤ 512 ∧ fresh.cell .dmem 0xFFFF = some 0xFF ∧ 0xFFFF < Config.size fresh.cfg .dmem
    ∧ (1 : Nat) ≠ 4 ∧ (0x06 : Nat) % 4 ≠ 0 := ⟨inv_of_check (by decide +kernel), by decide +kernel⟩

theorem witness_ResetEquivalence : (rawAt [0xF0]).Inv ∧ (rawAt [0xF0]).halt = false ∧ (rawAt [0xF0]).lat.a0 = 0 :=
  ⟨inv_of_check (by decide +kernel), rfl, rfl⟩

theorem witness_StepRunsDecodedCommand : (pending 3 fresh).busy = true ∧ (pending 3 fresh).agenda = []
    ∧ WellFormed .demuxNext ∧ encode .demuxNext = .word (pending 3 fresh).cw
    ∧ ({ pending 3 fresh with agenda := [.core] } : State).agenda = .core :: []
    ∧ ({ fresh with agenda := [.core] } : State).busy = false
    ∧ ({ fresh with agenda := [.host .reset] } : State).agenda = .host .reset :: [] := by decide +kernel

/-- A CRC32 statement with a number and words for operands, to be polled twice before its Execute. -/
def crcScript : State :=
  { fresh with
    script := [⟨some 1, some (.command .crc32 [(.src, .dmem), (.len, .number 4), (.mode, .advisory)])⟩], polls := [2] }

theorem witness_ScriptCommand :
    Means .crc32 (.src, .dmem) 0 2 ∧ Means .crc32 (.len, .number 4) 2 4 ∧ Means .crc32 (.mode, .advisory) 4 2
    ∧ WellFormed .crc32 ∧ Instr.format .crc32 = .cmdw
    ∧ encodeStatement .crc32 [(.src, .dmem), (.len, .number 4), (.mode, .advisory)]
      = some [.host (.regWrite 0x18 4 2), .host (.regWrite 0x20 4 4), .host (.regWrite 0x28 4 2),
          .host (.regWrite 0x00 4 8)]
    ∧ crcScript.busy = false ∧ crcScript.agenda = []
    ∧ crcScript.script[crcScript.hostPc]?
      = some ⟨some 1, some (.command .crc32 [(.src, .dmem), (.len, .number 4), (.mode, .advisory)])⟩
    ∧ 1 < crcScript.polls.headD 0 :=
  ⟨⟨by decide, .inr (by decide)⟩, ⟨by decide, .inl rfl⟩, ⟨by decide, .inr (by decide)⟩, by decide +kernel⟩

theorem witness_MemoryReadAfterWrite : Memory.wf (unlisted fresh.cfg .dmem) (fresh.mem .dmem) = true
    ∧ fresh.cell .dmem 0 = some 0xFF := by decide +kernel

theorem witness_MemoryCanonical : Memory.wf none [(0, 1), (5, 2)] = true ∧ Memory.wf (some 0xFF) [(0, 1)] = true
    ∧ Memory.wf (some 0xFF) [(0, 0xFF)] = false ∧ Memory.wf none [(5, 2), (0, 1)] = false := by decide

theorem witness_ResetInvariant : Config.valid Config.tc = true
    ∧ Config.valid { Config.tc with inBytes := 0xFFFFFFFF, msgBytes := 0x100000000, xbufBytes := 0x100000000 } = true
    ∧ Config.valid { Config.tc with msgBytes := 266, outBytes := 267, snapMax := 1, sentinel := 0x80, xbufBytes := 1 }
      = true := by decide +kernel

theorem witness_StepKeepsInvariant : (pending 0x0B fresh).Inv
    ∧ step (pending 0x0B fresh) = .next ((pending 0x0B fresh).takeFatal ⟨.command, 0x0B⟩) :=
  ⟨inv_of_check (by decide +kernel), rfl⟩

end Sys2Proof.Machine.Slice0Tests
end

section
/-! Memory: what a read returns after a write, and what the write leaves (R12, R34, R63). -/

namespace Sys2Proof.Machine

/-- Settles O57: the laws of `writeBytes` at the written space and at every other one, and of `readByte` at a cell that
holds a byte. -/
theorem memoryReadAfterWrite : Obligations.MemoryReadAfterWrite := by
  intro s sp a bs hwf
  refine ⟨?cells, ?canonical, ?frame, ?reads⟩
  case cells => exact fun c => s.writeBytes_cell sp a bs c hwf
  case canonical =>
    have h := s.writeBytes_wf sp sp a bs hwf
    rwa [State.writeBytes_cfg] at h
  case frame => exact fun _ hne c => s.writeBytes_cell_other a bs c hne
  case reads => exact fun _ _ _ hcell => State.readByte_of_cell hcell

end Sys2Proof.Machine
end

section
/-! What a step can do, case by case, and the invariant through every one (R20 to R25, R253 to R259, R281). -/

namespace Sys2Proof.Machine

/-! ## Reset -/

/-- The state after reset, under parameters that R9 admits. -/
theorem State.Inv.resetOf {c : Config} (h : Config.valid c = true) : (State.resetOf c).Inv where
  cfgValid := h
  spaces sp := by cases sp <;> exact ⟨rfl, rfl⟩
  cursor := ⟨Nat.zero_le _, le_rfl⟩
  message := ⟨le_rfl, Nat.zero_le _, fun _ hi => absurd hi (Nat.not_lt_zero _)⟩
  output := ⟨Nat.zero_le _, fun _ hi => absurd hi (Nat.not_lt_zero _)⟩
  expansion := ⟨Nat.zero_le _, fun _ hi => absurd hi (Nat.not_lt_zero _)⟩
  snapshots := ⟨Nat.zero_le _, fun _ hd => nomatch hd⟩
  unlatched _ := ⟨rfl, rfl⟩
  errors := ⟨⟨nofun, fun h => absurd rfl h⟩, fun _ => rfl, ⟨nofun, fun h => absurd rfl h⟩⟩
  warnings := ⟨show (0 : Word).toNat < 256 by decide, ⟨fun _ => rfl, fun _ => rfl⟩⟩
  stream := ⟨fun _ => ⟨rfl, rfl, rfl, rfl, rfl, rfl⟩, nofun⟩

theorem State.Inv.hostReset {s : State} (h : s.Inv) : s.hostReset.Inv :=
  (State.Inv.resetOf h.cfgValid).host _ _ _ _ _ _ _ _ _ _ _

/-! ## What a host access can do -/

/-- Every access that is not refused: a register write, which an unlisted offset ignores; a read; a byte of IN written;
a reset. -/
theorem hostAct_cases {a : HostAct} {s t : State} (h : hostAct a s = .next t) :
    (∃ r v, t = s.regWrite r v) ∨ t = s ∨ (∃ v, t = s.returned v)
      ∨ (∃ k b, k < Config.size s.cfg .input ∧ t = s.writeBytes .input k [b]) ∨ (a = .reset ∧ t = s.hostReset) := by
  cases a with
  | regWrite offset width v =>
    simp only [hostAct] at h
    split_ifs at h
    split at h <;> cases h
    · exact .inl ⟨_, v, rfl⟩
    · exact .inr (.inl rfl)
  | regRead offset width =>
    simp only [hostAct] at h
    split_ifs at h
    cases h
    exact .inr (.inr (.inl ⟨_, rfl⟩))
  | memWrite sp k b =>
    simp only [hostAct] at h
    split_ifs at h with hk hsp
    obtain rfl : sp = .input := not_not.mp hsp
    cases h
    exact .inr (.inr (.inr (.inl ⟨k, b, hk, rfl⟩)))
  | memRead sp k =>
    simp only [hostAct] at h
    split_ifs at h
    cases h
    exact .inr (.inr (.inl ⟨_, rfl⟩))
  | reset =>
    cases h
    exact .inr (.inr (.inr (.inr ⟨rfl, rfl⟩)))

/-- A host access keeps the invariant. -/
theorem hostAct_inv {a : HostAct} {s t : State} (h : s.Inv) (ht : hostAct a s = .next t) : t.Inv := by
  rcases hostAct_cases ht with ⟨r, v, rfl⟩ | rfl | ⟨v, rfl⟩ | ⟨k, b, hk, rfl⟩ | ⟨-, rfl⟩
  · exact h.regWrite r v
  · exact h
  · exact h.host _ _ _ _ _ _ _ _ _ _ _
  · exact h.writeInput hk b
  · exact h.hostReset

/-! ## What a script statement can do -/

/-- `t` is `s` but for the host's agenda, place and polls, and the draw counter. -/
def HostMovedOn (s t : State) : Prop :=
  ∃ draws agenda hostPc polls,
    t = { s with draws := draws, agenda := agenda, hostPc := hostPc, polls := polls }

theorem hostJump_movesOn {label : Nat} {s t : State} (h : hostJump label s = .next t) : HostMovedOn s t := by
  simp only [hostJump] at h
  split at h <;> cases h
  exact ⟨_, _, _, _, rfl⟩

/-- A script statement touches nothing of the block: its accesses go on the agenda (R96, R97). -/
theorem hostStatement_movesOn {s t : State} (h : hostStatement s = .next t) : HostMovedOn s t := by
  simp only [hostStatement] at h
  split at h
  case h_1 => cases h; exact ⟨_, _, _, _, rfl⟩
  case h_2 line _ =>
    split at h
    case h_1 => cases h; exact ⟨_, _, _, _, rfl⟩
    case h_2 i operands _ =>
      split at h <;> cases h
      exact ⟨_, _, _, _, rfl⟩
    case h_3 => cases h; exact ⟨_, _, _, _, rfl⟩
    case h_4 =>
      split_ifs at h
      cases h
      exact ⟨_, _, _, _, rfl⟩
    case h_5 =>
      split_ifs at h
      · exact hostJump_movesOn h
      · cases h; exact ⟨_, _, _, _, rfl⟩
    case h_6 => exact hostJump_movesOn h
    case h_7 => cases h; exact ⟨_, _, _, _, rfl⟩

/-! ## What a step can do -/

/-- CORE executes next. -/
def CoreExecutes (s : State) : Prop := s.busy = true ∧ (s.agenda = [] ∨ s.agenda.head? = some .core)

/-- Every step: CORE's Execute of the command CW holds, an access of the host's, or neither, when nothing of the block
changes. In the first two the agenda has moved on. -/
theorem step_cases {s t : State} (h : step s = .next t) :
    (CoreExecutes s ∧ exec s.fetch { s with agenda := s.agenda.tail } = .next t)
      ∨ (∃ a, s.agenda.head? = some (.host a) ∧ hostAct a { s with agenda := s.agenda.tail } = .next t)
      ∨ HostMovedOn s t := by
  unfold step at h
  split at h
  case h_1 rest ha =>
    simp only [coreTurn] at h
    split_ifs at h with hb
    · exact .inl ⟨⟨hb, .inr (by rw [ha]; rfl)⟩, by rw [ha]; exact h⟩
    · cases h
      exact .inr (.inr ⟨_, _, _, _, rfl⟩)
  case h_2 a rest ha => exact .inr (.inl ⟨a, by rw [ha]; rfl, by rw [ha]; exact h⟩)
  case h_3 ha =>
    split_ifs at h with hb
    · simp only [coreTurn, hb, if_true] at h
      refine .inl ⟨⟨hb, .inl ha⟩, ?_⟩
      rwa [show s.agenda.tail = s.agenda by rw [ha]; rfl]
    · exact .inr (.inr (hostStatement_movesOn h))

/-! ## The invariant -/

/-- Settles O60: the invariant does not read the host's agenda, and each of the three kinds of step keeps it. -/
theorem stepKeepsInvariant : Obligations.StepKeepsInvariant := by
  intro s t hs hstep
  have hnow : ({ s with agenda := s.agenda.tail } : State).Inv := hs.host _ _ _ _ _ _ _ _ _ _ _
  rcases step_cases hstep with ⟨-, hexec⟩ | ⟨a, -, hact⟩ | ⟨_, _, _, _, rfl⟩
  · exact exec_command_inv (decodeCommand_isCommand s.cw) hnow hexec
  · exact hostAct_inv hnow hact
  · exact hs.host _ _ _ _ _ _ _ _ _ _ _

end Sys2Proof.Machine
end

section
/-! The cursor: what every command but STREAM_LOAD does to IPTR and IN_LEN (R30, R33). -/

namespace Sys2Proof.Machine

/-- IPTR has not fallen, and IN_LEN is as it was. -/
def CursorForward (s t : State) : Prop := s.iptr.toNat ≤ t.iptr.toNat ∧ t.inLen = s.inLen

/-- What leaves IPTR and IN_LEN alone. -/
theorem CursorForward.of_eq {s t : State} (hi : t.iptr = s.iptr) (hl : t.inLen = s.inLen) : CursorForward s t :=
  ⟨by rw [hi], hl⟩

theorem CursorForward.refl (s : State) : CursorForward s s := .of_eq rfl rfl

theorem CursorForward.trans {s t u : State} (h1 : CursorForward s t) (h2 : CursorForward t u) : CursorForward s u :=
  ⟨h1.1.trans h2.1, h2.2.trans h1.2⟩

theorem CursorForward.consume {s t : State} (h : CursorForward s t) {n : Nat} (hn : n ≤ t.left) :
    CursorForward s (t.consume n) :=
  h.trans ⟨by rw [State.consume_iptr_toNat hn]; exact Nat.le_add_right _ _, rfl⟩

section
variable {s t : State} (h : CursorForward s t)
include h

theorem CursorForward.warnOn (w : Warning) : CursorForward s (t.warnOn w) := h.trans (.of_eq rfl rfl)

theorem CursorForward.ended : CursorForward s t.ended := h.trans (.of_eq rfl rfl)

theorem CursorForward.noMessage : CursorForward s t.noMessage := h.trans (.of_eq rfl rfl)

theorem CursorForward.deliver : CursorForward s t.deliver := h.trans (.of_eq rfl rfl)

theorem CursorForward.results (a b : Word) : CursorForward s (t.results a b) := h.trans (.of_eq rfl rfl)

theorem CursorForward.snapshot (d : Dialect) : CursorForward s (takeSnapshot d t) := h.trans (.of_eq rfl rfl)

theorem CursorForward.appendFrame (d : Dialect) (dev : BitVec 7) (addr : Nat) (payload : List Byte) :
    CursorForward s (appendFrame d dev addr payload t) :=
  h.trans (.of_eq rfl rfl)

theorem CursorForward.copyPayload {k : Nat} (hk : k ≤ t.left) : CursorForward s (t.copyPayload k) :=
  (h.consume hk).trans (.of_eq rfl rfl)

end

theorem CursorForward.closed {s t : State} (h : CursorForward s t) (w : Warning) :
    CursorForward s (t.warnOn w).ended.noMessage := (h.warnOn w).ended.noMessage

/-- A flow that leaves the cursor no further back than `s` has it. -/
def Flow.Forward (s : State) : Flow → Prop
  | .go t => CursorForward s t
  | .done t => CursorForward s t
  | .raise _ => True

/-! ## The reads of the stream -/

theorem skip_forward {s t : State} (h : CursorForward s t) (n : Nat) {f : Unit → State → Flow}
    (hf : ∀ u, CursorForward s u → (f () u).Forward s) : ((t.skip n).orEnd f).Forward s := by
  rcases t.skip_cases n with ⟨hn, e⟩ | ⟨-, e⟩ <;> rw [e]
  · exact hf _ (h.consume hn)
  · exact (h.consume le_rfl).closed _

theorem readVlq_forward {s t : State} (h : CursorForward s t) {f : Nat → State → Flow}
    (hf : ∀ n u, CursorForward s u → (f n u).Forward s) : (t.readVlq.orEnd f).Forward s := by
  rcases t.readVlq_cases with ⟨n, m, -, -, hm, e⟩ | ⟨m, hm, e⟩ | ⟨m, hm, e⟩ <;> rw [e]
  · exact hf _ _ (h.consume hm)
  · exact (h.consume hm).closed _
  · exact (h.consume hm).closed _

theorem next1_forward {s t : State} (h : CursorForward s t) {f : Byte → State → Flow}
    (hf : ∀ b u, CursorForward s u → (f b u).Forward s) : (t.next1.orEnd f).Forward s := by
  rcases t.next1_cases with ⟨hl, e⟩ | ⟨-, e⟩ <;> rw [e]
  · exact hf _ _ (h.consume hl)
  · exact h.closed _

/-! ## The events of a track -/

section
variable {s t : State} (h : CursorForward s t) (hl : 1 ≤ t.left)
include h hl

theorem skipEvent_forward (b : Byte) (n : Nat) : (skipEvent b n t).Forward s :=
  skip_forward (t := t.status b) (h.consume hl) n fun _ hu => hu

theorem smfRunningDataBody_forward (d : BitVec 7) : (smfRunningDataBody d t).Forward s := by
  simp only [smfRunningDataBody]
  split
  · exact skip_forward (h.consume hl) _ fun _ hu => hu
  · exact (h.consume hl).closed _

theorem smfMetaBody_forward : (smfMetaBody t).Forward s :=
  next1_forward (h.consume hl) fun _ _ hu => readVlq_forward hu fun n _ hv => skip_forward hv n fun _ hw => hw

omit hl in
theorem sysexPayload_forward (n : Nat) : (sysexPayload n t).Forward s := by
  simp only [sysexPayload]
  split_ifs
  · trivial
  · exact (((h.copyPayload le_rfl).warnOn _).ended.warnOn _).deliver
  · exact (h.copyPayload (by omega)).deliver
  · exact ((h.copyPayload (by omega)).warnOn _).deliver

theorem sysexEvent_forward (b : Byte) : (sysexEvent b t).Forward s :=
  readVlq_forward (t := t.status b) (h.consume hl) fun n _ hu => sysexPayload_forward hu n

theorem eventBody_forward (i : Instr) : (eventBody i t).Forward s := by
  cases i
  case smfRunningData d => exact smfRunningDataBody_forward h hl d
  case smfMeta => exact smfMetaBody_forward h hl
  case smfSysexStart | smfSysexEscape => exact sysexEvent_forward h hl _
  case smfCh8 | smfCh9 | smfChA | smfChB | smfProgramChange | smfChannelPressure | smfChE | smfMtcQuarterFrame
      | smfSongPosition | smfSongSelect =>
    exact skipEvent_forward h hl _ _
  case smfUndefinedCommon | smfTuneRequest | smfRealtime => exact skipEvent_forward h hl _ 0
  all_goals exact h.closed _

end

theorem trackEvent_forward (s : State) : (trackEvent s).Forward s :=
  readVlq_forward (.refl s) fun _ t ht => by
    rcases t.peek_cases with ⟨hl, e⟩ | ⟨-, e⟩ <;> rw [e]
    · exact eventBody_forward ht hl _
    · exact ht.closed _

/-! ## Chunks and the track loop -/

theorem chunkMtrkBody_forward (s : State) : (chunkMtrkBody s).Forward s := by
  simp only [chunkMtrkBody]
  split_ifs with hl
  · exact .of_eq rfl rfl
  · exact ⟨by rw [iptr_add_toNat (by omega)]; exact Nat.le_add_right _ _, rfl⟩

theorem openTrack_forward (s : State) : (openTrack s).Forward s := by
  simp only [openTrack]
  split_ifs
  · exact .of_eq rfl rfl
  · exact .of_eq rfl rfl
  · split
    · exact chunkMtrkBody_forward s
    · exact .of_eq rfl rfl

theorem smfIteration_forward (s : State) : (smfIteration s).Forward s := by
  simp only [smfIteration]
  split_ifs
  · exact .of_eq rfl rfl
  · exact .of_eq rfl rfl
  · exact trackEvent_forward s
  · exact openTrack_forward s

theorem smfNext_forward {s t u : State} (h : CursorForward s t) (hv : smfNext t = some (.done u)) :
    CursorForward s u := by
  have := smfNext_induct (P := CursorForward s) (Q := CursorForward s) (R := fun _ => True)
    (fun a b ha e => by have := smfIteration_forward a; rw [e] at this; exact ha.trans this)
    (fun a b ha e => by have := smfIteration_forward a; rw [e] at this; exact ha.trans this)
    (fun _ _ _ _ => trivial) h
  rwa [hv] at this

/-- The header of an SMF ends past the cursor, which stands at the start of IN (R121, R124). -/
theorem chunkMthdBody_forward {s : State} (h : s.iptr = 0) : (chunkMthdBody s).Forward s := by
  simp only [chunkMthdBody]
  split_ifs
  · exact .of_eq rfl rfl
  · exact .of_eq rfl rfl
  · exact ⟨by rw [h]; exact Nat.zero_le _, rfl⟩

/-! ## Raw mode -/

/-- The body lies after its start marker, inside IN (R123). -/
theorem rawSysexBody_forward {s : State} (hl : s.iptr.toNat < s.inLen.toNat) : (rawSysexBody s).Forward s := by
  have hlt := s.inLen.isLt
  have copied (n : Nat) (hn : s.iptr.toNat + 1 + n ≤ s.inLen.toNat) : CursorForward s
      { s.writeBytes .msg 0 (s.readBytes .rawCopy .input (s.iptr.toNat + 1) n) with
        msgLen := wordOf n, msgPos := wordOf (s.iptr.toNat + 1), iptr := wordOf (s.iptr.toNat + 1 + n) } :=
    ⟨by rw [wordOf_of_lt (by omega)]; omega, rfl⟩
  simp only [rawSysexBody]
  cases e : s.findByte .rawFind endMarker (s.iptr.toNat + 1) (s.inLen.toNat - (s.iptr.toNat + 1)) with
  | none =>
    simp only
    split_ifs
    · trivial
    · exact (((copied _ (by omega)).warnOn _).ended).deliver
  | some j =>
    obtain ⟨hj, hj', -⟩ := State.findByte_some e
    simp only
    split_ifs
    · trivial
    · exact (copied _ (by omega)).deliver

theorem rawNext_forward {s t : State} (h : rawNext s = .done t) : CursorForward s t := by
  simp only [rawNext] at h
  cases e : s.findByte .rawScan startMarker s.iptr.toNat s.left with
  | none =>
    rw [e] at h
    cases h
    exact (CursorForward.refl s).consume le_rfl
  | some j =>
    obtain ⟨hj, hj', -⟩ := State.findByte_some e
    simp only [State.left] at hj'
    have hw : (wordOf j).toNat = j := wordOf_of_lt (by have := s.inLen.isLt; omega)
    have hscan : CursorForward s { s with iptr := wordOf j } := ⟨by rw [hw]; exact hj, rfl⟩
    have hbody := rawSysexBody_forward (s := { s with iptr := wordOf j }) (by rw [hw]; show _ < s.inLen.toNat; omega)
    rw [e] at h
    dsimp only at h
    cases eb : rawSysexBody { s with iptr := wordOf j } <;> rw [eb] at h hbody <;> cases h <;>
      exact hscan.trans hbody

/-! ## The commands -/

theorem demuxNextBody_forward {s t : State} (hs : s.Inv) (h : demuxNextBody s = some (.done t)) :
    CursorForward s t := by
  simp only [demuxNextBody] at h
  split at h
  case h_1 hd =>
    obtain ⟨hiptr, -⟩ := hs.stream.1 hd
    split_ifs at h
    · have hm := chunkMthdBody_forward (s := { s with dmode := .smf }) hiptr
      simp only [smfStart] at h
      split at h <;> rename_i e <;> rw [e] at hm
      · exact smfNext_forward hm h
      · cases h; exact hm
      · cases h
    · exact rawNext_forward (s := { s with dmode := .raw }) (Option.some.inj h)
  case h_2 => exact rawNext_forward (Option.some.inj h)
  case h_3 => exact smfNext_forward (.refl s) h
  case h_4 => cases h; exact .of_eq rfl rfl

theorem writeFrame_forward (d : Dialect) (addr : Nat) (payload : List Byte) (s : State) :
    CursorForward s (writeFrame d addr payload s) := by
  have written : CursorForward s { s.writeBytes .dmem addr payload with dialect := some d } :=
    .of_eq rfl rfl
  simp only [writeFrame]
  split_ifs
  · exact (written.snapshot d).results 0 1
  · exact written.results 0 0

theorem ingestMessage_forward {m : List Byte} {s t : State} (h : ingestMessage m s = .done t) : CursorForward s t := by
  have frame (d : Dialect) (h : ingestFrame d m s = .done t) : CursorForward s t := by
    simp only [ingestFrame, dropForeign] at h
    split_ifs at h <;> cases h
    · exact .of_eq rfl rfl
    · exact .of_eq rfl rfl
    · exact writeFrame_forward d _ _ s
    · exact .of_eq rfl rfl
  simp only [ingestMessage] at h
  split at h
  · exact frame .d3D h
  · exact frame .d57 h
  · cases h; exact .of_eq rfl rfl

theorem emitFrames_forward {d : Dialect} {dev : BitVec 7} (c addr : Nat) (src : List Byte) (s : State) :
    CursorForward s (emitFrames d dev c addr src s) := by
  induction c generalizing addr src s with
  | zero => exact .refl s
  | succ c ih => exact ((CursorForward.refl s).appendFrame d dev addr _).trans (ih _ _ _)

/-- Every command that completes, STREAM_LOAD apart, moves the cursor only forward. -/
theorem commandVerdict_forward {i : Instr} (hi : i ≠ .streamLoad) {s t : State} (hs : s.Inv)
    (h : commandVerdict i s = some (.done t)) : CursorForward s t := by
  cases i <;> simp only [commandVerdict, Option.some.injEq, reduceCtorEq] at h
  case streamLoad => exact absurd rfl hi
  case demuxNext => exact demuxNextBody_forward hs h
  case ingest => exact ingestMessage_forward h
  case emit =>
    simp only [emitBody] at h
    split at h
    · split_ifs at h
      cases h
      exact emitFrames_forward _ _ _ s
    · cases h
  case readRegion =>
    simp only [readRegionBody] at h
    split_ifs at h <;> cases h <;> exact .of_eq rfl rfl
  case crc32 =>
    simp only [crc32Body, crcVerdict] at h
    split at h
    · split_ifs at h
      · cases h; exact .of_eq rfl rfl
      · split at h <;> cases h <;> exact .of_eq rfl rfl
    · cases h
  case inflate =>
    simp only [inflateBody, inflateVerdict] at h
    split_ifs at h
    split at h
    · cases h
    · split_ifs at h
      cases h
      exact .of_eq rfl rfl
  case nop | imgInit | outClear | warnClear => cases h; exact .of_eq rfl rfl
  case reserved => cases h

theorem streamLoadBody_iptr {s t : State} (h : streamLoadBody s = .done t) : t.iptr = 0 := by
  simp only [streamLoadBody] at h
  split_ifs at h
  cases h
  rfl

/-- An Execute moves the cursor only forward, unless it is STREAM_LOAD's on an unhalted block, which puts it at 0. -/
theorem exec_command_forward {i : Instr} (hi : IsCommand i) {s t : State} (hs : s.Inv) (h : exec i s = .next t) :
    CursorForward s t ∨ (i = .streamLoad ∧ s.halt = false ∧ t.iptr = 0) := by
  obtain ⟨v, hv, e⟩ := exec_command hi s
  rw [e] at h
  obtain rfl := Host.Outcome.next.inj h
  split_ifs with hh
  · exact .inl (.of_eq rfl rfl)
  · cases v with
    | raise e => exact .inl (.of_eq rfl rfl)
    | done t =>
      by_cases hl : i = .streamLoad
      · subst hl
        exact .inr ⟨rfl, by simpa using hh, streamLoadBody_iptr (t := t) (Option.some.inj hv)⟩
      · exact .inl ((commandVerdict_forward hl hs hv).trans (.of_eq rfl rfl))

/-! ## The host -/

theorem regWrite_forward (s : State) (r : Reg) (v : Word) : CursorForward s (s.regWrite r v) := by
  cases r
  case cmd => simp only [State.regWrite, State.writeCmd]; split_ifs <;> exact .of_eq rfl rfl
  all_goals exact .of_eq rfl rfl

/-- A host access moves the cursor only by a reset. -/
theorem hostAct_forward {a : HostAct} {s t : State} (h : hostAct a s = .next t) :
    CursorForward s t ∨ (a = .reset ∧ t.iptr = 0) := by
  rcases hostAct_cases h with ⟨r, v, rfl⟩ | rfl | ⟨v, rfl⟩ | ⟨k, b, -, rfl⟩ | ⟨ha, rfl⟩
  · exact .inl (regWrite_forward s r v)
  · exact .inl (.refl _)
  · exact .inl (.of_eq rfl rfl)
  · exact .inl (.of_eq rfl rfl)
  · exact .inr ⟨ha, rfl⟩

/-- Settles O33: the bound is the invariant's; the movement is that of the three kinds of step. -/
theorem cursorMovesForward : Obligations.CursorMovesForward := by
  intro s t hs hstep
  refine ⟨(stepKeepsInvariant s t hs hstep).cursor.2, ?_⟩
  have hnow : ({ s with agenda := s.agenda.tail } : State).Inv := hs.host _ _ _ _ _ _ _ _ _ _ _
  rcases step_cases hstep with ⟨⟨hb, hturn⟩, hexec⟩ | ⟨a, ha, hact⟩ | ⟨_, _, _, _, rfl⟩
  · rcases exec_command_forward (decodeCommand_isCommand s.cw) hnow hexec with hf | ⟨hi, hh, h0⟩
    · exact .inl hf
    · exact .inr ⟨h0, .inl ⟨hb, hh, hi, hturn⟩⟩
  · rcases hostAct_forward hact with hf | ⟨rfl, h0⟩
    · exact .inl hf
    · exact .inr ⟨h0, .inr ha⟩
  · exact .inl (CursorForward.of_eq rfl rfl)

end Sys2Proof.Machine
end

section
/-! The host's register accesses, and what a step is (R20 to R25, R42, R67). -/

namespace Sys2Proof.Machine

/-! ## Registers and their offsets (R22) -/

theorem Reg.ofOffset_offset (r : Reg) : Reg.ofOffset r.offset = some r := by cases r <;> rfl

theorem Reg.offset_of_ofOffset {n : Nat} {r : Reg} (h : Reg.ofOffset n = some r) : r.offset = n := by
  unfold Reg.ofOffset at h
  split at h <;> cases h <;> rfl

theorem Reg.offset_le (r : Reg) : r.offset ≤ 0x5C := by cases r <;> decide

theorem Reg.offset_aligned (r : Reg) : r.offset % 4 = 0 := by cases r <;> rfl

theorem Reg.ofOffset_eq_none {n : Nat} (h : 0x5C < n) : Reg.ofOffset n = none := by
  cases e : Reg.ofOffset n with
  | none => rfl
  | some r =>
    have := r.offset_le
    have := Reg.offset_of_ofOffset e
    omega

/-! ## Writes -/

theorem hostAct_regWrite (s : State) (r : Reg) (v : Word) :
    hostAct (.regWrite r.offset 4 v) s = .next (s.regWrite r v) := by
  simp [hostAct, wordAccess, r.offset_aligned, r.ofOffset_offset]

/-- A register that is neither CMD, at 0x00, nor an operand register, at 0x18 to 0x2C, ignores writes (R22). -/
theorem regWrite_ignored (s : State) {r : Reg} (v : Word) (h : 0x00 < r.offset ∧ r.offset < 0x18 ∨ 0x2C < r.offset) :
    s.regWrite r v = s := by
  cases r
  case cmd | arg0 | arg1 | arg2 | arg3 | arg4 | arg5 => exact absurd h (by decide)
  all_goals rfl

theorem hostAct_regWrite_ignored (s : State) {offset : Nat} (v : Word) (ha : offset % 4 = 0)
    (h : 0x00 < offset ∧ offset < 0x18 ∨ 0x2C < offset) : hostAct (.regWrite offset 4 v) s = .next s := by
  cases e : Reg.ofOffset offset with
  | none => simp [hostAct, wordAccess, ha, e]
  | some r =>
    obtain rfl := Reg.offset_of_ofOffset e
    rw [hostAct_regWrite, regWrite_ignored s v h]

theorem Operands.get_put_same (o : Operands) (k : Slot) (v : Word) : (o.put k v).get k = v := by cases k <;> rfl

theorem Operands.get_put_other (o : Operands) {k k' : Slot} (v : Word) (h : k' ≠ k) :
    (o.put k v).get k' = o.get k' := by
  cases k <;> cases k' <;> first | rfl | exact absurd rfl h

/-- A write to an operand register changes that register alone (R25). -/
theorem State.regWrite_slot (s : State) (k : Slot) (v : Word) :
    s.regWrite k.reg v = { s with arg := s.arg.put k v } := by cases k <;> rfl

/-- The registers a host access may write bear on nothing else of the block. -/
theorem SameBlock.ofHostRegisters (s : State) (cw : Word) (busy ovr : Bool) (arg lat : Operands) (draws : Nat)
    (busData : Word) :
    SameBlock s { s with cw := cw, busy := busy, ovr := ovr, arg := arg, lat := lat, draws := draws,
                         busData := busData } :=
  ⟨⟨rfl, rfl⟩, ⟨rfl, rfl⟩, ⟨rfl, rfl, rfl, rfl, rfl, rfl⟩, ⟨rfl, rfl⟩, ⟨rfl, rfl⟩, ⟨rfl, rfl⟩,
    fun sp _ => by cases sp <;> rfl⟩

theorem State.writeCmd_idle {s : State} (h : s.busy = false) (w : Word) :
    s.writeCmd w = { s with lat := s.arg, cw := w, busy := true } := by simp [State.writeCmd, h]

theorem State.writeCmd_busy {s : State} (h : s.busy = true) (w : Word) : s.writeCmd w = { s with ovr := true } := by
  simp [State.writeCmd, h]

/-- Settles O49: Issue, the refused Issue, and the write to an operand register, each as one update. -/
theorem issueAndOperands : Obligations.IssueAndOperands := by
  intro s v
  have hcmd : hostAct (.regWrite 0x00 4 v) s = .next (s.writeCmd v) := hostAct_regWrite s .cmd v
  refine ⟨fun hb => ?idle, fun hb => ?busy, fun k => ?operand⟩
  case idle =>
    rw [State.writeCmd_idle hb] at hcmd
    exact ⟨_, hcmd, rfl, rfl, rfl, rfl, rfl, ⟨rfl, rfl, rfl, rfl⟩, .ofHostRegisters s _ _ _ _ _ _ _⟩
  case busy =>
    rw [State.writeCmd_busy hb] at hcmd
    exact ⟨_, hcmd, rfl, rfl, hb, rfl, rfl, rfl, rfl, rfl, rfl, .ofHostRegisters s _ _ _ _ _ _ _⟩
  case operand =>
    refine ⟨_, hostAct_regWrite s k.reg v, ?_⟩
    rw [State.regWrite_slot]
    exact ⟨s.arg.get_put_same k v, fun k' hk => s.arg.get_put_other v hk, rfl, rfl, rfl, rfl, ⟨rfl, rfl, rfl, rfl⟩,
      .ofHostRegisters s _ _ _ _ _ _ _⟩

/-! ## Reads -/

theorem hostAct_regRead (s : State) {offset : Nat} (h : offset % 4 = 0) :
    hostAct (.regRead offset 4) s = .next (s.returned (s.hostReads offset)) := by
  simp [hostAct, wordAccess, h]

/-- Reads have no side effect on the block (R67). -/
theorem readOnly_returned (s : State) (v : Word) : ReadOnly s (s.returned v) :=
  ⟨rfl, rfl, rfl, rfl, rfl, rfl, rfl, rfl, rfl, rfl, ⟨rfl, rfl, rfl, rfl⟩, .ofHostRegisters s _ _ _ _ _ _ _⟩

/-- A register read at its offset while BUSY = 0 gives its value (R42). -/
theorem State.hostReads_offset {s : State} (r : Reg) (hb : s.busy = false) : s.hostReads r.offset = s.regValue r := by
  simp only [State.hostReads, r.ofOffset_offset, hb]
  cases r <;> rfl

/-! ## STATUS and DSTATE, bit by bit (R22, R23, R27) -/

theorem flagWord_getLsbD (b : Bool) (k : Nat) : (flagWord b).getLsbD k = (decide (k = 0) && b) := by
  cases b <;> simp [flagWord, BitVec.getLsbD_one]

theorem flagWord_shiftLeft_getLsbD (b : Bool) {n : Nat} (hn : n < 32) (k : Nat) :
    (flagWord b <<< n).getLsbD k = (decide (k = n) && b) := by
  rw [BitVec.getLsbD_shiftLeft, flagWord_getLsbD]
  by_cases h : k = n
  · subst h; simp [hn]
  · by_cases hlt : k < n
    · simp [h, hlt]
    · simp [h, show k - n ≠ 0 by omega]

/-- A two-bit code is the word of its two flags. -/
theorem Last.code_eq (l : Last) :
    l.code = flagWord (decide (l = .fatal)) ||| flagWord (decide (l = .refused)) <<< 1 := by cases l <;> rfl

theorem DMode.code_eq (m : DMode) :
    m.code = flagWord (decide (m = .raw ∨ m = .ended)) ||| flagWord (decide (m = .smf ∨ m = .ended)) <<< 1 := by
  cases m <;> rfl

theorem State.statusWord_getLsbD (s : State) (k : Nat) : s.statusWord.getLsbD k
    = ((decide (k = 0) && s.busy) || (decide (k = 1) && s.halt) || (decide (k = 2) && s.ovr)
      || (decide (k = 8) && decide (s.last = .fatal)) || (decide (k = 9) && decide (s.last = .refused))) := by
  have hlast : s.last.code <<< 8
      = flagWord (decide (s.last = .fatal)) <<< 8 ||| flagWord (decide (s.last = .refused)) <<< 9 := by
    rw [Last.code_eq, BitVec.shiftLeft_or_distrib, ← BitVec.shiftLeft_add]
  simp only [State.statusWord, hlast, BitVec.getLsbD_or, flagWord_getLsbD, flagWord_shiftLeft_getLsbD, Nat.reduceLT,
    Bool.or_assoc]

theorem State.dstateWord_getLsbD (s : State) (k : Nat) : s.dstateWord.getLsbD k
    = ((decide (k = 0) && decide (s.dmode = .raw ∨ s.dmode = .ended))
      || (decide (k = 1) && decide (s.dmode = .smf ∨ s.dmode = .ended)) || (decide (k = 2) && s.trkOpen)
      || (decide (8 ≤ k) && s.rs.getLsbD (k - 8))) := by
  have hrs : ((s.rs.setWidth 32 : Word) <<< 8).getLsbD k = (decide (8 ≤ k) && s.rs.getLsbD (k - 8)) := by
    have hlow : (!decide (k < 8)) = decide (8 ≤ k) := by rw [← decide_not]; exact decide_eq_decide.mpr Nat.not_lt
    rw [BitVec.getLsbD_shiftLeft, BitVec.getLsbD_setWidth, hlow]
    by_cases hk : k < 16
    · simp [show k < 32 by omega, show k - 8 < 32 by omega]
    · simp [BitVec.getLsbD_of_ge s.rs (k - 8) (by omega)]
  simp only [State.dstateWord, DMode.code_eq, BitVec.getLsbD_or, flagWord_getLsbD, flagWord_shiftLeft_getLsbD,
    Nat.reduceLT, hrs]

/-- The registers that read as one value, in order of their offsets: all but STATUS and DSTATE. -/
def plainRegs : List Reg :=
  [.cmd, .err, .errInfo, .warn, .wcnt, .arg0, .arg1, .arg2, .arg3, .arg4, .arg5, .res0, .res1, .inLen, .iptr, .trkRem,
    .msgLen, .msgPos, .dialect, .snapCount, .outLen, .xlen]

/-- Settles O50: every aligned read returns `hostReads` and touches nothing else; the table is that of `plainRegs`. -/
theorem registerAccesses : Obligations.RegisterAccesses := by
  intro s
  have read (offset : Nat) (ha : offset % 4 = 0) : ∃ t, hostAct (.regRead offset 4) s = .next t ∧ ReadOnly s t
      ∧ t.busData = s.hostReads offset := ⟨_, hostAct_regRead s ha, readOnly_returned s _, rfl⟩
  refine ⟨fun offset ha => ?any, ?status, fun hb => ?dstate, fun hb offset v hv => ?plain, fun offset ha hlt => ?unlisted,
    fun offset v ha h => hostAct_regWrite_ignored s v ha h⟩
  case any =>
    obtain ⟨t, ht, hro, -⟩ := read offset ha
    exact ⟨t, ht, hro⟩
  case status =>
    obtain ⟨t, ht, hro, hd⟩ := read 0x04 rfl
    exact ⟨t, ht, hro, fun k => by rw [hd]; exact s.statusWord_getLsbD k⟩
  case dstate =>
    obtain ⟨t, ht, hro, hd⟩ := read 0x40 rfl
    exact ⟨t, ht, hro, fun k => by rw [hd.trans (State.hostReads_offset .dstate hb)]; exact s.dstateWord_getLsbD k⟩
  case plain =>
    replace hv : (offset, v) ∈ plainRegs.map fun r => (r.offset, s.regValue r) := hv
    obtain ⟨r, -, hr⟩ := List.mem_map.mp hv
    cases hr
    obtain ⟨t, ht, hro, hd⟩ := read r.offset r.offset_aligned
    exact ⟨t, ht, hro, hd.trans (State.hostReads_offset r hb)⟩
  case unlisted =>
    obtain ⟨t, ht, hro, hd⟩ := read offset ha
    exact ⟨t, ht, hro, by rw [hd, State.hostReads, Reg.ofOffset_eq_none hlt]⟩

/-! ## A step -/

/-- A command word decodes to the well-formed instruction it spells (R81, R83). -/
theorem decodeCommand_of_encode {i : Instr} (hi : WellFormed i) {w : Word} (h : encode i = .word w) :
    decodeCommand w = i := by
  cases i <;> simp only [encode, reduceCtorEq, Code.word.injEq] at h <;> subst h
  case reserved w =>
    have hlt : 10 < w.toNat := by simpa [WellFormed, wellFormed] using hi
    unfold decodeCommand
    split
    case h_12 => rfl
    all_goals omega
  all_goals rfl

theorem step_busy {s : State} (hb : s.busy = true) (ha : s.agenda = []) : step s = exec (decodeCommand s.cw) s := by
  simp only [step, ha, coreTurn, hb, if_true, State.fetch]

/-- Settles O55: `step` at each head of the agenda, and the word of a well-formed instruction decoding to it. -/
theorem stepRunsDecodedCommand : Obligations.StepRunsDecodedCommand := by
  intro s
  refine ⟨step_busy, fun i hi hw hb ha => ?_, fun rest ha hb => step_core ha hb, fun rest ha hb => ?_,
    fun a rest ha => ?_⟩
  · rw [step_busy hb ha, decodeCommand_of_encode hi hw]
  · simp [step, ha, coreTurn, hb]
  · simp only [step, ha]

end Sys2Proof.Machine
end

section
/-! The canonical form of a memory: its cells determine its list (R60, R63). -/

namespace Sys2Proof.Machine

/-- A cell before the first offset a memory may list is unlisted. -/
theorem Memory.cell_below {u : Option Byte} {lo a : Nat} (h : a < lo) {m : Memory}
    (hm : Memory.rising u lo m = true) : Memory.cell u a m = u := by
  simp [Memory.cell, Memory.get_below h hm]

theorem Memory.cell_head (u : Option Byte) (k : Nat) (v : Byte) (m : Memory) :
    Memory.cell u k ((k, v) :: m) = some v := by
  simp [Memory.cell, Memory.get]

theorem Memory.cell_after_head {u : Option Byte} {k a : Nat} (h : k < a) (v : Byte) (m : Memory) :
    Memory.cell u a ((k, v) :: m) = Memory.cell u a m := by
  simp [Memory.cell, Memory.get, h.ne, h.not_gt]

theorem Memory.rising_cons_iff {u : Option Byte} {lo k : Nat} {v : Byte} {m : Memory} :
    Memory.rising u lo ((k, v) :: m) = true ↔ lo ≤ k ∧ u ≠ some v ∧ Memory.rising u (k + 1) m = true := by
  simp [Memory.rising, and_assoc]

/-- The first cell listed holds what no unlisted cell does, so no memory with the same cells starts after it. -/
theorem Memory.not_below_of_cell_eq {u : Option Byte} {lo lo' k : Nat} {v : Byte} {m m' : Memory}
    (hm : Memory.rising u lo ((k, v) :: m) = true) (hm' : Memory.rising u lo' m' = true)
    (h : ∀ a, Memory.cell u a ((k, v) :: m) = Memory.cell u a m') : ¬ k < lo' := by
  intro hlt
  obtain ⟨-, hv, -⟩ := Memory.rising_cons_iff.mp hm
  exact hv ((Memory.cell_below hlt hm').symm.trans ((h k).symm.trans (Memory.cell_head u k v m)))

/-- Equal cells make equal lists, wherever the two memories start. -/
theorem Memory.eq_of_cell_eq {u : Option Byte} {lo lo' : Nat} {m m' : Memory} (hm : Memory.rising u lo m = true)
    (hm' : Memory.rising u lo' m' = true) (h : ∀ a, Memory.cell u a m = Memory.cell u a m') : m = m' := by
  induction m generalizing lo lo' m' with
  | nil =>
    cases m' with
    | nil => rfl
    | cons e' m' =>
      exact absurd e'.1.lt_succ_self (Memory.not_below_of_cell_eq hm' (lo' := e'.1 + 1) rfl fun a => (h a).symm)
  | cons e m ih =>
    obtain ⟨k, v⟩ := e
    obtain ⟨-, hv, hr⟩ := Memory.rising_cons_iff.mp hm
    cases m' with
    | nil => exact absurd k.lt_succ_self (Memory.not_below_of_cell_eq hm (lo' := k + 1) rfl h)
    | cons e' m' =>
      obtain ⟨k', v'⟩ := e'
      obtain ⟨-, hv', hr'⟩ := Memory.rising_cons_iff.mp hm'
      obtain rfl : k = k' := by
        have hle := Memory.not_below_of_cell_eq hm (Memory.rising_cons_iff.mpr ⟨le_rfl, hv', hr'⟩) h
        have hge := Memory.not_below_of_cell_eq hm' (Memory.rising_cons_iff.mpr ⟨le_rfl, hv, hr⟩) fun a => (h a).symm
        omega
      have hhead := h k
      rw [Memory.cell_head, Memory.cell_head] at hhead
      obtain rfl := Option.some.inj hhead
      refine congrArg _ (ih hr hr' fun a => ?_)
      rcases Nat.lt_or_ge k a with ha | ha
      · simpa only [Memory.cell_after_head ha] using h a
      · rw [Memory.cell_below (Nat.lt_succ_of_le ha) hr, Memory.cell_below (Nat.lt_succ_of_le ha) hr']

/-- Settles O58: both memories start at offset 0 or later. -/
theorem memoryCanonical : Obligations.MemoryCanonical := fun _ _ _ hm hm' h => Memory.eq_of_cell_eq hm hm' h

end Sys2Proof.Machine
end

section
/-! The host's accesses to the memory spaces (R60, R66, R67, R70). -/

namespace Sys2Proof.Machine

theorem wordAccess_eq_false {offset width : Nat} (h : width ≠ 4 ∨ offset % 4 ≠ 0) : wordAccess offset width = false :=
  decide_eq_false (by omega)

theorem hostAct_memWrite_input {s : State} {a : Nat} (ha : a < s.cfg.inBytes) (v : Byte) :
    hostAct (.memWrite .input a v) s
      = if s.busy then .refused .writeWhileBusy else .next (s.writeBytes .input a [v]) := by
  simp [hostAct, Config.size, ha]

/-- One byte of a space written: its cell, and no other. -/
theorem State.writeByte_cell (s : State) (sp : Space) (a : Nat) (v : Byte) (c : Nat)
    (hm : Memory.wf (unlisted s.cfg sp) (s.mem sp) = true) :
    (s.writeBytes sp a [v]).cell sp c = if c = a then some v else s.cell sp c := by
  rw [State.writeBytes_cell s sp a [v] c hm]
  by_cases h : c = a
  · subst h; simp
  · rw [if_neg h, if_neg (by simp only [List.length_singleton]; omega)]

/-- While BUSY = 0 a host read returns the byte a cell holds (R42). -/
theorem State.hostReadsCell_idle {s : State} (hb : s.busy = false) {sp : Space} {a : Nat} {b : Byte}
    (hc : s.cell sp a = some b) : s.hostReadsCell sp a = b := by
  simp [State.hostReadsCell, hb, State.readByte_of_cell hc]

/-- Settles O51: `hostAct` at each access of a space, by the conditions it looks at. -/
theorem hostMemoryAccesses : Obligations.HostMemoryAccesses := by
  intro s sp a v
  refine ⟨fun hs hb ha => ?stores, fun hb ha => ?busy, fun hsp ha => ?readOnly, fun ha => ?outside, fun ha => ?reads,
    fun offset width w h => ?narrow⟩
  case stores =>
    refine ⟨_, by rw [hostAct_memWrite_input ha, hb]; rfl, fun c => s.writeByte_cell .input a v c (hs.spaces .input).1,
      fun _ hne c => s.writeBytes_cell_other a [v] c hne, ?_⟩
    exact ⟨rfl, rfl, ⟨rfl, rfl, rfl, rfl, rfl, rfl, rfl, rfl, rfl⟩, ⟨rfl, rfl, rfl, rfl⟩, ⟨rfl, rfl⟩, ⟨rfl, rfl⟩,
      ⟨rfl, rfl, rfl, rfl, rfl, rfl⟩, ⟨rfl, rfl⟩, ⟨rfl, rfl⟩, ⟨rfl, rfl⟩⟩
  case busy => rw [hostAct_memWrite_input ha, hb]; rfl
  case readOnly => simp [hostAct, ha, hsp]
  case outside => constructor <;> simp [hostAct, ha.not_gt]
  case reads =>
    refine ⟨s.returned ((s.hostReadsCell sp a).setWidth 32), by simp [hostAct, ha], readOnly_returned s _,
      fun hb b hc => ?_⟩
    exact congrArg (BitVec.setWidth 32) (State.hostReadsCell_idle hb hc)
  case narrow => constructor <;> simp [hostAct, wordAccess_eq_false h]

end Sys2Proof.Machine
end

section
/-! The writers of the memory spaces and of the registers that go with them (R60, R35, R37). -/

namespace Sys2Proof.Machine

/-! ## What an instruction may write -/

/-- The pieces of the memory map: the spaces, DIALECT with SNAP_COUNT, OUT_LEN, XLEN. -/
inductive Store
  | space (sp : Space)
  | image
  | outLen
  | xlen

/-- What the memory map lets an instruction write; an element counts with the command it is part of (R60). -/
def footprint : Instr → List Store
  | .demuxNext | .rawSysex | .smfSysexStart | .smfSysexEscape => [.space .msg]
  | .ingest | .dt1At3D _ | .dt1At57 _ => [.space .dmem, .space .snap, .image]
  | .imgInit => [.space .dmem, .image]
  | .emit | .dt1Emit _ _ _ _ => [.space .out, .outLen]
  | .outClear => [.outLen]
  | .inflate => [.space .xbuf, .xlen]
  | _ => []

/-- The parameters, and everything of `s` that a `Store` names. -/
def State.stores (s : State) : Config × (Space → Memory) × (Option Dialect × Word) × Word × Word :=
  (s.cfg, s.mem, (s.dialect, s.snapCount), s.outLen, s.xlen)

/-- `t` has the parameters of `s`, and its stores but those of `w`. -/
structure WritesOnly (w : List Store) (s t : State) : Prop where
  cfg : t.cfg = s.cfg
  space : ∀ sp, .space sp ∉ w → t.mem sp = s.mem sp
  image : .image ∉ w → SameImage s t
  outLen : .outLen ∉ w → t.outLen = s.outLen
  xlen : .xlen ∉ w → t.xlen = s.xlen

/-- What leaves every store alone. -/
theorem WritesOnly.of_stores_eq {w : List Store} {s t : State} (h : t.stores = s.stores) : WritesOnly w s t := by
  simp only [State.stores, Prod.mk.injEq] at h
  obtain ⟨hcfg, hmem, himage, hout, hxlen⟩ := h
  exact ⟨hcfg, fun sp _ => congrFun hmem sp, fun _ => himage, fun _ => hout, fun _ => hxlen⟩

theorem WritesOnly.refl {w : List Store} (s : State) : WritesOnly w s s := .of_stores_eq rfl

theorem WritesOnly.trans {w : List Store} {s t u : State} (h1 : WritesOnly w s t) (h2 : WritesOnly w t u) :
    WritesOnly w s u where
  cfg := h2.cfg.trans h1.cfg
  space sp hw := (h2.space sp hw).trans (h1.space sp hw)
  image hw := ⟨(h2.image hw).1.trans (h1.image hw).1, (h2.image hw).2.trans (h1.image hw).2⟩
  outLen hw := (h2.outLen hw).trans (h1.outLen hw)
  xlen hw := (h2.xlen hw).trans (h1.xlen hw)

theorem WritesOnly.sameSpace {w : List Store} {s t : State} (h : WritesOnly w s t) {sp : Space}
    (hw : .space sp ∉ w) : SameSpace sp s t := fun _ => by
  simp only [State.cell, h.cfg, h.space sp hw]

/-! ## One update at a time -/

section
variable {w : List Store} {s t : State} (h : WritesOnly w s t)
include h

theorem WritesOnly.warnOn (x : Warning) : WritesOnly w s (t.warnOn x) := h.trans (.of_stores_eq rfl)

theorem WritesOnly.results (a b : Word) : WritesOnly w s (t.results a b) := h.trans (.of_stores_eq rfl)

/-- The end of the input after a signal (R125). -/
theorem WritesOnly.closed (x : Warning) : WritesOnly w s (t.warnOn x).ended.noMessage := h.trans (.of_stores_eq rfl)

theorem WritesOnly.setMem {sp : Space} (hw : .space sp ∈ w) (m : Memory) : WritesOnly w s (t.setMem sp m) where
  cfg := (t.setMem_cfg sp m).trans h.cfg
  space sp' hw' := by
    have hne : sp' ≠ sp := fun e => hw' (e ▸ hw)
    rw [State.setMem_mem, if_neg hne, h.space sp' hw']
  image hw' := ⟨(t.setMem_dialect sp m).trans (h.image hw').1, (t.setMem_snapCount sp m).trans (h.image hw').2⟩
  outLen hw' := (t.setMem_outLen sp m).trans (h.outLen hw')
  xlen hw' := (t.setMem_xlen sp m).trans (h.xlen hw')

theorem WritesOnly.writeBytes {sp : Space} (hw : .space sp ∈ w) (a : Nat) (bs : List Byte) :
    WritesOnly w s (t.writeBytes sp a bs) := h.setMem hw _

theorem WritesOnly.setImage (hw : .image ∈ w) (d : Option Dialect) (n : Word) :
    WritesOnly w s { t with dialect := d, snapCount := n } :=
  ⟨h.cfg, h.space, absurd hw, h.outLen, h.xlen⟩

theorem WritesOnly.setOutLen (hw : .outLen ∈ w) (n : Word) : WritesOnly w s { t with outLen := n } :=
  ⟨h.cfg, h.space, h.image, absurd hw, h.xlen⟩

theorem WritesOnly.setXlen (hw : .xlen ∈ w) (n : Word) : WritesOnly w s { t with xlen := n } :=
  ⟨h.cfg, h.space, h.image, h.outLen, absurd hw⟩

end

/-- SDX writes MSG and no other store. -/
theorem DemuxOnly.writesMsg {s t : State} (h : DemuxOnly s t) : WritesOnly [.space .msg] s t where
  cfg := by
    obtain ⟨-, -, -, hcfg, -⟩ := h.hostSide
    exact hcfg
  space sp hw := h.mem sp fun e => hw (by rw [e]; exact List.mem_singleton_self _)
  image _ := h.image
  outLen _ := h.sinks.1
  xlen _ := h.sinks.2

/-! ## Ends of an instruction -/

/-- What a verdict's state writes; a fatal error writes no store. -/
def Verdict.StaysIn (w : List Store) (s : State) : Verdict → Prop
  | .done t => WritesOnly w s t
  | .raise _ => True

/-- What a flow's state writes. -/
def Flow.StaysIn (w : List Store) (s : State) : Flow → Prop
  | .go t => WritesOnly w s t
  | .done t => WritesOnly w s t
  | .raise _ => True

theorem Flow.Frames.writesMsg {s : State} {f : Flow} (h : f.Frames s) : f.StaysIn [.space .msg] s := by
  cases f with
  | go t | done t => exact DemuxOnly.writesMsg h
  | raise e => trivial

theorem settle_writesOnly {w : List Store} {s : State} {v : Verdict} (h : v.StaysIn w s) :
    WritesOnly w s (if s.halt then s.refuse else s.settle v) := by
  split_ifs
  · exact .of_stores_eq rfl
  · cases v with
    | done t => exact WritesOnly.trans h (.of_stores_eq rfl)
    | raise e => exact .of_stores_eq rfl

theorem runCommand_writesOnly {w : List Store} {body : State → Verdict} {s t : State}
    (hb : (body s).StaysIn w s) (h : runCommand body s = .next t) : WritesOnly w s t := by
  obtain rfl := Host.Outcome.next.inj h
  exact settle_writesOnly hb

theorem runElement_writesOnly {w : List Store} {body : State → Flow} {s t : State}
    (hb : (body s).StaysIn w s) (h : runElement body s = .next t) : WritesOnly w s t := by
  obtain rfl := Host.Outcome.next.inj h
  split_ifs
  · exact .of_stores_eq rfl
  · revert hb
    cases body s with
    | go t => exact id
    | done t => exact fun hb => WritesOnly.trans hb (.of_stores_eq rfl)
    | raise e => exact fun _ => .of_stores_eq rfl

/-! ## Elements that only read the stream -/

/-- The state a read of the stream leaves. -/
def Sig.state {α : Type} : Sig α → State
  | .ok _ s => s
  | .trunc s => s
  | .malformed s => s

theorem Sig.orEnd_writesOnly {α : Type} {w : List Store} {s : State} {r : Sig α} {f : α → State → Flow}
    (hr : WritesOnly w s r.state) (hf : ∀ v t, WritesOnly w s t → (f v t).StaysIn w s) :
    (r.orEnd f).StaysIn w s := by
  cases r with
  | ok v t => exact hf v t hr
  | trunc t => exact hr.closed .trunc
  | malformed t => exact hr.closed .malformed

section
variable {w : List Store} {s t : State} (h : WritesOnly w s t)
include h

theorem WritesOnly.consume (n : Nat) : WritesOnly w s (t.consume n) := h.trans (.of_stores_eq rfl)

theorem WritesOnly.next1 : WritesOnly w s t.next1.state := by
  rcases t.next1_cases with ⟨-, e⟩ | ⟨-, e⟩ <;> rw [e]
  · exact h.consume 1
  · exact h

theorem WritesOnly.skip (n : Nat) : WritesOnly w s (t.skip n).state := by
  rcases t.skip_cases n with ⟨-, e⟩ | ⟨-, e⟩ <;> rw [e]
  · exact h.consume n
  · exact h.consume t.left

theorem WritesOnly.readVlq : WritesOnly w s t.readVlq.state := by
  rcases t.readVlq_cases with ⟨n, m, -, -, -, e⟩ | ⟨m, -, e⟩ | ⟨m, -, e⟩ <;> rw [e] <;> exact h.consume m

end

theorem skipEvent_writesNothing (b : Byte) (n : Nat) (s : State) : (skipEvent b n s).StaysIn [] s :=
  have hstatus : WritesOnly [] s (s.status b) := .of_stores_eq rfl
  Sig.orEnd_writesOnly (hstatus.skip n) fun _ _ ht => ht

theorem smfRunningDataBody_writesNothing (d : BitVec 7) (s : State) : (smfRunningDataBody d s).StaysIn [] s := by
  have hfirst : WritesOnly [] s (s.consume 1) := .of_stores_eq rfl
  simp only [smfRunningDataBody]
  split
  · exact Sig.orEnd_writesOnly (hfirst.skip _) fun _ _ ht => ht
  · exact hfirst.closed .malformed

theorem smfMetaBody_writesNothing (s : State) : (smfMetaBody s).StaysIn [] s :=
  Sig.orEnd_writesOnly ((WritesOnly.refl s).consume 1).next1 fun _ _ ht =>
    Sig.orEnd_writesOnly ht.readVlq fun n _ hu => Sig.orEnd_writesOnly (hu.skip n) fun _ _ hv => hv

theorem vlqBody_writesNothing (groups : List (BitVec 7)) (s : State) : (vlqBody groups s).StaysIn [] s := by
  simp only [vlqBody]
  split_ifs
  · exact Sig.orEnd_writesOnly ((WritesOnly.refl s).skip _) fun _ _ ht => ht
  · exact Sig.orEnd_writesOnly ((WritesOnly.refl s).skip _) fun _ _ ht => ht.closed .malformed

theorem badHeader_writesNothing (s : State) : (badHeader s).StaysIn [] s := (WritesOnly.refl s).closed .trkHdr

theorem chunkMthdBody_writesNothing (s : State) : (chunkMthdBody s).StaysIn [] s := by
  have hskipped (n : Word) : WritesOnly [] s { s with iptr := n } := .of_stores_eq rfl
  simp only [chunkMthdBody]
  split_ifs
  · exact badHeader_writesNothing s
  · exact badHeader_writesNothing s
  · exact hskipped _

theorem chunkMtrkBody_writesNothing (s : State) : (chunkMtrkBody s).StaysIn [] s := by
  simp only [chunkMtrkBody]
  split_ifs
  · exact badHeader_writesNothing s
  · exact WritesOnly.of_stores_eq rfl

/-! ## The image -/

theorem writeFrame_writesImage (d : Dialect) (addr : Nat) (payload : List Byte) (s : State) :
    WritesOnly [.space .dmem, .space .snap, .image] s (writeFrame d addr payload s) := by
  have hlatched : WritesOnly [.space .dmem, .space .snap, .image] s
      { s.writeBytes .dmem addr payload with dialect := some d } :=
    ((WritesOnly.refl s).writeBytes (by simp) addr payload).setImage (by simp) (some d) _
  simp only [writeFrame]
  split_ifs
  · exact ((hlatched.writeBytes (sp := .snap) (by simp) _ _).setImage (by simp) _ _).results 0 1
  · exact hlatched.results 0 0

theorem ingestFrame_writesImage (d : Dialect) (m : List Byte) (s : State) :
    (ingestFrame d m s).StaysIn [.space .dmem, .space .snap, .image] s := by
  have hdropped (x : Warning) (code : Word) :
      WritesOnly [.space .dmem, .space .snap, .image] s ((s.warnOn x).results code 0) := .of_stores_eq rfl
  simp only [ingestFrame]
  split_ifs
  · trivial
  · exact hdropped .dialect 2
  · exact hdropped .bounds 3
  · trivial
  · exact writeFrame_writesImage d _ _ s
  · exact hdropped .foreign 1

theorem ingestMessage_writesImage (m : List Byte) (s : State) :
    (ingestMessage m s).StaysIn [.space .dmem, .space .snap, .image] s := by
  simp only [ingestMessage]
  split
  · exact ingestFrame_writesImage .d3D m s
  · exact ingestFrame_writesImage .d57 m s
  · exact WritesOnly.of_stores_eq rfl

/-! ## OUT and XBUF -/

theorem WritesOnly.appendFrame {s t : State} (h : WritesOnly [.space .out, .outLen] s t) (d : Dialect)
    (dev : BitVec 7) (addr : Nat) (payload : List Byte) :
    WritesOnly [.space .out, .outLen] s (appendFrame d dev addr payload t) :=
  (h.writeBytes (by simp) _ _).setOutLen (by simp) _

theorem WritesOnly.emitFrames {s t : State} (h : WritesOnly [.space .out, .outLen] s t) (d : Dialect)
    (dev : BitVec 7) (c addr : Nat) (src : List Byte) :
    WritesOnly [.space .out, .outLen] s (emitFrames d dev c addr src t) := by
  induction c generalizing addr src t with
  | zero => exact h
  | succ c ih => exact ih (h.appendFrame d dev addr _) _ _

theorem emitBody_writesOut (s : State) : (emitBody s).StaysIn [.space .out, .outLen] s := by
  simp only [emitBody]
  split
  · split_ifs
    · trivial
    · trivial
    · trivial
    · exact ((WritesOnly.refl s).emitFrames _ _ _ _ _).results _ _
    · trivial
  · trivial

theorem dt1EmitBody_writesOut (d : Dialect) (dev : BitVec 7) (addr : Nat) (payload : List Byte) (s : State) :
    (dt1EmitBody d dev addr payload s).StaysIn [.space .out, .outLen] s := by
  simp only [dt1EmitBody]
  split_ifs
  · trivial
  · exact (WritesOnly.refl s).appendFrame d dev addr payload

theorem inflateBody_writesXbuf (s : State) : (inflateBody s).StaysIn [.space .xbuf, .xlen] s := by
  simp only [inflateBody, inflateVerdict]
  split_ifs
  · trivial
  · split
    · trivial
    · split_ifs
      · trivial
      · exact (((WritesOnly.refl s).writeBytes (by simp) _ _).setXlen (by simp) _).results _ _
  · trivial

/-! ## Commands that write no store -/

theorem streamLoadBody_writesNothing (s : State) : (streamLoadBody s).StaysIn [] s := by
  simp only [streamLoadBody]
  split_ifs
  · trivial
  · exact WritesOnly.of_stores_eq rfl

theorem readRegionBody_writesNothing (s : State) : (readRegionBody s).StaysIn [] s := by
  have hresults (a : Word) : WritesOnly [] s (s.results a 0) := .of_stores_eq rfl
  simp only [readRegionBody]
  split_ifs
  · trivial
  · exact hresults 2
  · exact hresults 0
  · exact hresults 1

theorem crcVerdict_writesNothing (mode : CrcMode) (expected computed : Word) (s : State) :
    (crcVerdict mode expected computed s).StaysIn [] s := by
  simp only [crcVerdict]
  split_ifs
  · exact WritesOnly.of_stores_eq rfl
  · cases mode with
    | compute | advisory => exact WritesOnly.of_stores_eq rfl
    | fatal => trivial

theorem crc32Body_writesNothing (s : State) : (crc32Body s).StaysIn [] s := by
  simp only [crc32Body]
  split
  · split_ifs
    · exact crcVerdict_writesNothing _ _ _ s
    · trivial
  · trivial

/-! ## Every instruction -/

theorem demuxNextBody_writesMsg {s : State} {v : Verdict} (h : demuxNextBody s = some v) :
    v.StaysIn [.space .msg] s := by
  cases v with
  | done t => exact (demuxNextBody_frames h).writesMsg
  | raise e => trivial

/-- An instruction writes no store outside its footprint. -/
theorem exec_writesOnly {i : Instr} {s t : State} (h : exec i s = .next t) : WritesOnly (footprint i) s t := by
  cases i
  case nop => exact runCommand_writesOnly (body := nopBody) (WritesOnly.refl s) h
  case imgInit =>
    have hbody : (imgInitBody s).StaysIn (footprint .imgInit) s :=
      (((WritesOnly.refl s).setMem (sp := .dmem) (by simp [footprint]) []).setImage (by simp [footprint]) none
        0).results 0 0
    exact runCommand_writesOnly hbody h
  case streamLoad => exact runCommand_writesOnly (streamLoadBody_writesNothing s) h
  case demuxNext =>
    obtain ⟨v, hv, e⟩ := exec_command (i := .demuxNext) (by simp [IsCommand]) s
    obtain rfl := Host.Outcome.next.inj (e.symm.trans h)
    exact settle_writesOnly (demuxNextBody_writesMsg hv)
  case ingest => exact runCommand_writesOnly (ingestMessage_writesImage _ s) h
  case readRegion => exact runCommand_writesOnly (readRegionBody_writesNothing s) h
  case emit => exact runCommand_writesOnly (emitBody_writesOut s) h
  case outClear =>
    have hbody : (outClearBody s).StaysIn (footprint .outClear) s :=
      ((WritesOnly.refl s).setOutLen (by simp [footprint]) 0).results 0 0
    exact runCommand_writesOnly hbody h
  case crc32 => exact runCommand_writesOnly (crc32Body_writesNothing s) h
  case inflate => exact runCommand_writesOnly (inflateBody_writesXbuf s) h
  case warnClear =>
    have hbody : (warnClearBody s).StaysIn (footprint .warnClear) s := WritesOnly.of_stores_eq rfl
    exact runCommand_writesOnly hbody h
  case reserved w => exact runCommand_writesOnly (body := reservedBody w) trivial h
  case smfRunningData d => exact runElement_writesOnly (smfRunningDataBody_writesNothing d s) h
  case smfCh8 | smfCh9 | smfChA | smfChB | smfProgramChange | smfChannelPressure | smfChE | smfMtcQuarterFrame
      | smfSongPosition | smfSongSelect | smfUndefinedCommon | smfTuneRequest | smfRealtime =>
    exact runElement_writesOnly (skipEvent_writesNothing _ _ s) h
  case smfMeta => exact runElement_writesOnly (smfMetaBody_writesNothing s) h
  case smfSysexStart | smfSysexEscape => exact runElement_writesOnly (sysexEvent_frames _ s).writesMsg h
  case chunkMthd => exact runElement_writesOnly (chunkMthdBody_writesNothing s) h
  case chunkMtrk => exact runElement_writesOnly (chunkMtrkBody_writesNothing s) h
  case vlq groups => exact runElement_writesOnly (vlqBody_writesNothing groups s) h
  case rawSysex => exact runElement_writesOnly (rawSysexBody_frames s).writesMsg h
  case dt1At3D => exact runCommand_writesOnly (ingestFrame_writesImage .d3D _ s) h
  case dt1At57 => exact runCommand_writesOnly (ingestFrame_writesImage .d57 _ s) h
  case dt1Emit d dev addr payload => exact runElement_writesOnly (dt1EmitBody_writesOut d dev addr payload s) h

/-! ## The footprints, store by store -/

theorem input_notMem_footprint (i : Instr) : .space .input ∉ footprint i := by
  cases i <;> simp [footprint]

theorem msg_mem_footprint {i : Instr} (h : .space .msg ∈ footprint i) :
    i = .demuxNext ∨ i = .rawSysex ∨ i = .smfSysexStart ∨ i = .smfSysexEscape := by
  cases i <;> simp [footprint] at h ⊢

theorem snap_mem_footprint {i : Instr} (h : .space .snap ∈ footprint i) : ∃ d dev, i ∈ ingesters d dev := by
  cases i <;> simp only [footprint, List.mem_cons, List.not_mem_nil, Store.space.injEq, reduceCtorEq, or_false] at h
  case ingest => exact ⟨.d3D, 0, .head _⟩
  case dt1At3D dev => exact ⟨.d3D, dev, .tail _ (.head _)⟩
  case dt1At57 dev => exact ⟨.d57, dev, .tail _ (.head _)⟩

theorem dmem_or_image_mem_footprint {i : Instr} (h : .space .dmem ∈ footprint i ∨ .image ∈ footprint i) :
    .space .snap ∈ footprint i ∨ i = .imgInit := by
  cases i <;> simp [footprint] at h ⊢

theorem out_mem_footprint {i : Instr} (h : .space .out ∈ footprint i) :
    i = .emit ∨ ∃ d dev addr payload, i = .dt1Emit d dev addr payload := by
  cases i <;> simp [footprint] at h ⊢

theorem outLen_mem_footprint {i : Instr} (h : .outLen ∈ footprint i) : .space .out ∈ footprint i ∨ i = .outClear := by
  cases i <;> simp [footprint] at h ⊢

theorem xbuf_or_xlen_mem_footprint {i : Instr} (h : .space .xbuf ∈ footprint i ∨ .xlen ∈ footprint i) :
    i = .inflate := by
  cases i <;> simp [footprint] at h ⊢

/-- Settles O41: every instruction keeps to its footprint, and the footprints are those the memory map names. -/
theorem writersOfSpaces : Obligations.WritersOfSpaces := by
  intro i s t h
  have hw := exec_writesOnly h
  refine ⟨hw.sameSpace (input_notMem_footprint i), fun h1 h2 h3 h4 => ?msg, fun hin => ?image, fun he hf => ?out,
    fun hi => ?xbuf⟩
  case msg =>
    refine hw.sameSpace fun hm => ?_
    rcases msg_mem_footprint hm with e | e | e | e <;> contradiction
  case image =>
    have hsnap : .space .snap ∉ footprint i := fun hm => by
      obtain ⟨d, dev, hmem⟩ := snap_mem_footprint hm
      exact hin d dev hmem
    refine ⟨hw.sameSpace hsnap, fun hinit => ?_⟩
    have hnone (hm) : False := (dmem_or_image_mem_footprint (i := i) hm).elim hsnap hinit
    exact ⟨hw.sameSpace fun hm => hnone (.inl hm), hw.image fun hm => hnone (.inr hm)⟩
  case out =>
    have hout : .space .out ∉ footprint i := fun hm => by
      rcases out_mem_footprint hm with e | ⟨d, dev, addr, payload, e⟩
      · exact he e
      · exact hf d dev addr payload e
    exact ⟨hw.sameSpace hout, fun hc => hw.outLen fun hm => (outLen_mem_footprint hm).elim hout hc⟩
  case xbuf =>
    have hnone (hm) : False := hi (xbuf_or_xlen_mem_footprint (i := i) hm)
    exact ⟨hw.sameSpace fun hm => hnone (.inl hm), hw.xlen fun hm => hnone (.inr hm)⟩

end Sys2Proof.Machine
end

section
/-! The encodings, both ways: what a code decodes to is spelled by it, and what an instruction is spelled by decodes to
it (R80 to R95, R202). -/

namespace Sys2Proof

/-! ## Codes that decode -/

/-- A command word spells what it decodes to (R81, R83). -/
theorem decodeCommand_spelled (w : Word) :
    WellFormed (decodeCommand w) ∧ (decodeCommand w).format = .cmdw ∧ encode (decodeCommand w) = .word w := by
  unfold decodeCommand
  split
  case h_12 =>
    refine ⟨decide_eq_true ?_, rfl, rfl⟩
    by_contra hle
    interval_cases w.toNat <;> simp_all
  all_goals
    rename_i hw
    exact ⟨rfl, rfl, congrArg Code.word (BitVec.eq_of_toNat_eq hw.symm)⟩

/-- A byte spells the event it begins (R91). -/
theorem decodeStatus_spelled : ∀ b : Byte,
    WellFormed (decodeStatus b) ∧ (decodeStatus b).format = .smfEvent ∧ encode (decodeStatus b) = .bytes [b] := by
  decide

/-- A chunk tag spells its chunk (R86, R87). -/
theorem decodeChunkTag_spelled {tag : List Byte} {i : Instr} (h : decodeChunkTag tag = some i) :
    WellFormed i ∧ i.format = .chunk ∧ encode i = .bytes tag := by
  simp only [decodeChunkTag] at h
  split_ifs at h with hd ht <;> cases h
  · exact ⟨rfl, rfl, congrArg Code.bytes hd.symm⟩
  · exact ⟨rfl, rfl, congrArg Code.bytes ht.symm⟩

theorem dialectOfByte_eq_some {b : Byte} {d : Dialect} : dialectOfByte b = some d ↔ b = d.byte := by
  constructor
  · intro h
    simp only [dialectOfByte] at h
    split_ifs at h with h1 h2 <;> cases h <;> assumption
  · rintro rfl
    cases d <;> rfl

/-- The first four bytes of a Data Set frame's body spell it (R93, R173). -/
theorem decodeDataSet_spelled {bs : List Byte} {i : Instr} (h : decodeDataSet bs = some i) :
    WellFormed i ∧ i.format = .dt1 ∧ encode i = .bytes (bs.take 4) := by
  unfold decodeDataSet at h
  split at h
  case h_2 => cases h
  case h_1 m dev dialect command tail =>
    split_ifs at h with hmc
    obtain ⟨rfl, rfl⟩ := hmc
    split at h
    case h_3 => cases h
    all_goals
      rename_i hd
      obtain rfl := dialectOfByte_eq_some.mp hd
      cases h
      exact ⟨rfl, rfl, rfl⟩

/-- A whole emitted frame spells its instruction (R202). -/
theorem decodeEmitted_spelled {bs : List Byte} {i : Instr} (h : decodeEmitted bs = some i) :
    WellFormed i ∧ i.format = .dt1Emit ∧ encode i = .bytes bs := by
  unfold decodeEmitted at h
  split at h
  case h_2 => cases h
  case h_1 =>
    split at h
    case h_1 => cases h
    case h_2 =>
      dsimp only at h
      split_ifs at h with hok
      obtain ⟨hwf, hframe⟩ := hok
      cases h
      exact ⟨hwf, rfl, congrArg Code.bytes hframe⟩

/-- Settles O4: each format's decoder accepts only what spells its answer. -/
theorem decodeThenEncode : Obligations.DecodeThenEncode := by
  intro f c i rest h
  unfold decode at h
  split at h
  case h_1 w =>
    cases h
    obtain ⟨hwf, hfmt, henc⟩ := decodeCommand_spelled w
    exact ⟨hwf, hfmt, by simp [henc]⟩
  case h_3 b bs =>
    cases h
    obtain ⟨hwf, hfmt, henc⟩ := decodeStatus_spelled b
    exact ⟨hwf, hfmt, by simp [henc]⟩
  case h_4 bs =>
    split_ifs at h
    split at h <;> cases h
    obtain ⟨hwf, hfmt, henc⟩ := decodeChunkTag_spelled ‹_›
    exact ⟨hwf, hfmt, by simp [henc]⟩
  case h_5 bs =>
    split at h <;> cases h
    obtain ⟨hpos, hle, rfl⟩ := decodeVlq_ok ‹_›
    exact ⟨decide_eq_true ⟨hpos, hle⟩, rfl, rfl⟩
  case h_7 b bs =>
    split_ifs at h with hb
    cases h
    exact ⟨rfl, rfl, by simp [encode, hb]⟩
  case h_8 bs =>
    split_ifs at h
    split at h <;> cases h
    obtain ⟨hwf, hfmt, henc⟩ := decodeDataSet_spelled ‹_›
    exact ⟨hwf, hfmt, by simp [henc]⟩
  case h_9 bs =>
    split at h <;> cases h
    obtain ⟨hwf, hfmt, henc⟩ := decodeEmitted_spelled ‹_›
    exact ⟨hwf, hfmt, by simp [henc]⟩
  all_goals cases h

/-! ## Instructions that are encoded -/

/-- The event of a well-formed SMF row begins with the one byte that spells it (R91). -/
theorem decodeStatus_of_encode {i : Instr} (hi : WellFormed i) {b : Byte} (h : encode i = .bytes [b])
    (hf : i.format = .smfEvent) : decodeStatus b = i := by
  cases i <;> simp only [Instr.format, reduceCtorEq] at hf <;> cases h
  case smfRealtime low => revert low; decide
  case smfRunningData data => revert data; decide
  case smfUndefinedCommon low => revert low; decide
  case smfCh8 ch | smfCh9 ch | smfChA ch | smfChB ch | smfProgramChange ch | smfChannelPressure ch | smfChE ch =>
    revert ch; decide
  all_goals rfl

/-- The bytes of a well-formed stream row, the whole emitted frame apart, decode to it with whatever follows left over. -/
theorem decode_encode_append {i : Instr} (hi : WellFormed i) {bs : List Byte} (h : encode i = .bytes bs)
    (hf : i.format ≠ .dt1Emit) (rest : List Byte) : decode i.format (.bytes (bs ++ rest)) = .ok (i, rest) := by
  have event (hev : i.format = .smfEvent) {b : Byte} (hb : encode i = .bytes [b]) :
      decode i.format (.bytes (b :: rest)) = .ok (i, rest) := by
    rw [hev, decode, decodeStatus_of_encode hi hb hev]
  cases i <;> simp only [encode, reduceCtorEq, Code.bytes.injEq] at h <;> subst h
  case chunkMthd | chunkMtrk => simp [Instr.format, decode, decodeChunkTag, tagMthd, tagMtrk]
  case vlq gs =>
    obtain ⟨hpos, hle⟩ : 1 ≤ gs.length ∧ gs.length ≤ vlqMaxBytes := of_decide_eq_true hi
    simp only [Instr.format, decode, decodeVlq_vlqBytes vlqMaxBytes gs rest hpos hle]
  case rawSysex => rfl
  case dt1At3D dev | dt1At57 dev =>
    simp [Instr.format, decode, dataSetHeader, decodeDataSet, dialectOfByte, Dialect.byte]
  case dt1Emit => exact absurd rfl hf
  all_goals exact event rfl rfl

/-- Settles O3: command words and whole frames by their own decoders, every other row with nothing after its bytes. -/
theorem encodeThenDecode : Obligations.EncodeThenDecode := by
  intro i hi
  refine ⟨?_, fun bs rest h hf => decode_encode_append hi h hf rest⟩
  cases henc : encode i with
  | word w =>
    have hw := Machine.decodeCommand_of_encode hi henc
    rw [← hw, (decodeCommand_spelled w).2.1]
    rfl
  | bytes bs =>
    by_cases hf : i.format = .dt1Emit
    · cases i <;> simp only [Instr.format, reduceCtorEq] at hf
      cases henc
      simp only [Instr.format, decode, decodeEmitted_frameBytes _ _ _ _ hi]
    · simpa using decode_encode_append hi henc hf []

/-! ## Written words -/

/-- Settles O2: each word by running the decoder of its format. -/
theorem writtenWordsDecode : Obligations.WrittenWordsDecode := by
  unfold Obligations.WrittenWordsDecode
  decide

/-! ## Command words -/

theorem decodeCommand_reserved {w : Word} (h : 0x0A < w.toNat) : decodeCommand w = .reserved w :=
  Machine.decodeCommand_of_encode (i := .reserved w) (decide_eq_true h) rfl

/-- The Execute of a reserved word raises CommandError with the word (R242). -/
theorem exec_reserved (w : Word) {s : Machine.State} (hs : s.halt = false) :
    ∃ t, Machine.exec (.reserved w) s = .next t ∧ Machine.EndsFatal s t .command w :=
  ⟨_, Machine.runCommand_unhalted hs, Machine.endsFatal_takeFatal s ⟨.command, w⟩⟩

/-- Settles O1: the eleven numbers one by one; every other word by R242's Execute. -/
theorem commandWordsDecode : Obligations.CommandWordsDecode := by
  intro w
  refine ⟨fun hle => ?command, fun hlt => ⟨decodeCommand_reserved hlt, fun _ hs => exec_reserved w hs, ?step⟩⟩
  case command =>
    unfold decodeCommand
    interval_cases w.toNat <;> rfl
  case step =>
    intro s hs hb ha hw
    rw [Machine.step_busy hb ha, hw, decodeCommand_reserved hlt]
    exact exec_reserved w hs

/-! ## Addresses (R94) -/

theorem addressOf_acc (acc : Nat) (ds : List Byte) :
    addressOf acc ds = acc * 128 ^ ds.length + addressOf 0 ds := by
  induction ds generalizing acc with
  | nil => simp [addressOf]
  | cons b bs ih =>
    simp only [addressOf, List.length_cons]
    rw [ih (acc * 128 + b.toNat), ih (0 * 128 + b.toNat)]
    ring

theorem addressOf_cons (b : Byte) (bs : List Byte) :
    addressOf 0 (b :: bs) = b.toNat * 128 ^ bs.length + addressOf 0 bs := by
  rw [addressOf, addressOf_acc, Nat.zero_mul, Nat.zero_add]

/-- The address of digits is their sum weighted by the powers of 128. -/
theorem addressOf_eq_sum (ds : List Byte) :
    addressOf 0 ds = ∑ j ∈ Finset.range ds.length, (ds.getD j 0).toNat * 128 ^ (ds.length - 1 - j) := by
  induction ds with
  | nil => rfl
  | cons b bs ih =>
    rw [addressOf_cons, ih, List.length_cons, Finset.sum_range_succ', Nat.add_comm]
    congr 1
    refine Finset.sum_congr rfl fun j _ => ?_
    rw [List.getD_cons_succ, show bs.length + 1 - 1 - (j + 1) = bs.length - 1 - j by omega]

/-- Digit `j` of an address, counted from the most significant. -/
theorem addressDigits_getElem? {n j : Nat} (addr : Nat) (h : j < n) :
    (addressDigits n addr)[j]? = some (byteOf ((addr >>> (7 * (n - 1 - j))) &&& 0x7F)) := by
  induction n generalizing j with
  | zero => omega
  | succ n ih =>
    cases j with
    | zero => simp [addressDigits, ← Nat.and_two_pow_sub_one_eq_mod _ 7]
    | succ j =>
      rw [addressDigits, List.getElem?_cons_succ, ih (by omega), show n + 1 - 1 - (j + 1) = n - 1 - j by omega]

theorem addressOf_lt {ds : List Byte} (h : ∀ b ∈ ds, b.toNat < 0x80) : addressOf 0 ds < 128 ^ ds.length := by
  induction ds with
  | nil => simp [addressOf]
  | cons b bs ih =>
    obtain ⟨hb, hbs⟩ := List.forall_mem_cons.mp h
    rw [addressOf_cons, List.length_cons, pow_succ]
    have := ih hbs
    have : (b.toNat + 1) * 128 ^ bs.length ≤ 0x80 * 128 ^ bs.length := Nat.mul_le_mul_right _ hb
    linarith

/-- Digits below 0x80 are the digits of the address they spell. -/
theorem addressDigits_addressOf {ds : List Byte} (h : ∀ b ∈ ds, b.toNat < 0x80) :
    addressDigits ds.length (addressOf 0 ds) = ds := by
  induction ds with
  | nil => rfl
  | cons b bs ih =>
    obtain ⟨hb, hbs⟩ := List.forall_mem_cons.mp h
    have hlt := addressOf_lt hbs
    have hhead : addressOf 0 (b :: bs) / 128 ^ bs.length = b.toNat := by
      rw [addressOf_cons, Nat.mul_comm, Nat.mul_add_div (by positivity), Nat.div_eq_of_lt hlt, Nat.add_zero]
    have htail : addressOf 0 (b :: bs) % 128 ^ bs.length = addressOf 0 bs := by
      rw [addressOf_cons, Nat.mul_comm, Nat.mul_add_mod, Nat.mod_eq_of_lt hlt]
    rw [List.length_cons, addressDigits, Nat.shiftRight_eq_div_pow, two_pow_seven, hhead, Nat.mod_eq_of_lt hb,
      addressDigits_mod _ _ _ le_rfl, htail, ih hbs]
    simp

theorem Dialect.addressRange_eq (d : Dialect) : d.addressRange = 128 ^ d.digits := by cases d <;> rfl

/-- Settles O5: the sum by induction on the digits, the digits by induction on their number. -/
theorem addressDigits_laws : Obligations.AddressDigits := by
  refine ⟨addressOf_eq_sum, fun n addr => ⟨Machine.addressDigits_length n addr, fun j => addressDigits_getElem? addr⟩,
    fun n addr h => ?roundTrip, fun d ds hlen hds => ?range⟩
  case roundTrip => simpa using addressOf_addressDigits n addr 0 h
  case range =>
    rw [d.addressRange_eq, ← hlen]
    exact ⟨addressOf_lt hds, addressDigits_addressOf hds⟩

end Sys2Proof
end

section
/-! A command statement of a host script: its encoding, and the run that carries it out (R96, R97, R21). -/

namespace Sys2Proof.Machine

/-! ## Which statements have an encoding -/

theorem operandSlot_isSome {i : Instr} {n : OperandName} {k : Nat} (h : (i, n, k) ∈ operandNames) :
    (operandSlot i n).isSome = true := by
  have table : ∀ e ∈ operandNames, (operandSlot e.1 e.2.1).isSome = true := by decide
  exact table _ h

theorem encode_of_format_cmdw {i : Instr} (h : i.format = .cmdw) : ∃ w, encode i = .word w := by
  cases i <;> simp only [Instr.format, reduceCtorEq] at h <;> exact ⟨_, rfl⟩

/-- A command whose operands all have a meaning has an encoding. -/
theorem encodeStatement_isSome {i : Instr} {operands : List (OperandName × OperandValue)} (hf : i.format = .cmdw)
    (h : ∀ p ∈ operands, ∃ k v, Means i p k v) : (encodeStatement i operands).isSome = true := by
  obtain ⟨w, hw⟩ := encode_of_format_cmdw hf
  have hsome : (operandWrites i operands).isSome = true := (operandWrites_isSome i operands).mpr fun p hp => by
    obtain ⟨k, v, hname, hvalue⟩ := h p hp
    exact ⟨operandSlot_isSome hname, by rw [OperandName.value_eq.mpr hvalue]; rfl⟩
  obtain ⟨us, hus⟩ := Option.isSome_iff_exists.mp hsome
  simp [encodeStatement, hw, hus]

/-! ## What an encoding is -/

theorem operandWrites_length {i : Instr} {operands : List (OperandName × OperandValue)} {us : List Turn}
    (h : operandWrites i operands = some us) : us.length = operands.length := by
  induction operands generalizing us with
  | nil => cases h; rfl
  | cons p ps ih =>
    obtain ⟨k, v, us', -, -, hu, rfl⟩ := operandWrites_cons h
    rw [List.length_cons, List.length_cons, ih hu]

/-- The write of an operand stands at the operand's place, with the register and the value R96 gives it. -/
theorem operandWrites_getElem? {i : Instr} {operands : List (OperandName × OperandValue)} {us : List Turn}
    (h : operandWrites i operands = some us) {j : Nat} {p : OperandName × OperandValue} (hj : operands[j]? = some p) :
    ∃ k v, Means i p k v ∧ us[j]? = some (Turn.host (.regWrite (0x18 + 4 * k) 4 v)) := by
  induction operands generalizing us j with
  | nil => cases hj
  | cons q qs ih =>
    obtain ⟨k, v, us', hk, hv, hu, rfl⟩ := operandWrites_cons h
    cases j with
    | zero =>
      cases hj
      obtain ⟨m, hname, hoff⟩ := operandSlot_eq hk
      exact ⟨m, v, ⟨hname, OperandName.value_eq.mp hv⟩, by rw [List.getElem?_cons_zero, writeReg, hoff]⟩
    | succ j => exact ih hu hj

/-! ## The run -/

/-- What the host keeps for itself, and the registers it writes, bear on nothing else of the block. -/
theorem SameBlock.ofHostSide (s : State) (cw : Word) (busy ovr : Bool) (arg lat : Operands) (draws : Nat)
    (agenda : List Turn) (hostPc : Nat) (polls : List Nat) (busData : Word) :
    SameBlock s { s with
      cw := cw, busy := busy, ovr := ovr, arg := arg, lat := lat, draws := draws, agenda := agenda, hostPc := hostPc,
      polls := polls, busData := busData } :=
  ⟨⟨rfl, rfl⟩, ⟨rfl, rfl⟩, ⟨rfl, rfl, rfl, rfl, rfl, rfl⟩, ⟨rfl, rfl⟩, ⟨rfl, rfl⟩, ⟨rfl, rfl⟩,
    fun sp _ => by cases sp <;> rfl⟩

/-- Every Execute of a command ends it and leaves the host's side as it was (R21, R275). -/
theorem exec_command_ends {i : Instr} (hi : IsCommand i) (s : State) :
    ∃ t, exec i s = .next t ∧ t.busy = false ∧ SameHostSide s t := by
  obtain ⟨v, hv, hexec⟩ := exec_command hi s
  refine ⟨_, hexec, ?_⟩
  split_ifs
  · obtain ⟨-, hbusy, hside, -⟩ := refuse_same s
    exact ⟨hbusy, hside⟩
  · cases v with
    | done t => exact ⟨rfl, (commandVerdict_frame hv).hostSide⟩
    | raise e =>
      obtain ⟨-, -, -, -, hbusy, -, hside, -⟩ := endsFatal_takeFatal s e
      exact ⟨hbusy, hside⟩

/-- The state after a statement of encoding `ts` is taken: its writes and its polling are pending (R97). -/
def State.afterStatement (s : State) (ts : List Turn) : State :=
  { s with hostPc := s.hostPc + 1, agenda := ts ++ pollTurns (s.polls.headD 0), polls := s.polls.tail }

/-- The state a statement's register writes leave: the command of word `w` pending with its operands latched, `rest`
still to come. -/
def State.afterIssue (s : State) (i : Instr) (operands : List (OperandName × OperandValue)) (w : Word)
    (rest : List Turn) : State :=
  { s with
    agenda := rest, arg := written i operands s.arg, lat := written i operands s.arg, cw := w, busy := true }

/-- The host carries out the register writes of a command statement (R97, R21). -/
theorem steps_statement {i : Instr} {operands : List (OperandName × OperandValue)} {us rest : List Turn} {w : Word}
    {s : State} (hus : operandWrites i operands = some us) (hb : s.busy = false)
    (ha : s.agenda = us ++ [writeReg .cmd w] ++ rest) :
    Steps (us ++ [writeReg .cmd w]).length s (s.afterIssue i operands w rest) := by
  rw [List.length_append]
  refine (steps_operands hus (ha.trans (List.append_assoc _ _ _))).trans (Steps.one ?_)
  exact step_writeCmd rfl hb

/-- The state after `n` reads of STATUS, `rest` still to come. -/
def State.afterReads (s : State) (n : Nat) (rest : List Turn) : State :=
  { s with agenda := rest, busData := if n = 0 then s.busData else s.statusWord, draws := s.draws + n }

/-- The polls of a pending command, one by one: each reads STATUS as it stands. -/
theorem steps_poll {s : State} {n k : Nat} {rest : List Turn} (ha : s.agenda = List.replicate n readStatus ++ rest)
    (hk : k < n) : ∃ r, Steps (k + 1) s r ∧ r.busData = s.statusWord := by
  have hsplit : s.agenda = List.replicate (k + 1) readStatus ++ (List.replicate (n - (k + 1)) readStatus ++ rest) := by
    rw [ha, ← List.append_assoc, List.replicate_append_replicate, show k + 1 + (n - (k + 1)) = n by omega]
  exact ⟨_, steps_reads (k + 1) hsplit, by simp⟩

/-- CORE's Execute of a pending command, and the read of STATUS after it (R21, R97). -/
theorem steps_executeAndRead {s : State} (ha : s.agenda = [.core, readStatus]) (hb : s.busy = true) :
    ∃ x y, step s = .next x ∧ exec s.fetch { s with agenda := x.agenda } = .next x ∧ step x = .next y
      ∧ y.busData = x.statusWord ∧ y.busData.getLsbD 0 = false ∧ y.busy = false ∧ y.last = x.last ∧ y.agenda = []
      ∧ y.hostPc = s.hostPc ∧ SameErrors x y ∧ SameBlock x y := by
  obtain ⟨x, hexec, hbusy, hside⟩ :=
    exec_command_ends (decodeCommand_isCommand s.cw) { s with agenda := [readStatus] }
  obtain ⟨-, -, -, -, hagenda, -, hpc, -, -⟩ := hside
  refine ⟨x, _, (step_core ha hb).trans hexec, ?_, step_readStatus hagenda, rfl, ?_, hbusy, rfl, rfl, hpc,
    ⟨rfl, rfl, rfl, rfl⟩, .ofHostSide x _ _ _ _ _ _ _ _ _ _⟩
  · rw [hagenda]; exact hexec
  · exact x.statusWord_busy.trans hbusy

/-- Settles O56: the encoding operand by operand; the run as the statement taken, its writes, the polls, the Execute
and the last read. -/
theorem scriptCommand : Obligations.ScriptCommand := by
  intro i operands hi
  refine ⟨encodeStatement_isSome, fun ts hts => ?_⟩
  obtain ⟨w, us, hw, hus, rfl⟩ := encodeStatement_eq hts
  have hlen := operandWrites_length hus
  refine ⟨by simp [hlen], fun j p hj => ?operand, ⟨w, hw, by simp [← hlen, writeReg, Reg.offset]⟩,
    fun s label hb ha hline => ?run⟩
  case operand =>
    obtain ⟨k, v, hmeans, hwrite⟩ := operandWrites_getElem? hus hj
    have hlt : j < us.length := (List.getElem?_eq_some_iff.mp hwrite).1
    exact ⟨k, v, hmeans, by rw [List.getElem?_append_left hlt, hwrite]⟩
  case run =>
    let n := s.polls.headD 0
    let t := s.afterStatement (us ++ [writeReg .cmd w])
    let u := t.afterIssue i operands w (pollTurns n)
    let v := u.afterReads n [.core, readStatus]
    have hdecode : decodeCommand w = i := decodeCommand_of_encode hi hw
    obtain ⟨x, y, hstep, hexec, hread, hdata, hbit, hidle, hlast, hagenda, hpc, herrors, hblock⟩ :=
      steps_executeAndRead (s := v) rfl rfl
    refine ⟨t, u, v, x, y, step_command hb ha hline hts, rfl, steps_statement hus hb rfl, rfl, hdecode, rfl, rfl, rfl,
      rfl, ⟨rfl, rfl, rfl, rfl⟩, .ofHostSide s _ _ _ _ _ _ _ _ _ _, fun k hk => ?_, steps_reads n rfl, rfl, rfl, rfl,
      ⟨rfl, rfl, rfl, rfl⟩, .ofHostSide u _ _ _ _ _ _ _ _ _ _, hstep, ?_, hread, hdata, hbit, hidle, hlast, hagenda,
      hpc, herrors, hblock⟩
    · obtain ⟨r, hr, hstatus⟩ := steps_poll (s := u) rfl hk
      exact ⟨r, hr, hstatus, by rw [hstatus, u.statusWord_busy]; rfl⟩
    · rwa [show v.fetch = i from hdecode] at hexec

end Sys2Proof.Machine
end

section
/-! The reads of the stream, to the byte: Skip as repeated Next, ReadVLQ in its three outcomes (R126 to R129). -/

namespace Sys2Proof.Machine

/-! ## Skip (R129) -/

/-- Settles O8: Next() at the end of IN stops both; before it, one byte fewer is left for both. -/
theorem skipIsRepeatedNext : Obligations.SkipIsRepeatedNext := by
  intro s n
  induction n generalizing s with
  | zero => simp [State.skip, State.nextTimes]
  | succ n ih =>
    rcases s.next1_cases with ⟨hl, hnext⟩ | ⟨hl, hnext⟩ <;> simp only [State.nextTimes, hnext]
    · rw [← ih]
      have hleft := State.consume_left hl
      rcases (s.consume 1).skip_cases n with ⟨hn, hskip⟩ | ⟨hn, hskip⟩ <;> rw [hskip, State.consume_consume, State.skip]
      · rw [if_pos (by omega), Nat.add_comm]
      · rw [if_neg (by omega), hleft, Nat.add_sub_cancel' hl]
    · simp [State.skip, hl]

/-! ## ReadVLQ (R126) -/

/-- The bytes after the one Next() consumed. -/
theorem State.readBytes_consume {s : State} (hl : 1 ≤ s.left) (site : ReadSite) (n : Nat) :
    (s.consume 1).readBytes site .input (s.consume 1).iptr.toNat n
      = s.readBytes site .input (s.iptr.toNat + 1) n := by
  rw [State.consume_iptr_toNat hl]
  exact State.readBytes_congr site (fun a => s.consume_cell 1 .input a) rfl _ n

/-- A last byte ends the quantity. -/
theorem State.readVlqFrom_low {s : State} {b : Byte} (hl : 1 ≤ s.left)
    (hb : s.readByte .next .input s.iptr.toNat = b) (hlow : b.toNat < 0x80) (k v : Nat) :
    State.readVlqFrom (k + 1) v s = .ok (v * 128 + b.toNat % 128) (s.consume 1) := by
  rcases s.next1_cases with ⟨-, hnext⟩ | ⟨h0, -⟩
  · simp only [State.readVlqFrom, hnext, hb, hlow, if_true]
  · omega

/-- Any other byte hands its group on. -/
theorem State.readVlqFrom_high {s : State} {b : Byte} (hl : 1 ≤ s.left)
    (hb : s.readByte .next .input s.iptr.toNat = b) (hhigh : 0x80 ≤ b.toNat) (k v : Nat) :
    State.readVlqFrom (k + 1) v s = State.readVlqFrom k (v * 128 + b.toNat % 128) (s.consume 1) := by
  rcases s.next1_cases with ⟨-, hnext⟩ | ⟨h0, -⟩
  · simp only [State.readVlqFrom, hnext, hb, if_neg (Nat.not_lt.mpr hhigh)]
  · omega

theorem low_byte_group (g : BitVec 7) : (0#1 ++ g : BitVec 8).toNat % 128 = g.toNat := by
  revert g; decide

theorem high_byte_group (g : BitVec 7) : (1#1 ++ g : BitVec 8).toNat % 128 = g.toNat := by
  revert g; decide

/-- The bytes of groups at the cursor are read to the last one, whatever value came before (R89). -/
theorem State.readVlqFrom_vlqBytes {k : Nat} {groups : List (BitVec 7)} (h1 : 1 ≤ groups.length)
    (hk : groups.length ≤ k) (v : Nat) {s : State} (hl : groups.length ≤ s.left)
    (hb : s.readBytes .next .input s.iptr.toNat groups.length = vlqBytes groups) :
    State.readVlqFrom k v s = .ok (vlqValue v groups) (s.consume groups.length) := by
  induction groups generalizing k v s with
  | nil => simp at h1
  | cons g gs ih =>
    obtain ⟨k, rfl⟩ : ∃ j, k = j + 1 := ⟨k - 1, by simp at hk; omega⟩
    simp only [List.length_cons] at hk hl hb ⊢
    have hl1 : 1 ≤ s.left := by omega
    cases gs with
    | nil =>
      obtain ⟨hbyte, -⟩ := List.cons.inj hb
      rw [State.readVlqFrom_low hl1 hbyte (low_byte g).1, low_byte_group]
      rfl
    | cons g' gs =>
      obtain ⟨hbyte, hrest⟩ := List.cons.inj hb
      rw [State.readVlqFrom_high hl1 hbyte (Nat.not_lt.mp (high_byte g).1), high_byte_group,
        ih (by simp) (by omega) _ (by rw [State.consume_left hl1]; omega)
          (by rw [State.readBytes_consume hl1]; exact hrest),
        State.consume_consume, Nat.add_comm 1]
      rfl

theorem vlqValue_lt (v : Nat) (groups : List (BitVec 7)) :
    vlqValue v groups < (v + 1) * 2 ^ (7 * groups.length) := by
  induction groups generalizing v with
  | nil => simp [vlqValue]
  | cons g gs ih =>
    calc vlqValue (v * 128 + g.toNat) gs
      _ < (v * 128 + g.toNat + 1) * 2 ^ (7 * gs.length) := ih _
      _ ≤ ((v + 1) * 128) * 2 ^ (7 * gs.length) := Nat.mul_le_mul_right _ (by have := g.isLt; omega)
      _ = (v + 1) * 2 ^ (7 * (g :: gs).length) := by rw [List.length_cons, Nat.mul_add, Nat.pow_add]; ring

/-- With no last byte among the bytes allowed, ReadVLQ stops after them, or at the end of IN. -/
theorem State.readVlqFrom_of_high {k : Nat} (v : Nat) {s : State}
    (hb : ∀ b ∈ s.readBytes .next .input s.iptr.toNat (min k s.left), 0x80 ≤ b.toNat) :
    State.readVlqFrom k v s = if k ≤ s.left then .malformed (s.consume k) else .trunc (s.consume s.left) := by
  induction k generalizing v s with
  | zero => simp [State.readVlqFrom]
  | succ k ih =>
    rcases s.next1_cases with ⟨hl, -⟩ | ⟨hl, hnext⟩
    · have hleft := State.consume_left hl
      have hmin : min (k + 1) s.left = min k (s.consume 1).left + 1 := by omega
      rw [hmin, State.readBytes, ← State.readBytes_consume hl] at hb
      obtain ⟨hfirst, hrest⟩ := List.forall_mem_cons.mp hb
      rw [State.readVlqFrom_high hl rfl hfirst, ih _ hrest, State.consume_consume, State.consume_consume, hleft,
        Nat.add_comm 1 k, Nat.add_sub_cancel' hl]
      exact if_congr (by omega) rfl rfl
    · simp [State.readVlqFrom, hnext, hl]

/-- Settles O7: the groups of a well-formed VLQ are read to the last; with no last byte among the four, the two signals
are told apart by the bytes left. -/
theorem vlqReads : Obligations.VlqReads := by
  intro s
  refine ⟨fun groups hwf hl hb => ?value, fun hl hb => ?malformed, fun hl hb => ?trunc⟩
  case value =>
    obtain ⟨h1, h4⟩ : 1 ≤ groups.length ∧ groups.length ≤ 4 := of_decide_eq_true hwf
    refine ⟨State.readVlqFrom_vlqBytes h1 h4 0 hl hb, ?_⟩
    calc vlqValue 0 groups
      _ < (0 + 1) * 2 ^ (7 * groups.length) := vlqValue_lt 0 groups
      _ ≤ (0 + 1) * 2 ^ 28 := Nat.mul_le_mul_left _ (Nat.pow_le_pow_right (by decide) (by omega))
  case malformed =>
    have h := State.readVlqFrom_of_high (k := 4) 0 (s := s) (by rwa [Nat.min_eq_left hl])
    rwa [if_pos hl] at h
  case trunc =>
    have h := State.readVlqFrom_of_high (k := 4) 0 (s := s) (by rwa [Nat.min_eq_right (by omega)])
    rwa [if_neg (by omega)] at h

end Sys2Proof.Machine
end

section
/-! The elements of a stream that deliver no message: VLQs, channel, system and META events, chunk headers (R124 to
R135, R139 to R146, R149 to R154). -/

namespace Sys2Proof.Machine

/-! ## Ends of an element -/

section
variable {body : State → Flow} {s : State} (hs : s.halt = false)
include hs

theorem runElement_go {t : State} (hbody : body s = .go t) : runElement body s = .next t := by
  rw [runElement_unhalted hs, hbody]
  rfl

theorem runElement_done {t : State} (hbody : body s = .done t) : runElement body s = .next t.complete := by
  rw [runElement_unhalted hs, hbody]
  rfl

theorem runElement_raise {e : Fatal} (hbody : body s = .raise e) :
    ∃ t, runElement body s = .next t ∧ EndsFatal s t e.code e.info :=
  ⟨_, by rw [runElement_unhalted hs, hbody]; rfl, endsFatal_takeFatal s e⟩

/-- An element that goes on after `k` bytes has passed. -/
theorem runElement_passes {k : Nat} {rs : Byte} (hk : k ≤ s.left)
    (hbody : body s = .go { s.consume k with rs := rs }) : ∃ t, runElement body s = .next t ∧ Passed s t k rs :=
  ⟨_, runElement_go hs hbody, passed_consume hk rs⟩

/-- An element that ends the input after `k` bytes has signalled. -/
theorem runElement_signals {k : Nat} {rs : Byte} {w : Warning} (hk : k ≤ s.left)
    (hbody : body s = .done (({ s.consume k with rs := rs } : State).warnOn w).ended.noMessage) :
    ∃ t, runElement body s = .next t ∧ Signalled s t w k rs :=
  ⟨_, runElement_done hs hbody, signalled_consume hk rs w⟩

/-- An element that has read `k` bytes and then skips `n`: it passes where IN holds them, and is cut off where not. -/
theorem runElement_skips {k n : Nat} {rs : Byte} (hk : k ≤ s.left)
    (hbody : body s = (({ s.consume k with rs := rs } : State).skip n).orEnd fun _ t => .go t) :
    (k + n ≤ s.left → ∃ t, runElement body s = .next t ∧ Passed s t (k + n) rs)
    ∧ (s.left < k + n → ∃ t, runElement body s = .next t ∧ Signalled s t .trunc s.left rs) := by
  have hleft : ({ s.consume k with rs := rs } : State).left = s.left - k := State.consume_left hk
  rcases State.skip_cases { s.consume k with rs := rs } n with ⟨hn, hskip⟩ | ⟨hn, hskip⟩
  · refine ⟨fun hfits => runElement_passes hs hfits ?_, fun _ => by omega⟩
    rw [hbody, hskip, ← State.consume_consume]
    rfl
  · refine ⟨fun _ => by omega, fun _ => runElement_signals hs le_rfl ?_⟩
    have hall : s.consume s.left = (s.consume k).consume (s.left - k) := by
      rw [State.consume_consume, Nat.add_sub_cancel' hk]
    rw [hbody, hskip, hleft, hall]
    rfl

end

/-! ## VLQs in delta position (R126, R139) -/

/-- Settles O32: what is skipped is the quantity, or its first four bytes, whose end is then MALFORMED. -/
theorem vlqElement : Obligations.VlqElement := by
  intro groups s hs
  have short (hlen : groups.length ≤ 4) :=
    runElement_skips (body := vlqBody groups) (k := 0) (n := groups.length) (rs := s.rs) hs (Nat.zero_le _)
      (by rw [State.consume_zero]; exact if_pos hlen)
  have long (hlen : 4 < groups.length) :
      vlqBody groups s = (s.skip 4).orEnd fun _ t => .done (t.warnOn .malformed).ended.noMessage :=
    if_neg (Nat.not_le.mpr hlen)
  simp only [Nat.zero_add] at short
  refine ⟨fun hlen => (short hlen).1, fun hlen hl => ?malformed, fun hl _ => ?trunc⟩
  case malformed => exact runElement_signals hs hl (by rw [long hlen, State.skip, if_pos hl]; rfl)
  case trunc =>
    by_cases hlen : groups.length ≤ 4
    · exact (short hlen).2 (by omega)
    · exact runElement_signals hs le_rfl (by rw [long (by omega), State.skip, if_neg (by omega)]; rfl)

/-! ## Channel and system events (R133 to R135, R140 to R146, R149 to R154) -/

theorem exec_channel {i : Instr} {m : Nat} {b : Byte} (hm : channelData i = some m) (hb : encode i = .bytes [b])
    (s : State) : exec i s = runElement (skipEvent b m) s := by
  cases i <;> simp only [channelData, Option.some.injEq, reduceCtorEq] at hm <;> cases hm <;> cases hb <;> rfl

theorem exec_system {i : Instr} {m : Nat} {b : Byte} (hm : systemData i = some m) (hb : encode i = .bytes [b])
    (s : State) : exec i s = runElement (skipEvent b m) s := by
  cases i <;> simp only [systemData, Option.some.injEq, reduceCtorEq] at hm <;> cases hm <;> cases hb <;> rfl

/-- Under running status the byte in status position is the first of the data bytes. -/
theorem runningFurther_channel {i : Instr} {m : Nat} {b : Byte} (hm : channelData i = some m)
    (hb : encode i = .bytes [b]) : ∃ n, m = 1 + n ∧ runningFurther b = some n := by
  cases i <;> simp only [channelData, Option.some.injEq, reduceCtorEq] at hm <;> cases hm <;> cases hb
  case smfProgramChange ch | smfChannelPressure ch => exact ⟨0, rfl, by revert ch; decide⟩
  all_goals rename_i ch; exact ⟨1, rfl, by revert ch; decide⟩

theorem runningFurther_eq_none : ∀ rs : Byte, rs.toNat < 0x80 ∨ 0xF0 ≤ rs.toNat → runningFurther rs = none := by
  decide

theorem left_pos {s : State} (h : s.iptr.toNat < s.inLen.toNat) : 1 ≤ s.left := Nat.sub_pos_of_lt h

/-- A status byte and its data bytes. -/
theorem skipEvent_skips {s : State} (hs : s.halt = false) (hl : 1 ≤ s.left) (b : Byte) (m : Nat) :
    (1 + m ≤ s.left → ∃ t, runElement (skipEvent b m) s = .next t ∧ Passed s t (1 + m) b)
    ∧ (s.left < 1 + m → ∃ t, runElement (skipEvent b m) s = .next t ∧ Signalled s t .trunc s.left b) :=
  runElement_skips hs hl rfl

/-- Settles O25: a status byte skips its data bytes; running status skips one fewer after the byte in its place. -/
theorem channelEvents : Obligations.ChannelEvents := by
  intro i m b data s hm hb hs hin
  obtain ⟨n, rfl, hfurther⟩ := runningFurther_channel hm hb
  have fresh := skipEvent_skips hs (left_pos hin) b (1 + n)
  have running (hrs : s.rs = b) :=
    runElement_skips (body := smfRunningDataBody data) (k := 1) (n := n) (rs := b) hs (left_pos hin)
      (by rw [← hrs] at hfurther ⊢; simp only [smfRunningDataBody, hfurther]; rfl)
  rw [exec_channel hm hb]
  exact ⟨fresh.1, fresh.2, fun hrs => (running hrs).1, fun hrs => (running hrs).2⟩

/-- Settles O26: each row is its status byte with the data bytes of its table. -/
theorem systemEvents : Obligations.SystemEvents := by
  intro i m b s _ hm hb hs hin
  rw [exec_system hm hb]
  exact skipEvent_skips hs (left_pos hin) b m

/-- Settles O27: such an RS gives no class. -/
theorem runningStatusUnusable : Obligations.RunningStatusUnusable := by
  intro data s hs hin hrs
  refine runElement_signals hs (left_pos hin) ?_
  simp only [smfRunningDataBody, runningFurther_eq_none s.rs hrs]
  rfl

/-! ## META events (R132) -/

/-- With the type byte in IN, a META event goes on from the bytes of its length. -/
theorem smfMetaBody_eq {s : State} (hl : 2 ≤ s.left) :
    smfMetaBody s = (s.consume 2).readVlq.orEnd fun n u => (u.skip n).orEnd fun _ v => .go v := by
  rcases (s.consume 1).next1_cases with ⟨-, hnext⟩ | ⟨h0, -⟩
  · simp only [smfMetaBody, hnext, State.consume_consume]
    rfl
  · rw [State.consume_left (by omega)] at h0
    omega

/-- Settles O28: the type byte, then the three outcomes of ReadVLQ, the first of which leaves bytes to skip. -/
theorem metaEvent : Obligations.MetaEvent := by
  intro s hs hin
  have hl := left_pos hin
  refine ⟨fun hshort => ?noType, fun h2 => ?type⟩
  case noType =>
    refine runElement_signals hs le_rfl ?_
    rcases (s.consume 1).next1_cases with ⟨h1, -⟩ | ⟨-, hnext⟩
    · rw [State.consume_left hl] at h1
      omega
    · rw [show s.left = 1 by omega]
      simp only [smfMetaBody, hnext]
      rfl
  case type =>
    have hleft := State.consume_left h2
    have hbody := smfMetaBody_eq h2
    rcases (s.consume 2).readVlq_exact with ⟨n, m, -, -, hm, hv⟩ | hv | ⟨h4, hv⟩ <;>
      simp only [hv, State.consume_consume, Sig.ok.injEq, Sig.trunc.injEq, Sig.malformed.injEq, reduceCtorEq,
        false_imp_iff, implies_true, true_and, and_true, forall_eq'] at hbody ⊢
    · rintro n' u ⟨rfl, rfl⟩
      have hk : 2 + m ≤ s.left := by omega
      obtain ⟨passes, cut⟩ := runElement_skips (body := smfMetaBody) (n := n) (rs := s.rs) hs hk hbody
      rw [State.consume_left hk, State.consume_iptr_toNat hk, Nat.add_sub_cancel_left]
      exact ⟨fun hn => passes (by omega), fun hn => cut (by omega)⟩
    · refine runElement_signals hs le_rfl ?_
      rw [hbody, hleft, Nat.add_sub_cancel' h2]
      rfl
    · exact runElement_signals hs (by omega) hbody

/-! ## Chunk headers (R124, R131) -/

theorem badHeader_signals {body : State → Flow} {s : State} (hs : s.halt = false) (hbody : body s = badHeader s) :
    ∃ t, runElement body s = .next t ∧ Signalled s t .trkHdr 0 s.rs :=
  runElement_signals hs (Nat.zero_le _) (by rw [hbody, State.consume_zero]; rfl)

theorem chunkMthdBody_bad {s : State}
    (h : s.inLen.toNat < 8 ∨ s.inLen.toNat - 8 < be32 (s.readBytes .header .input 4 4)) :
    chunkMthdBody s = badHeader s := by
  simp only [chunkMthdBody]
  split_ifs <;> first | rfl | omega

theorem chunkMthdBody_fits {s : State} (h8 : 8 ≤ s.inLen.toNat)
    (hlen : be32 (s.readBytes .header .input 4 4) ≤ s.inLen.toNat - 8) :
    chunkMthdBody s = .go { s with iptr := wordOf (8 + be32 (s.readBytes .header .input 4 4)) } := by
  simp only [chunkMthdBody, if_neg (Nat.not_lt.mpr h8), if_neg (Nat.not_lt.mpr hlen)]

theorem chunkMtrkBody_fits {s : State} (h8 : 8 ≤ s.left) : chunkMtrkBody s = .go { s with
    trkRem := wordOf (be32 (s.readBytes .trackLen .input (s.iptr.toNat + 4) 4))
    iptr := wordOf (s.iptr.toNat + 8), trkOpen := true, rs := 0 } := if_neg (Nat.not_lt.mpr h8)

theorem be32_lt (bs : List Byte) : be32 bs < 2 ^ 32 := by
  unfold be32
  split
  · rename_i b0 b1 b2 b3 _
    have := b0.isLt
    have := b1.isLt
    have := b2.isLt
    have := b3.isLt
    omega
  · decide

/-- The registers a chunk header may write bear on nothing else. -/
theorem chunkHeader_frame (s : State) (iptr trkRem : Word) (trkOpen : Bool) (rs : Byte) :
    let t : State := { s with iptr := iptr, trkRem := trkRem, trkOpen := trkOpen, rs := rs }
    t.busy = s.busy ∧ t.last = s.last ∧ SameHostSide s t ∧ SameErrors s t ∧ SameWarnings s t ∧ SameResults s t
      ∧ SameMessage s t ∧ SameImage s t ∧ SameSinks s t ∧ SameSpaces s t :=
  ⟨rfl, rfl, ⟨rfl, rfl, rfl, rfl, rfl, rfl, rfl, rfl, rfl⟩, ⟨rfl, rfl, rfl, rfl⟩, ⟨rfl, rfl⟩, ⟨rfl, rfl⟩, ⟨rfl, rfl⟩,
    ⟨rfl, rfl⟩, ⟨rfl, rfl⟩, fun sp _ => by cases sp <;> rfl⟩

/-- Settles O30: a chunk that fits is skipped by writing the cursor; any other is a bad header. -/
theorem headerChunk : Obligations.HeaderChunk := by
  intro s hs
  refine ⟨fun h8 hlen => ?fits, fun hbad => badHeader_signals hs (chunkMthdBody_bad hbad)⟩
  have hlt := s.inLen.isLt
  exact ⟨_, runElement_go hs (chunkMthdBody_fits h8 hlen), wordOf_of_lt (by omega), rfl, rfl, rfl, rfl, rfl,
    chunkHeader_frame s _ s.trkRem s.trkOpen s.rs⟩

/-- Settles O31: eight bytes at the cursor are the header, its length as read; fewer are a bad header. -/
theorem trackChunk : Obligations.TrackChunk := by
  intro s hs
  refine ⟨fun h8 => ?opens, fun _ hshort => badHeader_signals hs (if_pos hshort)⟩
  exact ⟨_, runElement_go hs (chunkMtrkBody_fits h8), iptr_add_toNat h8, wordOf_of_lt (be32_lt _), rfl, rfl, rfl, rfl,
    chunkHeader_frame s _ _ true 0⟩

end Sys2Proof.Machine
end

section
/-! SysEx events: the payload's length read, the payload copied to MSG and delivered (R125, R138, R147, R148). -/

namespace Sys2Proof.Machine

/-! ## What the payload's rule answers -/

theorem sysexPayload_tooLong {n : Nat} {s : State} (h : s.cfg.msgBytes < n) :
    sysexPayload n s = .raise (capacityError 1) := if_pos h

theorem sysexPayload_cut {n : Nat} {s : State} (hn : n ≤ s.cfg.msgBytes) (hl : s.left < n) :
    sysexPayload n s = .done ((((s.copyPayload s.left).warnOn .trunc).ended.warnOn .unterm).deliver) := by
  simp only [sysexPayload, if_neg (Nat.not_lt.mpr hn), if_pos hl]

theorem sysexPayload_whole {n : Nat} {s : State} (hn : n ≤ s.cfg.msgBytes) (hl : n ≤ s.left) :
    sysexPayload n s = if (s.readBytes .next .input s.iptr.toNat n).getLast? = some endMarker
      then .done (s.copyPayload n).deliver else .done ((s.copyPayload n).warnOn .unterm).deliver := by
  simp only [sysexPayload, if_neg (Nat.not_lt.mpr hn), if_neg (Nat.not_lt.mpr hl)]

/-- The last of the bytes read. -/
theorem State.readBytes_getLast? (s : State) (site : ReadSite) (sp : Space) (a n : Nat) :
    (s.readBytes site sp a n).getLast? = if n = 0 then none else some (s.readByte site sp (a + (n - 1))) := by
  rw [List.getLast?_eq_getElem?, State.readBytes_length]
  split_ifs with h
  · subst h; rfl
  · exact State.readBytes_getElem? s site sp a n (n - 1) (by omega)

/-! ## A payload delivered -/

section
variable (s : State) (n : Nat)

@[simp] theorem State.copyPayload_iptr : (s.copyPayload n).iptr = (s.consume n).iptr := rfl
@[simp] theorem State.copyPayload_trkRem : (s.copyPayload n).trkRem = (s.consume n).trkRem := rfl
@[simp] theorem State.copyPayload_trkOpen : (s.copyPayload n).trkOpen = s.trkOpen := rfl
@[simp] theorem State.copyPayload_rs : (s.copyPayload n).rs = s.rs := rfl
@[simp] theorem State.copyPayload_dmode : (s.copyPayload n).dmode = s.dmode := rfl
@[simp] theorem State.copyPayload_warn : (s.copyPayload n).warn = s.warn := rfl
@[simp] theorem State.copyPayload_wcnt : (s.copyPayload n).wcnt = s.wcnt := rfl

end

/-- A payload copied to MSG is delivered. -/
theorem delivered_copyPayload {s : State} (hw : Memory.wf (unlisted s.cfg .msg) (s.mem .msg) = true) {n : Nat}
    (hn : n ≤ s.left) : Delivered s (s.copyPayload n).deliver.complete .next s.iptr.toNat n := by
  have hlt : n < 2 ^ 32 := lt_of_le_of_lt (hn.trans (Nat.sub_le _ _)) s.inLen.isLt
  rw [State.copyPayload]
  generalize hwrite : s.writeBytes .msg 0 (s.readBytes .next .input s.iptr.toNat n) = w
  have h := delivered_update (s := s) hw .next s.iptr.isLt hlt (w.consume n).iptr (w.consume n).trkRem w.warn w.wcnt
    w.rs w.dmode w.trkOpen (w.draws + 1)
  rw [wordOf_toNat, hwrite] at h
  exact h

/-- What is delivered depends neither on the warnings nor on the mode. -/
theorem Delivered.warnOn {s t : State} {site : ReadSite} {pos n : Nat}
    (h : Delivered s t.deliver.complete site pos n) (w : Warning) :
    Delivered s (t.warnOn w).deliver.complete site pos n := h

theorem Delivered.ended {s t : State} {site : ReadSite} {pos n : Nat}
    (h : Delivered s t.deliver.complete site pos n) : Delivered s t.ended.deliver.complete site pos n := h

/-- What is delivered does not depend on where the cursor stood, nor on TRK_REM and RS. -/
theorem Delivered.of_advanced {s t : State} {k pos n : Nat} {rs : Byte} {site : ReadSite}
    (h : Delivered { s.consume k with rs := rs } t site pos n) : Delivered s t site pos n := h

/-- Bytes consumed in two parts, and the track's count with them. -/
theorem consumed_twice {s t : State} {k n : Nat} (h : k + n ≤ s.left) (hi : t.iptr = ((s.consume k).consume n).iptr)
    (hr : t.trkRem = ((s.consume k).consume n).trkRem) : Consumed s t (k + n) := by
  rw [State.consume_consume] at hi hr
  exact ⟨by rw [hi, State.consume_iptr_toNat h], by rw [hr]; exact trkRem_fall s (k + n)⟩

/-- A payload that IN holds is delivered whole, with W_UNTERM unless it ends in the end marker (R138, R147). -/
theorem sysexPayload_delivers {s : State} (hw : Memory.wf (unlisted s.cfg .msg) (s.mem .msg) = true) {n : Nat}
    (hn : n ≤ s.cfg.msgBytes) (hl : n ≤ s.left) :
    ∃ t, sysexPayload n s = .done t ∧ Delivered s t.complete .next s.iptr.toNat n ∧ t.iptr = (s.consume n).iptr
      ∧ t.trkRem = (s.consume n).trkRem ∧ t.rs = s.rs ∧ t.trkOpen = s.trkOpen ∧ t.dmode = s.dmode
      ∧ if n ≠ 0 ∧ t.complete.cell .msg (n - 1) = some 0xF7 then SameWarnings s t.complete
        else Warned s t.complete .unterm := by
  have last {t : State} (h : Delivered s t .next s.iptr.toNat n) : (n ≠ 0 ∧ t.cell .msg (n - 1) = some 0xF7)
      ↔ (s.readBytes .next .input s.iptr.toNat n).getLast? = some endMarker := by
    obtain ⟨-, -, -, -, -, hcell, -⟩ := h
    rw [hcell, State.readBytes_getLast?]
    by_cases h0 : n = 0
    · simp [h0]
    · simp [h0, Nat.pos_of_ne_zero h0, endMarker]
  rw [sysexPayload_whole hn hl]
  by_cases hend : (s.readBytes .next .input s.iptr.toNat n).getLast? = some endMarker
  · have h : Delivered s (s.copyPayload n).deliver.complete .next s.iptr.toNat n := delivered_copyPayload hw hl
    exact ⟨_, if_pos hend, h, by simp, by simp, by simp, by simp, by simp,
      by rw [if_pos ((last h).mpr hend)]; exact ⟨by simp, by simp⟩⟩
  · have h : Delivered s ((s.copyPayload n).warnOn .unterm).deliver.complete .next s.iptr.toNat n :=
      (delivered_copyPayload hw hl).warnOn .unterm
    exact ⟨_, if_neg hend, h, by simp, by simp, by simp, by simp, by simp,
      by rw [if_neg (mt (last h).mp hend)]; exact warned_fields (by simp) (by simp)⟩

/-- A payload that the end of IN cuts off is delivered in part, with W_TRUNC and W_UNTERM, and the input is over
(R125). -/
theorem sysexPayload_deliversCut {s : State} (hw : Memory.wf (unlisted s.cfg .msg) (s.mem .msg) = true) {n : Nat}
    (hn : n ≤ s.cfg.msgBytes) (hl : s.left < n) :
    ∃ t, sysexPayload n s = .done t ∧ Delivered s t.complete .next s.iptr.toNat s.left
      ∧ t.iptr = (s.consume s.left).iptr ∧ t.trkRem = (s.consume s.left).trkRem ∧ t.rs = s.rs
      ∧ t.trkOpen = s.trkOpen ∧ t.dmode = .ended ∧ Warned (s.warnOn .trunc) t.complete .unterm :=
  ⟨_, sysexPayload_cut hn hl, (((delivered_copyPayload hw le_rfl).warnOn .trunc).ended).warnOn .unterm, by simp,
    by simp, by simp, by simp, rfl, warned_fields (by simp) (by simp)⟩

/-! ## The event -/

section
variable {s : State} {b : Byte}

theorem exec_sysex {i : Instr} (h : i = .smfSysexStart ∧ b = 0xF0 ∨ i = .smfSysexEscape ∧ b = 0xF7) :
    exec i s = runElement (sysexEvent b) s := by
  rcases h with ⟨rfl, rfl⟩ | ⟨rfl, rfl⟩ <;> rfl

/-- The length is read after the status byte, which RS takes. -/
theorem sysexEvent_eq : sysexEvent b s =
    match (s.consume 1).readVlq with
    | .ok n u => sysexPayload n { u with rs := b }
    | .trunc u => .done (({ u with rs := b } : State).warnOn .trunc).ended.noMessage
    | .malformed u => .done (({ u with rs := b } : State).warnOn .malformed).ended.noMessage := by
  rw [sysexEvent, State.status_eq, State.readVlq, State.readVlqFrom_rs, State.readVlq]
  cases State.readVlqFrom vlqMaxBytes 0 (s.consume 1) <;> rfl

end

/-- Settles O29: the three outcomes of ReadVLQ, the first of which leaves a payload that is too long, that IN holds, or
that the end of IN cuts off. -/
theorem sysexEvents : Obligations.SysexEvents := by
  intro i b s hi hinv hs hd hin
  rw [exec_sysex hi]
  have hl := left_pos hin
  have hleft := State.consume_left hl
  have hbody := sysexEvent_eq (s := s) (b := b)
  rcases (s.consume 1).readVlq_exact with ⟨n, m, -, -, hm, hv⟩ | hv | ⟨h4, hv⟩ <;>
    simp only [hv, State.consume_consume, Sig.ok.injEq, Sig.trunc.injEq, Sig.malformed.injEq, reduceCtorEq,
      false_imp_iff, implies_true, true_and, and_true, forall_eq'] at hbody ⊢
  · rintro n' u ⟨rfl, rfl⟩
    have hk : 1 + m ≤ s.left := by omega
    have hw : Memory.wf (unlisted s.cfg .msg) (s.mem .msg) = true := (hinv.spaces .msg).1
    have hrest : ({ s.consume (1 + m) with rs := b } : State).left = s.left - (1 + m) := State.consume_left hk
    rw [State.consume_left hk, State.consume_iptr_toNat hk, Nat.add_sub_cancel_left]
    refine ⟨fun hlong => ?tooLong, fun hn hfits => ?whole, fun hn hcut => ?cut⟩
    case tooLong => exact runElement_raise hs (hbody.trans (sysexPayload_tooLong hlong))
    case whole =>
      obtain ⟨t, hpayload, hdel, hiptr, hrem, hrs, hopen, hmode, hwarn⟩ :=
        sysexPayload_delivers (s := { s.consume (1 + m) with rs := b }) hw hn (by omega)
      exact ⟨t.complete, runElement_done hs (hbody.trans hpayload),
        State.consume_iptr_toNat hk ▸ hdel.of_advanced, consumed_twice (by omega) hiptr hrem, hrs, hopen,
        hmode.trans hd, hwarn⟩
    case cut =>
      obtain ⟨t, hpayload, hdel, hiptr, hrem, hrs, hopen, hmode, hwarn⟩ :=
        sysexPayload_deliversCut (s := { s.consume (1 + m) with rs := b }) hw hn (by omega)
      rw [hrest] at hdel hiptr hrem
      have hall : 1 + m + (s.left - (1 + m)) = s.left := Nat.add_sub_cancel' hk
      exact ⟨t.complete, runElement_done hs (hbody.trans hpayload), State.consume_iptr_toNat hk ▸ hdel.of_advanced,
        hall ▸ consumed_twice hall.le hiptr hrem, hrs, hopen, hmode, hwarn⟩
  · refine runElement_signals hs le_rfl ?_
    rw [hbody, hleft, Nat.add_sub_cancel' hl]
  · exact runElement_signals hs (by omega) hbody

end Sys2Proof.Machine
end

section
/-! STREAM_LOAD, and DEMUX_NEXT outside an SMF: how it ends and goes on, the raw mode, the choice of the mode (R84,
R120 to R124). -/

namespace Sys2Proof.Machine

/-! ## Ends of DEMUX_NEXT -/

/-- Where the rule gives the same verdict from `u`, the command goes on as one from `u` (R253). -/
theorem continuesAs_of_body {s u : State} (hs : s.halt = false) (hu : u.halt = false)
    (h : demuxNextBody s = demuxNextBody u) : ContinuesAs s u := by
  obtain ⟨v, hv⟩ := demuxNextBody_terminates u
  refine ⟨_, execDemuxNext_unhalted hu hv, ?_⟩
  rw [execDemuxNext_unhalted hs (h.trans hv)]
  cases v with
  | done t =>
    obtain ⟨-, -, hhalt, -⟩ := (demuxNextBody_frames hv).errors
    have : t.complete.halt = false := hhalt.trans hu
    simp only [State.settle, this, Bool.false_eq_true, if_false]
  | raise e => rfl

/-- The input ended with no message and no warning, the cursor anywhere. -/
theorem inputOver_ended (s : State) (iptr : Word) :
    InputOver s ({ s with iptr := iptr } : State).ended.noMessage.complete :=
  inputOver_update s iptr s.trkRem s.warn s.wcnt s.rs s.trkOpen (s.draws + 1)

/-- What a bad header leaves: W_TRKHDR and the input over, the cursor and the track as they were. -/
theorem badHeader_ends (s : State) :
    let t := (s.warnOn .trkHdr).ended.noMessage.complete
    Warned s t .trkHdr ∧ InputOver s t ∧ t.iptr = s.iptr ∧ t.rs = s.rs ∧ t.trkOpen = s.trkOpen
      ∧ t.trkRem = s.trkRem :=
  ⟨warned_fields rfl rfl, inputOver_update s s.iptr s.trkRem _ _ s.rs s.trkOpen (s.draws + 1), rfl, rfl, rfl, rfl⟩

/-- Settles O19: the rule is None() alone. -/
theorem demuxAfterEnd : Obligations.DemuxAfterEnd := by
  intro s hs hd
  have hbody : demuxNextBody s = some (.done s.noMessage) := by simp only [demuxNextBody, hd]
  obtain ⟨-, -, -, hlen, hside, herrors, himage, hsinks, hspaces⟩ := inputOver_ended s s.iptr
  exact ⟨_, execDemuxNext_unhalted hs hbody, ⟨rfl, rfl⟩, ⟨rfl, rfl, rfl, rfl⟩, ⟨hlen, rfl, rfl, rfl, rfl, rfl⟩, hside,
    herrors, ⟨rfl, rfl⟩, himage, hsinks, hspaces⟩

/-! ## Raw mode (R123) -/

/-- With no start marker left the input is over, the cursor at its end. -/
theorem rawNext_noMarker {s : State} (h : ∀ k, s.iptr.toNat ≤ k → k < s.inLen.toNat →
    s.readByte .rawScan .input k ≠ startMarker) :
    rawNext s = .done ({ s with iptr := wordOf (s.iptr.toNat + s.left) } : State).ended.noMessage := by
  have hfind : s.findByte .rawScan startMarker s.iptr.toNat s.left = none :=
    State.findByte_eq_none fun k hk hk' => h k hk (by simp only [State.left] at hk'; omega)
  simp only [rawNext, hfind]

/-- The scan stops at the first start marker, and the message begins there. -/
theorem rawNext_marker {s : State} {j : Nat} (hj : s.iptr.toNat ≤ j) (hin : j < s.inLen.toNat)
    (hmark : s.readByte .rawScan .input j = startMarker)
    (hfirst : ∀ k, s.iptr.toNat ≤ k → k < j → s.readByte .rawScan .input k ≠ startMarker) :
    rawNext s = (rawSysexBody { s with iptr := wordOf j }).verdict := by
  have hfind : s.findByte .rawScan startMarker s.iptr.toNat s.left = some j :=
    State.findByte_eq_some hj (by simp only [State.left]; omega) hmark hfirst
  simp only [rawNext, hfind]

/-- The state after a raw body of `n` bytes is copied to MSG and the cursor put after it. -/
def State.rawCopied (s : State) (n : Nat) : State :=
  { s.writeBytes .msg 0 (s.readBytes .rawCopy .input (s.iptr.toNat + 1) n) with
    msgLen := wordOf n, msgPos := wordOf (s.iptr.toNat + 1), iptr := wordOf (s.iptr.toNat + 1 + n) }

section
variable (s : State) (n : Nat)

@[simp] theorem State.rawCopied_iptr : (s.rawCopied n).iptr = wordOf (s.iptr.toNat + 1 + n) := rfl
@[simp] theorem State.rawCopied_trkRem : (s.rawCopied n).trkRem = s.trkRem := rfl
@[simp] theorem State.rawCopied_trkOpen : (s.rawCopied n).trkOpen = s.trkOpen := rfl
@[simp] theorem State.rawCopied_rs : (s.rawCopied n).rs = s.rs := rfl
@[simp] theorem State.rawCopied_dmode : (s.rawCopied n).dmode = s.dmode := rfl
@[simp] theorem State.rawCopied_warn : (s.rawCopied n).warn = s.warn := rfl
@[simp] theorem State.rawCopied_wcnt : (s.rawCopied n).wcnt = s.wcnt := rfl

end

section
variable {s : State} {n : Nat} {terminated : Bool} (hin : s.iptr.toNat < s.inLen.toNat)
  (hbody : RawBody s s.iptr.toNat n terminated)
include hin hbody

/-- The search for the end marker finds the end of the body. -/
theorem RawBody.findByte : s.findByte .rawFind endMarker (s.iptr.toNat + 1) (s.inLen.toNat - (s.iptr.toNat + 1))
    = if terminated then some (s.iptr.toNat + n) else none := by
  cases terminated with
  | true =>
    obtain ⟨hend, hpos, hmark, hfirst⟩ := hbody
    exact State.findByte_eq_some (by omega) (by omega) hmark fun k hk hk' => hfirst k (by omega) hk'
  | false =>
    obtain ⟨-, hnone⟩ := hbody
    exact State.findByte_eq_none fun k hk hk' => hnone k (by omega) (by omega)

/-- The body of a raw message lies inside IN. -/
theorem RawBody.inside : s.iptr.toNat + 1 + n ≤ s.inLen.toNat := by
  cases terminated with
  | true =>
    obtain ⟨hend, -⟩ := hbody
    omega
  | false =>
    obtain ⟨hn, -⟩ := hbody
    omega

theorem rawSysexBody_eq : rawSysexBody s = if s.cfg.msgBytes < n then .raise (capacityError 1)
    else .done (if terminated then (s.rawCopied n).deliver else ((s.rawCopied n).warnOn .unterm).ended.deliver) := by
  have hfind := RawBody.findByte hin hbody
  cases terminated with
  | true =>
    obtain ⟨-, hpos, -⟩ := hbody
    have hlen : s.iptr.toNat + n - (s.iptr.toNat + 1) + 1 = n := by omega
    rw [if_pos rfl] at hfind
    simp only [rawSysexBody, hfind, hlen]
    rfl
  | false =>
    obtain ⟨rfl, -⟩ := hbody
    rw [if_neg (by decide)] at hfind
    simp only [rawSysexBody, hfind]
    rfl

/-- A raw body copied and delivered, the two ends of it told apart. -/
theorem rawCopied_delivered (hw : Memory.wf (unlisted s.cfg .msg) (s.mem .msg) = true) :
    RawDelivered s (if terminated then (s.rawCopied n).deliver
      else ((s.rawCopied n).warnOn .unterm).ended.deliver).complete s.iptr.toNat n terminated := by
  have hinside := RawBody.inside hin hbody
  have hlt := s.inLen.isLt
  have hiptr : (wordOf (s.iptr.toNat + 1 + n)).toNat = s.iptr.toNat + 1 + n := wordOf_of_lt (by omega)
  have hdel : Delivered s (s.rawCopied n).deliver.complete .rawCopy (s.iptr.toNat + 1) n := by
    rw [State.rawCopied]
    have h := delivered_update (s := s) (p := s.iptr.toNat + 1) (n := n) hw .rawCopy (by omega) (by omega)
      (wordOf (s.iptr.toNat + 1 + n)) s.trkRem s.warn s.wcnt s.rs s.dmode s.trkOpen (s.draws + 1)
    exact h
  cases terminated with
  | true => exact ⟨hdel, hiptr, by simp, by simp, by simp, ⟨by simp, by simp⟩, by simp⟩
  | false =>
    exact ⟨(hdel.warnOn .unterm).ended, hiptr, by simp, by simp, by simp, warned_fields (by simp) (by simp), rfl⟩

end

/-- Settles O22: a body longer than MSG is raised; any other is copied and delivered. -/
theorem rawSysexResult : Obligations.RawSysexResult := by
  intro s hinv hs _ hin n terminated hbody
  have heq := rawSysexBody_eq hin hbody
  refine ⟨fun hlong => runElement_raise hs (heq.trans (if_pos hlong)), fun hn => ?_⟩
  exact ⟨_, runElement_done hs (heq.trans (if_neg (Nat.not_lt.mpr hn))),
    rawCopied_delivered hin hbody (hinv.spaces .msg).1⟩

/-- Settles O21: the scan finds no start marker, or the first one, where the message alone is run. -/
theorem demuxRawMessage : Obligations.DemuxRawMessage := by
  intro s hinv hs hd
  have hcursor := hinv.cursor.2
  have hrule : demuxNextBody s = some (rawNext s) := by simp only [demuxNextBody, hd]
  refine ⟨fun hnone => ?noMarker, fun j n terminated hj hin hmark hfirst hbody => ?marker⟩
  case noMarker =>
    have hend : wordOf (s.iptr.toNat + s.left) = s.inLen := by
      rw [State.left, Nat.add_sub_cancel' hcursor, wordOf_toNat]
    have hraw := rawNext_noMarker hnone
    rw [hend] at hraw
    exact ⟨_, execDemuxNext_unhalted hs (hrule.trans (congrArg some hraw)), inputOver_ended s s.inLen, rfl, ⟨rfl, rfl⟩,
      rfl, rfl, rfl⟩
  case marker =>
    have hraw := rawNext_marker hj hin hmark hfirst
    have hjw : ({ s with iptr := wordOf j } : State).iptr.toNat = j := wordOf_of_lt (hin.trans s.inLen.isLt)
    have hin' : ({ s with iptr := wordOf j } : State).iptr.toNat < s.inLen.toNat := by
      rw [hjw]; exact hin
    have hbody' : RawBody { s with iptr := wordOf j } ({ s with iptr := wordOf j } : State).iptr.toNat n
        terminated := by
      rw [hjw]; exact hbody
    have heq := rawSysexBody_eq hin' hbody'
    refine ⟨fun hlong => ?tooLong, fun hn => ?fits⟩
    case tooLong =>
      rw [heq, if_pos hlong] at hraw
      exact ⟨_, execDemuxNext_unhalted hs (hrule.trans (congrArg some hraw)), endsFatal_takeFatal s _⟩
    case fits =>
      rw [heq, if_neg (Nat.not_lt.mpr hn)] at hraw
      have hdel := rawCopied_delivered hin' hbody' (hinv.spaces .msg).1
      rw [hjw] at hdel
      exact ⟨_, execDemuxNext_unhalted hs (hrule.trans (congrArg some hraw)), hdel⟩

/-! ## STREAM_LOAD (R120) -/

/-- The first DEMUX_NEXT of an empty stream finds no message. -/
theorem exec_demuxNext_empty {s : State} (hs : s.halt = false) (hd : s.dmode = .unset) (hlen : s.inLen = 0) :
    ∃ t, exec .demuxNext s = .next t ∧ InputOver s t := by
  have hraw := rawNext_noMarker (s := { s with dmode := .raw }) fun k _ hk => absurd hk (by simp [hlen])
  have hbody : demuxNextBody s = some (rawNext { s with dmode := .raw }) := by
    simp [demuxNextBody, hd, State.sniffsSmf, hlen]
  exact ⟨_, execDemuxNext_unhalted hs (hbody.trans (congrArg some hraw)), inputOver_ended s _⟩

/-- The state STREAM_LOAD leaves of a stream that fits IN. -/
def State.streamBound (s : State) : State :=
  (({ s with
    inLen := s.lat.a0, iptr := 0, dmode := .unset, trkOpen := false, trkRem := 0, rs := 0, msgLen := 0,
    msgPos := 0 } : State).results s.lat.a0 0).complete

theorem exec_streamLoad {s : State} (hs : s.halt = false) : exec .streamLoad s
    = .next (if s.cfg.inBytes < s.lat.a0.toNat then s.takeFatal s.commandError else s.streamBound) := by
  have hexec : exec .streamLoad s = .next (s.settle (streamLoadBody s)) := runCommand_unhalted hs
  rw [hexec, streamLoadBody, apply_ite s.settle]
  rfl

/-- Settles O18: the operand that fits IN binds the stream; an empty one ends at the first DEMUX_NEXT. -/
theorem streamLoadResult : Obligations.StreamLoadResult := by
  refine ⟨rfl, fun s hs => ?_⟩
  rw [exec_streamLoad hs]
  refine ⟨fun h0 => ?empty, fun h => ?bound, fun h => ?tooLong⟩
  case empty =>
    obtain ⟨u, hu, hover⟩ := exec_demuxNext_empty (s := s.streamBound) hs rfl h0
    exact ⟨_, u, by rw [if_neg (by simp [h0])], hu, hover⟩
  case bound =>
    rw [if_neg (Nat.not_lt.mpr h)]
    exact ⟨_, rfl, ⟨rfl, rfl⟩, rfl, rfl, rfl, rfl, rfl, rfl, rfl, rfl, ⟨rfl, rfl⟩,
      ⟨rfl, rfl, rfl, rfl, rfl, rfl, rfl, rfl, rfl⟩, ⟨rfl, rfl, rfl, rfl⟩, ⟨rfl, rfl⟩, ⟨rfl, rfl⟩, ⟨rfl, rfl⟩,
      fun sp _ => by cases sp <;> rfl⟩
  case tooLong =>
    rw [if_pos h]
    exact ⟨_, rfl, endsFatal_takeFatal s s.commandError⟩

/-! ## The choice of the mode (R84, R121, R122, R124) -/

theorem decodeChunkTag_mthd {tag : List Byte} : decodeChunkTag tag = some .chunkMthd ↔ tag = tagMthd := by
  simp only [decodeChunkTag]
  split_ifs <;> simp_all

theorem decodeChunkTag_mtrk {tag : List Byte} : decodeChunkTag tag = some .chunkMtrk ↔ tag = tagMtrk := by
  simp only [decodeChunkTag]
  split_ifs with h1 h2
  · simp [h1, tagMthd, tagMtrk]
  · simp [h2]
  · simp [h2]

theorem State.sniffsSmf_iff (s : State) :
    s.sniffsSmf = true ↔ 4 ≤ s.inLen.toNat ∧ s.readBytes .sniff .input 0 4 = tagMthd := by
  simp [State.sniffsSmf, decodeChunkTag_mthd]

/-- Settles O20: outside an SMF the rule is that of raw mode; in one it is the track loop after a header that fits, and
a bad header otherwise. -/
theorem demuxSelectsMode : Obligations.DemuxSelectsMode := by
  intro s hs hd
  have hrule : demuxNextBody s = if s.sniffsSmf then smfStart { s with dmode := .smf }
      else some (rawNext { s with dmode := .raw }) := by simp only [demuxNextBody, hd]
  refine ⟨fun hraw => ?raw, fun hsmf h8 hlen => ?fits, fun hsmf hbad => ?bad⟩
  case raw =>
    rw [if_neg (mt s.sniffsSmf_iff.mp hraw)] at hrule
    exact continuesAs_of_body hs hs hrule
  case fits =>
    have hheader := chunkMthdBody_fits (s := { s with dmode := .smf }) h8 hlen
    rw [if_pos (s.sniffsSmf_iff.mpr hsmf), smfStart, hheader] at hrule
    exact continuesAs_of_body hs hs hrule
  case bad =>
    have hheader := chunkMthdBody_bad (s := { s with dmode := .smf }) hbad
    rw [if_pos (s.sniffsSmf_iff.mpr hsmf), smfStart, hheader] at hrule
    exact ⟨_, execDemuxNext_unhalted hs hrule, badHeader_ends s⟩

end Sys2Proof.Machine
end

section
/-! DEMUX_NEXT in an SMF: the boundaries of tracks and of the file, and the events of a track (R125, R130, R131, R136,
R137). -/

namespace Sys2Proof.Machine

/-! ## One iteration of the track loop -/

theorem demuxNextBody_smf {s : State} (hd : s.dmode = .smf) : demuxNextBody s = smfNext s := by
  simp only [demuxNextBody, hd]

/-- An iteration that goes on leaves the rest of the command to the state it goes on in. -/
theorem continuesAs_of_iteration {s u : State} (hs : s.halt = false) (hd : s.dmode = .smf)
    (e : smfIteration s = .go u) : ContinuesAs s u := by
  have hframe := smfIteration_frames s
  rw [e] at hframe
  obtain ⟨-, -, hhalt, -⟩ := DemuxOnly.errors hframe
  refine continuesAs_of_body hs (hhalt.trans hs) ?_
  rw [demuxNextBody_smf hd, demuxNextBody_smf ((smfIteration_dmode e).trans hd), smfNext_eq, e]

/-! ## Boundaries (R131, R136, R137) -/

theorem smfIteration_closes {s : State} (hopen : s.trkOpen = true) (hrem : s.trkRem = 0) :
    smfIteration s = .go { s with trkOpen := false } := by
  rw [smfIteration, if_neg (not_not.mpr hopen), if_pos hrem]

theorem smfIteration_event {s : State} (hopen : s.trkOpen = true) (hrem : s.trkRem ≠ 0) (hin : s.iptr ≠ s.inLen) :
    smfIteration s = trackEvent s := by
  rw [smfIteration, if_neg (not_not.mpr hopen), if_neg hrem, if_neg hin]

theorem smfIteration_between {s : State} (hopen : s.trkOpen = false) : smfIteration s = openTrack s := by
  simp [smfIteration, hopen]

theorem smfIteration_over {s : State} (hend : s.iptr = s.inLen) (h : s.trkOpen = true → s.trkRem ≠ 0) :
    smfIteration s = .done s.ended.noMessage := by
  cases hopen : s.trkOpen with
  | false => rw [smfIteration_between hopen, openTrack, if_pos hend]
  | true => rw [smfIteration, if_neg (not_not.mpr hopen), if_neg (h hopen), if_pos hend]

theorem openTrack_opens {s : State} (hin : s.iptr ≠ s.inLen) (h8 : 8 ≤ s.left)
    (htag : s.readBytes .trackTag .input s.iptr.toNat 4 = tagMtrk) : openTrack s = chunkMtrkBody s := by
  rw [openTrack, if_neg hin, if_neg (Nat.not_lt.mpr h8), decodeChunkTag_mtrk.mpr htag]

theorem openTrack_bad {s : State} (hin : s.iptr ≠ s.inLen)
    (h : s.left < 8 ∨ s.readBytes .trackTag .input s.iptr.toNat 4 ≠ tagMtrk) : openTrack s = badHeader s := by
  simp only [openTrack, if_neg hin]
  split_ifs with h8
  · rfl
  · split
    · rename_i htag
      exact absurd (decodeChunkTag_mtrk.mp htag) (h.resolve_left h8)
    · rfl

/-- Settles O23: each clause is one iteration of the track loop. -/
theorem demuxTrackBoundary : Obligations.DemuxTrackBoundary := by
  intro s hs hd
  refine ⟨fun hopen hrem => ?closed, fun hend hrem => ?fileEnd, fun hopen hin h8 htag => ?opened,
    fun hopen hin hbad => ?bad⟩
  case closed => exact continuesAs_of_iteration hs hd (smfIteration_closes hopen hrem)
  case fileEnd =>
    exact ⟨_, exec_demuxNext_done hs hd (smfIteration_over hend hrem), inputOver_ended s s.iptr, ⟨rfl, rfl⟩, rfl, rfl,
      rfl, rfl⟩
  case opened =>
    refine continuesAs_of_iteration hs hd ?_
    rw [smfIteration_between hopen, openTrack_opens hin h8 htag, chunkMtrkBody_fits h8]
  case bad =>
    have e := (smfIteration_between hopen).trans (openTrack_bad hin hbad)
    exact ⟨_, exec_demuxNext_done hs hd e, badHeader_ends s⟩

/-! ## Events (R130) -/

/-- After a delta time with a byte behind it, the event of that byte. -/
theorem trackEvent_event {s t : State} {n : Nat} (hv : s.readVlq = .ok n t) (hl : 1 ≤ t.left) :
    trackEvent s = eventBody (decodeStatus (t.readByte .next .input t.iptr.toNat)) t := by
  rcases t.peek_cases with ⟨-, hpeek⟩ | ⟨h0, -⟩
  · simp only [trackEvent, hv, Sig.orEnd, hpeek]
  · omega

theorem trackEvent_noEvent {s t : State} {n : Nat} (hv : s.readVlq = .ok n t) (hl : t.left = 0) :
    trackEvent s = .done (t.warnOn .trunc).ended.noMessage := by
  rcases t.peek_cases with ⟨h1, -⟩ | ⟨-, hpeek⟩
  · omega
  · simp only [trackEvent, hv, Sig.orEnd, hpeek]

/-- Where one iteration ends the input after `k` bytes, DEMUX_NEXT has signalled. -/
theorem exec_demuxNext_signals {s : State} {k : Nat} {w : Warning} (hs : s.halt = false) (hd : s.dmode = .smf)
    (hk : k ≤ s.left) (e : smfIteration s = .done ((s.consume k).warnOn w).ended.noMessage) :
    ∃ u, exec .demuxNext s = .next u ∧ Signalled s u w k s.rs :=
  ⟨_, exec_demuxNext_done hs hd e, signalled_consume hk s.rs w⟩

/-- Settles O24: the delta time in ReadVLQ's three outcomes; behind it the event's flow, as the command's and as the
row's own. -/
theorem demuxRunsEvents : Obligations.DemuxRunsEvents := by
  intro s _ hs hb hd hopen hrem hin
  have hiter := smfIteration_event hopen hrem hin
  refine ⟨fun n t hv hl => ?event, fun n t hv hl => ?noEvent, fun t hv => ?cut, fun t hv => ?malformed⟩
  case event =>
    obtain ⟨m, -, -, rfl⟩ := State.readVlq_ok hv
    refine ⟨_, exec_decodeStatus _ hs, ?_⟩
    have hflow := hiter.trans (trackEvent_event hv hl)
    have hframe := eventBody_frames (decodeStatus ((s.consume m).readByte .next .input (s.consume m).iptr.toNat))
      (s.consume m)
    cases e : eventBody (decodeStatus ((s.consume m).readByte .next .input (s.consume m).iptr.toNat))
        (s.consume m) <;> rw [e] at hflow hframe
    case go u =>
      have hbusy : u.busy = true := hframe.status.1.trans hb
      have hfree : ¬ u.busy = false := by simp [hbusy]
      exact ⟨fun _ => continuesAs_of_iteration hs hd hflow, fun h => absurd h hfree, fun h => absurd h hfree⟩
    case done u =>
      obtain ⟨-, -, hhalt, -⟩ := hframe.errors
      have hhalted : ¬ u.complete.halt = true := by simp [hhalt, hs]
      exact ⟨nofun, fun _ _ => exec_demuxNext_done hs hd hflow, fun _ h => absurd h hhalted⟩
    case raise f => exact ⟨nofun, nofun, fun _ _ => exec_demuxNext_raise hs hd hflow⟩
  case noEvent =>
    obtain ⟨m, -, hm, rfl⟩ := State.readVlq_ok hv
    obtain rfl : m = s.left := by
      rw [State.consume_left hm] at hl
      omega
    exact exec_demuxNext_signals hs hd le_rfl (hiter.trans (trackEvent_noEvent hv hl))
  case cut =>
    refine exec_demuxNext_signals hs hd le_rfl ?_
    rcases s.readVlq_exact with ⟨_, _, -, -, -, hv'⟩ | hv' | ⟨-, hv'⟩ <;> rw [hv'] at hv <;> cases hv
    rw [hiter, trackEvent, hv']
    rfl
  case malformed =>
    rcases s.readVlq_exact with ⟨_, _, -, -, -, hv'⟩ | hv' | ⟨h4, hv'⟩ <;> rw [hv'] at hv <;> cases hv
    refine exec_demuxNext_signals hs hd h4 ?_
    rw [hiter, trackEvent, hv']
    rfl

end Sys2Proof.Machine
end

section
/-! The device memory image: IMG_INIT, READ_REGION, and INGEST from a body in MSG to the frame in DMEM, once and a
second time (R170 to R182). -/

namespace Sys2Proof.Machine

/-! ## IMG_INIT (R170) -/

/-- Settles O34: DMEM with no cell listed reads as SENTINEL everywhere; nothing else is written but the registers. -/
theorem imageInit : Obligations.ImageInit := by
  refine ⟨rfl, fun s hs => ⟨_, runCommand_unhalted (body := imgInitBody) hs, ⟨rfl, rfl⟩, fun _ => rfl, rfl, rfl,
    ⟨rfl, rfl⟩, ⟨rfl, rfl, rfl, rfl, rfl, rfl, rfl, rfl, rfl⟩, ⟨rfl, rfl, rfl, rfl⟩, ⟨rfl, rfl⟩,
    ⟨rfl, rfl, rfl, rfl, rfl, rfl⟩, ⟨rfl, rfl⟩, ⟨rfl, rfl⟩, fun sp hsp a => ?_⟩⟩
  cases sp
  case dmem => exact absurd rfl hsp
  all_goals rfl

/-! ## READ_REGION (R180) -/

/-- A region of length 0 is a CommandError. -/
theorem readRegionBody_empty {s : State} (h : s.lat.a1 = 0) : readRegionBody s = .raise s.commandError :=
  if_pos (congrArg BitVec.toNat h)

/-- A read of DMEM never draws: it gives a byte exactly where the cell holds it (R63). -/
theorem dmem_cell_eq_some_iff {s : State} (site : ReadSite) {a : Nat} {b : Byte} :
    s.cell .dmem a = some b ↔ s.readByte site .dmem a = b := by
  rw [dmem_cell_read s site, Option.some.injEq]

/-- Any other region is asked about by its range and its first byte. -/
theorem readRegionBody_nonempty {s : State} (h : s.lat.a1 ≠ 0) :
    readRegionBody s = .done (s.results
      (if regionLimit s < s.lat.a0.toNat + s.lat.a1.toNat then 2
        else if s.cell .dmem s.lat.a0.toNat = some s.cfg.sentinel then 0 else 1) 0) := by
  have hlen : s.opnd .s1 ≠ 0 := fun e => h (BitVec.eq_of_toNat_eq e)
  rw [readRegionBody, if_neg hlen]
  simp only [dmem_cell_eq_some_iff .region, apply_ite (fun r => Verdict.done (s.results r 0))]
  rfl

/-- The results alone written, the command completed. -/
theorem results_complete_frame (s : State) (r0 r1 : Word) :
    let t := (s.results r0 r1).complete
    Completed t ∧ Results t r0 r1 ∧ SameHostSide s t ∧ SameErrors s t ∧ SameWarnings s t ∧ SameStream s t
      ∧ SameMessage s t ∧ SameImage s t ∧ SameSinks s t ∧ SameSpaces s t :=
  ⟨⟨rfl, rfl⟩, ⟨rfl, rfl⟩, ⟨rfl, rfl, rfl, rfl, rfl, rfl, rfl, rfl, rfl⟩, ⟨rfl, rfl, rfl, rfl⟩, ⟨rfl, rfl⟩,
    ⟨rfl, rfl, rfl, rfl, rfl, rfl⟩, ⟨rfl, rfl⟩, ⟨rfl, rfl⟩, ⟨rfl, rfl⟩, fun sp _ => by cases sp <;> rfl⟩

/-- Settles O39: the rule at length 0 and at any other length. -/
theorem readRegionResult : Obligations.ReadRegionResult := by
  refine ⟨rfl, fun s hs => ?_⟩
  have hexec : exec .readRegion s = .next (s.settle (readRegionBody s)) := runCommand_unhalted hs
  refine ⟨fun h => ⟨_, hexec, ?empty⟩, fun h => ⟨_, hexec, ?nonempty⟩⟩
  case empty =>
    rw [readRegionBody_empty h]
    exact endsFatal_takeFatal s s.commandError
  case nonempty =>
    rw [readRegionBody_nonempty h]
    exact results_complete_frame s _ 0

/-! ## Bodies INGEST drops (R173, R175, R176, R182) -/

/-- A body dropped: its warning, its outcome, and nothing else. -/
theorem dropped_warnOn (s : State) (w : Warning) (outcome : Word) :
    Dropped s ((s.warnOn w).results outcome 0).complete w outcome := by
  obtain ⟨hend, hresults, hside, herrors, -, hstream, hmessage, himage, hsinks, hspaces⟩ :=
    results_complete_frame (s.warnOn w) outcome 0
  exact ⟨hend, warned_fields rfl rfl, hresults, hside, herrors, hstream, hmessage, himage, hsinks,
    fun sp a => (hspaces sp a).trans (s.warnOn_cell w sp a)⟩

/-- A body that begins as a Data Set frame of a dialect but is no frame is dropped by that dialect's rule. -/
theorem ingestFrame_foreign {d : Dialect} {dev : Byte} {m : List Byte} (hd : decodeDataSet m = some (dataSet d dev))
    (h : ¬ ∃ d dev digits payload cs, IsFrame d dev digits payload cs m) (s : State) :
    ingestFrame d m s = dropForeign s :=
  if_pos fun hr => h ⟨d, dev, isFrame_of_parts hd hr⟩

theorem ingestMessage_foreign {m : List Byte} (h : ¬ ∃ d dev digits payload cs, IsFrame d dev digits payload cs m)
    (s : State) : ingestMessage m s = dropForeign s := by
  unfold ingestMessage
  split
  case h_1 dev hd => exact ingestFrame_foreign (d := .d3D) hd h s
  case h_2 dev hd => exact ingestFrame_foreign (d := .d57) hd h s
  case h_3 => rfl

/-! ## The rule of a frame (R172) -/

section
variable {d : Dialect} {dev cs : Byte} {digits payload m : List Byte} (hf : IsFrame d dev digits payload cs m)
include hf

/-- INGEST's rule in the parts of a frame: checksum, dialect, bounds, room for a snapshot, in that order. -/
theorem ingestFrame_eq (s : State) : ingestFrame d m s =
    if sumBytes (digits ++ payload ++ [cs]) % 128 ≠ 0 then .raise ⟨.checksum, wordOf (addressOf 0 digits)⟩
    else if s.dialect ≠ none ∧ s.dialect ≠ some d then .done ((s.warnOn .dialect).results 2 0)
    else if addressOf 0 digits + payload.length > Config.cap s.cfg d then .done ((s.warnOn .bounds).results 3 0)
    else if addressOf 0 digits = Config.trig s.cfg d ∧ s.snapCount.toNat = s.cfg.snapMax then
      .raise (capacityError 2)
    else .done (writeFrame d (addressOf 0 digits) payload s) := by
  obtain ⟨-, hrest, haddr, hpayload, hsummed⟩ := isFrame_parts hf
  simp only [ingestFrame, hrest, haddr, hpayload, hsummed, not_true_eq_false, if_false]

theorem ingestFrame_badChecksum (hsum : sumBytes (digits ++ payload ++ [cs]) % 128 ≠ 0) (s : State) :
    ingestFrame d m s = .raise ⟨.checksum, wordOf (addressOf 0 digits)⟩ := by
  rw [ingestFrame_eq hf, if_pos hsum]

section
variable {s : State} (hsum : sumBytes (digits ++ payload ++ [cs]) % 128 = 0)
include hsum

theorem ingestFrame_otherDialect (hnone : s.dialect ≠ none) (hother : s.dialect ≠ some d) :
    ingestFrame d m s = .done ((s.warnOn .dialect).results 2 0) := by
  rw [ingestFrame_eq hf, if_neg (not_not.mpr hsum), if_pos ⟨hnone, hother⟩]

variable (hd : s.dialect = none ∨ s.dialect = some d)
include hd

theorem ingestFrame_outOfBounds (hcap : Config.cap s.cfg d < addressOf 0 digits + payload.length) :
    ingestFrame d m s = .done ((s.warnOn .bounds).results 3 0) := by
  rw [ingestFrame_eq hf, if_neg (not_not.mpr hsum), if_neg (by tauto), if_pos hcap]

/-- A frame that may be written is written, unless it asks for a snapshot SNAP has no room for. -/
theorem ingestFrame_fits (hcap : addressOf 0 digits + payload.length ≤ Config.cap s.cfg d) : ingestFrame d m s =
    if addressOf 0 digits = Config.trig s.cfg d ∧ s.snapCount.toNat = s.cfg.snapMax then .raise (capacityError 2)
    else .done (writeFrame d (addressOf 0 digits) payload s) := by
  rw [ingestFrame_eq hf, if_neg (not_not.mpr hsum), if_neg (by tauto), if_neg (Nat.not_lt.mpr hcap)]

end

end

/-- Settles O36: the checksum is the first thing looked at in a frame. -/
theorem checksumIsFatal : Obligations.ChecksumIsFatal := by
  intro d dev cs digits payload m i s hi hs hm hf hsum
  refine ⟨_, exec_ingester hi hs hm hf, ?_⟩
  rw [ingestFrame_badChecksum hf hsum s]
  exact endsFatal_takeFatal s _

/-- Settles O37: the dialect is looked at before the bounds. -/
theorem droppedFrames : Obligations.DroppedFrames := by
  intro d dev cs digits payload m i s hi hs hm hf hsum
  have hexec := exec_ingester hi hs hm hf
  refine ⟨fun hnone hother => ⟨_, hexec, ?dialect⟩, fun hd hcap => ⟨_, hexec, ?bounds⟩⟩
  case dialect =>
    rw [ingestFrame_otherDialect hf hsum hnone hother]
    exact dropped_warnOn s .dialect 2
  case bounds =>
    rw [ingestFrame_outOfBounds hf hsum hd hcap]
    exact dropped_warnOn s .bounds 3

/-! ## A frame written (R176, R177) -/

/-- A payload written to DMEM and its dialect latched. -/
def State.latched (s : State) (d : Dialect) (addr : Nat) (payload : List Byte) : State :=
  { s.writeBytes .dmem addr payload with dialect := some d }

theorem writeFrame_eq (d : Dialect) (addr : Nat) (payload : List Byte) (s : State) : writeFrame d addr payload s =
    if addr = Config.trig s.cfg d then (takeSnapshot d (s.latched d addr payload)).results 0 1
    else (s.latched d addr payload).results 0 0 := rfl

theorem State.latched_cell (s : State) (d : Dialect) (addr : Nat) (payload : List Byte) (sp : Space) (a : Nat) :
    (s.latched d addr payload).cell sp a = (s.writeBytes .dmem addr payload).cell sp a := by cases sp <;> rfl

theorem State.latched_cell_other (s : State) (d : Dialect) (addr : Nat) (payload : List Byte) {sp : Space}
    (h : sp ≠ .dmem) (a : Nat) : (s.latched d addr payload).cell sp a = s.cell sp a := by
  rw [State.latched_cell, State.writeBytes_cell_other s addr payload a h]

/-- SNAP and SNAP_COUNT bear on no cell of another space. -/
theorem State.cell_of_ne_snap (s : State) (snapMem : Memory) (snapCount : Word) {sp : Space} (h : sp ≠ .snap)
    (a : Nat) : ({ s with snapMem := snapMem, snapCount := snapCount } : State).cell sp a = s.cell sp a := by
  cases sp
  case snap => exact absurd rfl h
  all_goals rfl

theorem frameWritten_latched {s : State} (hw : Memory.wf (unlisted s.cfg .dmem) (s.mem .dmem) = true) (d : Dialect)
    (addr : Nat) (payload : List Byte) (r0 r1 : Word) :
    FrameWritten s ((s.latched d addr payload).results r0 r1).complete d addr payload := by
  refine ⟨⟨rfl, rfl⟩, rfl, fun a => ?dmem, fun sp hdmem _ a => ?others, ?fields⟩
  case fields =>
    simp [SameHostSide, SameErrors, SameWarnings, SameStream, SameMessage, SameSinks, State.latched]
  case dmem =>
    rw [State.complete_cell, State.results_cell, State.latched_cell, State.writeBytes_cell s .dmem addr payload a hw]
  case others =>
    rw [State.complete_cell, State.results_cell, State.latched_cell_other s d addr payload hdmem]

/-- A written frame does not depend on SNAP and SNAP_COUNT. -/
theorem FrameWritten.of_snap {s w : State} {d : Dialect} {addr : Nat} {payload : List Byte} {r0 r1 : Word}
    (h : FrameWritten s (w.results r0 r1).complete d addr payload) (snapMem : Memory) (snapCount : Word) :
    FrameWritten s (({ w with snapMem := snapMem, snapCount := snapCount } : State).results r0 r1).complete d addr
      payload := by
  obtain ⟨hend, hdialect, hdmem, hothers, hfields⟩ := h
  exact ⟨hend, hdialect, fun a => (w.cell_of_ne_snap snapMem snapCount (by decide) a).trans (hdmem a),
    fun sp hsp hsnap a => (w.cell_of_ne_snap snapMem snapCount hsnap a).trans (hothers sp hsp hsnap a), hfields⟩

/-- SNAP_COUNT counts a snapshot SNAP has room for: it keeps to its 32 bits (R11). -/
theorem takeSnapshot_snapCount {s : State} (hv : Config.valid s.cfg = true) (hn : s.snapCount.toNat < s.cfg.snapMax)
    (d : Dialect) : (takeSnapshot d s).snapCount.toNat = s.snapCount.toNat + 1 := by
  obtain ⟨-, hmax⟩ := Config.valid_snapMax hv
  show (s.snapCount + 1).toNat = _
  rw [BitVec.toNat_add]
  exact Nat.mod_eq_of_lt (by simp; omega)

/-- Settles O38: the frame is written and latched first, and the snapshot is one of the state this leaves. -/
theorem frameIngested : Obligations.FrameIngested := by
  intro d dev cs digits payload m i s hi hinv hs hm hf hsum hd hcap
  have hexec := exec_ingester hi hs hm hf
  rw [ingestFrame_fits hf hsum hd hcap] at hexec
  have hwritten := frameWritten_latched (hinv.spaces .dmem).1 d (addressOf 0 digits) payload
  refine ⟨fun htrig => ?plain, fun htrig hroom => ?snapshot, fun htrig hfull => ?full⟩
  case plain =>
    rw [if_neg fun h => htrig h.1, writeFrame_eq, if_neg htrig] at hexec
    exact ⟨_, hexec, hwritten 0 0, ⟨rfl, rfl⟩, s.writeBytes_snapCount .dmem (addressOf 0 digits) payload,
      s.latched_cell_other d (addressOf 0 digits) payload (by decide)⟩
  case snapshot =>
    rw [if_neg fun h => hroom.ne h.2, writeFrame_eq, if_pos htrig] at hexec
    have hlatched : (s.latched d (addressOf 0 digits) payload).Inv := hinv.latch hd hcap
    refine ⟨_, hexec, (hwritten 0 1).of_snap _ _, ⟨rfl, rfl⟩, takeSnapshot_snapCount hlatched.cfgValid hroom d,
      fun a => (takeSnapshot_snap (hlatched.spaces .snap) d a).trans ?_⟩
    have hregion := takeSnapshot_other (s.latched d (addressOf 0 digits) payload) d (sp := .dmem) (by decide)
    have hbefore := s.latched_cell_other d (addressOf 0 digits) payload (sp := .snap) (by decide) a
    exact ite_congr rfl (fun _ => (hregion _).symm) (fun _ => hbefore)
  case full =>
    rw [if_pos ⟨htrig, hfull⟩] at hexec
    exact ⟨_, hexec, endsFatal_takeFatal s (capacityError 2)⟩

/-! ## What the outcome says of the body -/

/-- A written frame answers 0 (R178). -/
theorem writeFrame_res0 (d : Dialect) (addr : Nat) (payload : List Byte) (s : State) :
    (writeFrame d addr payload s).res0 = 0 := by
  rw [writeFrame_eq]
  split_ifs <;> rfl

/-- Settles O35: what is no frame is foreign, and no case of a frame's rule answers 1. -/
theorem foreignBodyDropped : Obligations.ForeignBodyDropped := by
  intro s m hs hm
  refine ⟨fun hforeign => ?foreign, ?frame⟩
  case foreign =>
    refine ⟨_, exec_ingest hs, ?_⟩
    rw [message_of_holds hm, ingestMessage_foreign hforeign]
    exact dropped_warnOn s .foreign 1
  case frame =>
    rintro ⟨d, dev, digits, payload, cs, hf⟩
    refine ⟨_, exec_ingester (.head _) hs hm hf, ?_⟩
    rw [ingestFrame_eq hf]
    split_ifs
    · exact .inl rfl
    · exact .inr (by decide : (2 : Word) ≠ 1)
    · exact .inr (by decide : (3 : Word) ≠ 1)
    · exact .inl rfl
    · exact .inr (by rw [State.settle, State.complete_res0, writeFrame_res0]; decide)

section
variable {s t : State} {m : List Byte} (hs : s.halt = false) (hm : Holds s m) (hexec : exec .ingest s = .next t)
  (ht : t.halt = false) (hres : t.res0 = 0)
include hs hm hexec ht hres

/-- The body of an INGEST that answers 0 is a frame that may be written (R178). -/
theorem frame_of_res0_zero : ∃ d dev digits payload cs, IsFrame d dev digits payload cs m
    ∧ sumBytes (digits ++ payload ++ [cs]) % 128 = 0 ∧ (s.dialect = none ∨ s.dialect = some d)
    ∧ addressOf 0 digits + payload.length ≤ Config.cap s.cfg d := by
  have hanswer {u : State} (hu : exec .ingest s = .next u) : u.halt = false ∧ u.res0 = 0 := by
    obtain rfl := Host.Outcome.next.inj (hexec.symm.trans hu)
    exact ⟨ht, hres⟩
  have notDropped {w : Warning} {outcome : Word} (hne : outcome ≠ 0)
      (h : ∃ u, exec .ingest s = .next u ∧ Dropped s u w outcome) : False := by
    obtain ⟨u, hu, -, -, ⟨h0, -⟩, -⟩ := h
    exact hne (h0.symm.trans (hanswer hu).2)
  by_cases hframe : ∃ d dev digits payload cs, IsFrame d dev digits payload cs m
  case neg => exact (notDropped (by decide) ((foreignBodyDropped s m hs hm).1 hframe)).elim
  obtain ⟨d, dev, digits, payload, cs, hf⟩ := hframe
  have hi : Instr.ingest ∈ ingesters d dev := .head _
  have hsum : sumBytes (digits ++ payload ++ [cs]) % 128 = 0 := by
    by_contra hbad
    obtain ⟨u, hu, -, -, hhalt, -⟩ := checksumIsFatal d dev cs digits payload m _ s hi hs hm hf hbad
    exact absurd hhalt (by simp [(hanswer hu).1])
  obtain ⟨hdialect, hbounds⟩ := droppedFrames d dev cs digits payload m _ s hi hs hm hf hsum
  have hd : s.dialect = none ∨ s.dialect = some d := by
    by_contra hother
    obtain ⟨hnone, hsome⟩ := not_or.mp hother
    exact notDropped (by decide) (hdialect hnone hsome)
  refine ⟨d, dev, digits, payload, cs, hf, hsum, hd, ?_⟩
  by_contra hcap
  exact notDropped (by decide) (hbounds hd (Nat.lt_of_not_le hcap))

end

/-! ## A second INGEST (R181, C10) -/

/-- MSG holds the body every INGEST reads: no byte of it is a draw (R31, R138). -/
theorem State.Inv.holds_message {s : State} (h : s.Inv) : Holds s s.message := by
  obtain ⟨-, -, hwritten⟩ := h.message
  have hlen : s.message.length = s.msgLen.toNat := State.readBytes_length ..
  refine ⟨hlen.symm, fun i hi => ?_⟩
  rw [hlen] at hi
  obtain ⟨b, hb⟩ := Option.isSome_iff_exists.mp (hwritten i hi)
  rw [State.message, State.readBytes_getElem? _ _ _ _ _ _ hi, State.readByte_of_cell hb]
  rwa [Nat.zero_add] at hb

section
variable {s t u : State} {d : Dialect} {addr : Nat} {payload : List Byte}

/-- A written frame leaves the body it was read from. -/
theorem FrameWritten.holds (h : FrameWritten s t d addr payload) {m : List Byte} (hm : Holds s m) : Holds t m := by
  obtain ⟨-, -, -, hothers, -, -, -, -, ⟨hlen, -⟩, -⟩ := h
  obtain ⟨hm, hcells⟩ := hm
  exact ⟨by rw [hlen, hm], fun i hi => (hothers .msg (by decide) (by decide) i).trans (hcells i hi)⟩

theorem FrameWritten.dialect_eq (h : FrameWritten s t d addr payload) : t.dialect = some d := by
  obtain ⟨-, hd, -⟩ := h
  exact hd

theorem FrameWritten.cfg_eq (h : FrameWritten s t d addr payload) : t.cfg = s.cfg := by
  obtain ⟨-, -, -, -, ⟨-, -, -, hcfg, -⟩, -⟩ := h
  exact hcfg

theorem FrameWritten.halt_eq (h : FrameWritten s t d addr payload) : t.halt = s.halt := by
  obtain ⟨-, -, -, -, -, ⟨-, -, hhalt, -⟩, -⟩ := h
  exact hhalt

/-- The same payload written again finds its bytes there. -/
theorem FrameWritten.again (h : FrameWritten s t d addr payload) (h' : FrameWritten t u d addr payload) :
    SameSpace .dmem t u ∧ u.dialect = t.dialect := by
  refine ⟨fun a => ?_, h'.dialect_eq.trans h.dialect_eq.symm⟩
  obtain ⟨-, -, hdmem, -⟩ := h
  obtain ⟨-, -, hdmem', -⟩ := h'
  rw [hdmem' a]
  split_ifs with ha
  · rw [hdmem a, if_pos ha]
  · rfl

/-- What an INGEST that answers 0 has done: a frame is written, and RES1 tells the trigger address (R176, R177). -/
theorem frameWritten_of_res0_zero (hinv : s.Inv) (hs : s.halt = false) (hexec : exec .ingest s = .next t)
    (ht : t.halt = false) (hres : t.res0 = 0) : ∃ d dev digits payload cs, IsFrame d dev digits payload cs s.message
      ∧ sumBytes (digits ++ payload ++ [cs]) % 128 = 0 ∧ FrameWritten s t d (addressOf 0 digits) payload
      ∧ addressOf 0 digits + payload.length ≤ Config.cap t.cfg d
      ∧ t.res1 = if addressOf 0 digits = Config.trig t.cfg d then 1 else 0 := by
  have hm := hinv.holds_message
  obtain ⟨d, dev, digits, payload, cs, hf, hsum, hd, hcap⟩ := frame_of_res0_zero hs hm hexec ht hres
  refine ⟨d, dev, digits, payload, cs, hf, hsum, ?_⟩
  obtain ⟨hplain, hsnap, hfull⟩ :=
    frameIngested d dev cs digits payload _ .ingest s (.head _) hinv hs hm hf hsum hd hcap
  by_cases htrig : addressOf 0 digits = Config.trig s.cfg d
  case neg =>
    obtain ⟨u, hu, hw, ⟨-, hr⟩, -⟩ := hplain htrig
    obtain rfl := Host.Outcome.next.inj (hexec.symm.trans hu)
    exact ⟨hw, by rwa [hw.cfg_eq], by rw [hr, hw.cfg_eq, if_neg htrig]⟩
  case pos =>
    rcases hinv.snapshots.1.lt_or_eq with hroom | hno
    · obtain ⟨u, hu, hw, ⟨-, hr⟩, -⟩ := hsnap htrig hroom
      obtain rfl := Host.Outcome.next.inj (hexec.symm.trans hu)
      exact ⟨hw, by rwa [hw.cfg_eq], by rw [hr, hw.cfg_eq, if_pos htrig]⟩
    · obtain ⟨u, hu, -, -, hhalt, -⟩ := hfull htrig hno
      obtain rfl := Host.Outcome.next.inj (hexec.symm.trans hu)
      exact absurd hhalt (by simp [ht])

end

/-- Settles O40: the first INGEST wrote a frame, so the second finds a frame it may write; off the trigger address it
writes it, at the trigger address it does so where SNAP has room. -/
theorem ingestTwice : Obligations.IngestTwice := by
  intro s t u hinv hs hst ht hres htu
  obtain ⟨d, dev, digits, payload, cs, hf, hsum, hw, hcap, hr1⟩ := frameWritten_of_res0_zero hinv hs hst ht hres
  have htinv : t.Inv := exec_command_inv (i := .ingest) (by simp [IsCommand]) hinv hst
  obtain ⟨hplain, hsnap, hfull⟩ := frameIngested d dev cs digits payload _ .ingest t (.head _) htinv ht
    (hw.holds hinv.holds_message) hf hsum (.inr hw.dialect_eq) hcap
  have written (hw' : FrameWritten t u d (addressOf 0 digits) payload) (hr : Results u 0 t.res1)
      (hc : u.snapCount.toNat = t.snapCount.toNat + t.res1.toNat) :
      (SameSpace .dmem t u ∧ u.dialect = t.dialect)
      ∧ (u.halt = false → Results u 0 t.res1 ∧ u.snapCount.toNat = t.snapCount.toNat + t.res1.toNat)
      ∧ (u.halt = true → EndsFatal t u .capacity 2 ∧ t.res1 = 1 ∧ t.snapCount.toNat = t.cfg.snapMax) :=
    ⟨hw.again hw', fun _ => ⟨hr, hc⟩, fun h => absurd h (by simp [hw'.halt_eq, ht])⟩
  by_cases htrig : addressOf 0 digits = Config.trig t.cfg d
  case neg =>
    rw [if_neg htrig] at hr1
    obtain ⟨v, hv, hw', hr, hc, -⟩ := hplain htrig
    obtain rfl := Host.Outcome.next.inj (htu.symm.trans hv)
    exact written hw' (by rwa [hr1]) (by rw [hc, hr1]; rfl)
  case pos =>
    rw [if_pos htrig] at hr1
    rcases htinv.snapshots.1.lt_or_eq with hroom | hno
    · obtain ⟨v, hv, hw', hr, hc, -⟩ := hsnap htrig hroom
      obtain rfl := Host.Outcome.next.inj (htu.symm.trans hv)
      exact written hw' (by rwa [hr1]) (by rw [hc, hr1]; rfl)
    · obtain ⟨v, hv, hfatal⟩ := hfull htrig hno
      obtain rfl := Host.Outcome.next.inj (htu.symm.trans hv)
      obtain ⟨-, -, hhalt, -, -, -, -, -, -, -, -, ⟨hdialect, -⟩, -, hspaces⟩ := id hfatal
      exact ⟨⟨hspaces .dmem, hdialect⟩, fun h => absurd hhalt (by simp [h]), fun _ => ⟨hfatal, hr1, hno⟩⟩

end Sys2Proof.Machine
end

section
/-! Emission: the bytes of a frame, the frames appended to OUT, and OUT_CLEAR (R200 to R206). -/

namespace Sys2Proof.Machine

/-! ## The checksum (R95, R203) -/

theorem checksumOf_lt (bs : List Byte) : (checksumOf bs).toNat < 0x80 := by
  rw [checksumOf_toNat]
  exact Nat.mod_lt _ (by decide)

/-- Bytes and their checksum sum to 0 mod 128. -/
theorem sumBytes_checksumOf (bs : List Byte) : sumBytes (bs ++ [checksumOf bs]) % 128 = 0 := by
  have hsum : sumBytes (bs ++ [checksumOf bs]) = sumBytes bs + (checksumOf bs).toNat := sumBytes_append ..
  rw [hsum, checksumOf_toNat]
  omega

theorem checksumOf_eq_zero {bs : List Byte} (h : sumBytes bs % 128 = 0) : checksumOf bs = 0 := by
  rw [checksumOf, h]
  rfl

/-- Settles O6: the layout is the definition's; the checksum's laws are those of `checksumOf`. -/
theorem emittedChecksum : Obligations.EmittedChecksum := by
  intro d dev addr payload
  refine ⟨addressDigits d.digits addr, checksumOf (addressDigits d.digits addr ++ payload), rfl, rfl, ?length,
    checksumOf_lt _, sumBytes_checksumOf _, checksumOf_eq_zero⟩
  rw [frameBytes_length, Nat.add_comm payload.length]

/-! ## Bytes appended to OUT (R200, R205) -/

/-- OUT has grown by these bytes, and nothing else has changed but STATUS and the results. -/
def AppendsOut (s t : State) (bytes : List Byte) : Prop :=
  t.outLen.toNat = s.outLen.toNat + bytes.length
    ∧ (∀ a, t.cell .out a = if s.outLen.toNat ≤ a ∧ a < s.outLen.toNat + bytes.length
        then bytes[a - s.outLen.toNat]? else s.cell .out a)
    ∧ SameSpacesBut .out s t ∧ t.xlen = s.xlen ∧ SameHostSide s t ∧ SameErrors s t ∧ SameWarnings s t
    ∧ SameStream s t ∧ SameMessage s t ∧ SameImage s t

theorem appendsOut_appendOut {s : State} (h : s.Inv) {bytes : List Byte}
    (hfit : s.outLen.toNat + bytes.length ≤ s.cfg.outBytes) : AppendsOut s (appendOut bytes s) bytes := by
  obtain ⟨-, hlen⟩ := appendOut_inv h hfit
  refine ⟨hlen, fun a => s.writeBytes_cell .out _ bytes a (h.spaces .out).1, fun sp hsp a => ?others, rfl,
    ⟨rfl, rfl, rfl, rfl, rfl, rfl, rfl, rfl, rfl⟩, ⟨rfl, rfl, rfl, rfl⟩, ⟨rfl, rfl⟩, ⟨rfl, rfl, rfl, rfl, rfl, rfl⟩,
    ⟨rfl, rfl⟩, ⟨rfl, rfl⟩⟩
  exact s.writeBytes_cell_other _ bytes a hsp

/-- The end of the command that appended the bytes. -/
theorem AppendsOut.results_complete {s t : State} {bytes : List Byte} (h : AppendsOut s t bytes) (r0 r1 : Word) :
    AppendsOut s (t.results r0 r1).complete bytes := by
  obtain ⟨hlen, hout, hspaces, hfields⟩ := h
  refine ⟨hlen, fun a => ?_, fun sp hsp a => ?_, hfields⟩
  · rw [State.complete_cell, State.results_cell, hout]
  · rw [State.complete_cell, State.results_cell, hspaces sp hsp]

/-- Settles O43: a frame that fits is one append, any other raises. -/
theorem emittedFrame : Obligations.EmittedFrame := by
  intro d dev addr payload s hinv hs
  simp only [← frameBytes_length d dev addr payload]
  refine ⟨fun hfull => runElement_raise (body := dt1EmitBody d dev addr payload) hs (if_pos hfull),
    fun hfit => ?fits⟩
  have hbody : dt1EmitBody d dev addr payload s = .go (appendFrame d dev addr payload s) :=
    if_neg (Nat.not_lt.mpr hfit)
  obtain ⟨hlen, hout, hspaces, hxlen, hside, herrors, hwarnings, hstream, hmessage, himage⟩ :=
    appendsOut_appendOut hinv hfit
  exact ⟨_, runElement_go hs hbody, rfl, rfl, hlen, hout, hspaces, hxlen, hside, herrors, hwarnings, ⟨rfl, rfl⟩,
    hstream, hmessage, himage⟩

/-! ## EMIT's operands (R62, R82) -/

theorem selectDialect_eq_some {v : Word} {d : Dialect} : selectDialect v = some d ↔ v = d.byte.setWidth 32 := by
  unfold selectDialect
  split_ifs with h3D h57
  · subst h3D; cases d <;> decide
  · subst h57; cases d <;> decide
  · cases d
    · exact iff_of_false nofun h3D
    · exact iff_of_false nofun h57

theorem selectDialect_eq_none {v : Word} : selectDialect v = none ↔ v ≠ 0x3D ∧ v ≠ 0x57 := by
  rw [Option.eq_none_iff_forall_ne_some]
  simp only [ne_eq, selectDialect_eq_some]
  exact ⟨fun h => ⟨h .d3D, h .d57⟩, fun h d => by cases d; exacts [h.1, h.2]⟩

/-- The selector's three values, in the order R62 lists the spaces. -/
theorem selectSpace_eq (v : Word) : selectSpace v = [Space.input, .xbuf, .dmem][v.toNat]? := by
  unfold selectSpace
  split_ifs with h0 h1 h2
  · rw [h0]; rfl
  · rw [h1]; rfl
  · rw [h2]; rfl
  · have hne : ∀ n : Word, v ≠ n → v.toNat ≠ n.toNat := fun n h e => h (BitVec.eq_of_toNat_eq e)
    have h0 : v.toNat ≠ 0 := hne 0 h0
    have h1 : v.toNat ≠ 1 := hne 1 h1
    have h2 : v.toNat ≠ 2 := hne 2 h2
    exact (List.getElem?_eq_none (by simp only [List.length_cons, List.length_nil]; omega)).symm

/-! ## EMIT's rule (R200, R205) -/

theorem emitBody_badOperand {s : State}
    (h : (s.lat.a0 ≠ 0x3D ∧ s.lat.a0 ≠ 0x57) ∨ 2 < s.lat.a2.toNat ∨ 0x7F < s.lat.a5.toNat) :
    emitBody s = .raise s.commandError := by
  unfold emitBody
  split
  case h_2 => rfl
  case h_1 d sp hd hsp =>
    rcases h with h | h | h
    · cases (selectDialect_eq_none.mpr h).symm.trans hd
    · cases (List.getElem?_eq_none h).symm.trans ((selectSpace_eq _).symm.trans hsp)
    · exact if_pos h

section
variable {s : State} {d : Dialect} {sp : Space} (hd : s.lat.a0 = d.byte.setWidth 32)
  (hsp : [Space.input, .xbuf, .dmem][s.lat.a2.toNat]? = some sp) (hdev : ¬ 0x7F < s.lat.a5.toNat)
include hd hsp hdev

/-- EMIT's rule with operands inside their constraints: the two ranges, then the room in OUT. -/
theorem emitBody_eq : emitBody s =
    if Config.size s.cfg sp < s.lat.a3.toNat + s.lat.a4.toNat ∨ 128 ^ d.digits < s.lat.a1.toNat + s.lat.a4.toNat then
      .raise s.commandError
    else if s.cfg.outBytes < s.outLen.toNat + frameTotal d s.lat.a4.toNat then .raise (capacityError 3)
    else .done ((emitFrames d (s.lat.a5.setWidth 7) (frameCount s.lat.a4.toNat) s.lat.a1.toNat
      (s.readBytes .source sp s.lat.a3.toNat s.lat.a4.toNat) s).results (wordOf (frameCount s.lat.a4.toNat))
        (wordOf (frameTotal d s.lat.a4.toNat))) := by
  have hd' : selectDialect (s.lat.get .s0) = some d := selectDialect_eq_some.mpr hd
  have hsp' : selectSpace (s.lat.get .s2) = some sp := (selectSpace_eq _).trans hsp
  have hdev' : ¬ s.opnd .s5 > 0x7F := hdev
  simp only [emitBody, hd', hsp', if_neg hdev', State.rangeOk, decide_eq_true_eq, Nat.not_le, gt_iff_lt, ite_or]
  rfl

end

theorem Config.valid_outBytes {c : Config} (h : Config.valid c = true) : c.outBytes < 2 ^ 32 := by
  simp only [Config.valid, Bool.and_eq_true, decide_eq_true_eq] at h
  obtain ⟨⟨-, -, hout⟩, -⟩ := h
  exact hout

/-- The frames of chunks that cover the source are as long as R205 counts. -/
theorem emittedBytes_length (d : Dialect) (dev : BitVec 7) (addr : Nat) (src : List Byte) :
    (emittedBytes d dev addr src).length = frameTotal d src.length := by
  rw [← chunkFrames_eq, chunkFrames_length _ _ _ _ _ (by omega)]
  rfl

/-- EMIT's frames are one append of the bytes of all of them. -/
theorem emitFrames_emittedBytes {s : State} (h : s.Inv) {d : Dialect} {dev : BitVec 7} {addr len : Nat}
    {src : List Byte} (hlen : src.length = len) (hfit : s.outLen.toNat + frameTotal d len ≤ s.cfg.outBytes) :
    emitFrames d dev (frameCount len) addr src s = appendOut (emittedBytes d dev addr src) s := by
  subst hlen
  have hout := Config.valid_outBytes h.cfgValid
  have hcover : src.length ≤ 256 * frameCount src.length := by simp only [frameCount, maxChunk]; omega
  rw [emitFrames_eq _ _ _ _ hcover (hfit.trans_lt hout), ← chunkFrames_eq]
  rfl

/-- Frames that fit OUT keep their number and their total length to a register (R205). -/
theorem emit_counts_fit {s : State} (h : s.Inv) {d : Dialect} {len : Nat}
    (hfit : s.outLen.toNat + frameTotal d len ≤ s.cfg.outBytes) :
    (wordOf (frameCount len)).toNat = frameCount len ∧ (wordOf (frameTotal d len)).toNat = frameTotal d len := by
  have hout := Config.valid_outBytes h.cfgValid
  have hcount : frameCount len ≤ frameTotal d len :=
    (Nat.le_mul_of_pos_right _ (by omega)).trans (Nat.le_add_left ..)
  exact ⟨wordOf_of_lt (by omega), wordOf_of_lt (by omega)⟩

/-- Settles O42: EMIT's rule in the order of its conditions; the frames that fit are one append. -/
theorem emitResult : Obligations.EmitResult := by
  refine ⟨rfl, fun s hinv hs => ?_⟩
  have hexec : exec .emit s = .next (s.settle (emitBody s)) := runCommand_unhalted hs
  refine ⟨fun hbad => ⟨_, hexec, ?operand⟩, fun d sp hok hd hsp => ?operandsOk⟩
  case operand =>
    rw [emitBody_badOperand hbad]
    exact endsFatal_takeFatal s s.commandError
  case operandsOk =>
    rw [emitBody_eq hd hsp fun hdev => hok (.inr (.inr hdev))] at hexec
    refine ⟨fun hrange => ⟨_, hexec, ?range⟩, fun hrange hfull => ⟨_, hexec, ?capacity⟩,
      fun hrange (hfit : _ + frameTotal d _ ≤ _) => ?frames⟩
    case range =>
      rw [if_pos hrange]
      exact endsFatal_takeFatal s s.commandError
    case capacity =>
      rw [if_neg hrange, if_pos (show _ < _ + frameTotal d _ from hfull)]
      exact endsFatal_takeFatal s (capacityError 3)
    case frames =>
      have hsrc := s.readBytes_length .source sp s.lat.a3.toNat s.lat.a4.toNat
      have hlen := (emittedBytes_length d (s.lat.a5.setWidth 7) s.lat.a1.toNat _).trans (congrArg (frameTotal d) hsrc)
      obtain ⟨hcount, htotal⟩ := emit_counts_fit hinv hfit
      rw [if_neg hrange, if_neg (Nat.not_lt.mpr hfit), emitFrames_emittedBytes hinv hsrc hfit] at hexec
      have happend := (appendsOut_appendOut hinv (hlen.symm ▸ hfit)).results_complete
        (wordOf (frameCount s.lat.a4.toNat)) (wordOf (frameTotal d s.lat.a4.toNat))
      rw [AppendsOut, hlen] at happend
      exact ⟨hlen, _, hexec, ⟨rfl, rfl⟩, hcount, htotal, happend⟩

/-! ## OUT_CLEAR (R206) -/

/-- Settles O44: the rule writes OUT_LEN and the results alone. -/
theorem outClearResult : Obligations.OutClearResult := by
  refine ⟨rfl, fun s hs => ⟨_, runCommand_unhalted (body := outClearBody) hs, ?_⟩⟩
  obtain ⟨hend, hresults, hside, herrors, hwarnings, hstream, hmessage, himage, ⟨hout, hxlen⟩, hspaces⟩ :=
    results_complete_frame { s with outLen := 0 } 0 0
  exact ⟨hend, hout, hxlen, hresults, hside, herrors, hwarnings, hstream, hmessage, himage,
    fun sp a => (hspaces sp a).trans (by cases sp <;> rfl)⟩

end Sys2Proof.Machine
end

section
/-! Emitted bytes bound as a stream and drained into an image: frame by frame the payload comes back (R98, R123, R172,
R207). -/

namespace Sys2Proof.Machine

/-! ## The bytes of a frame between its markers (R202) -/

/-- A frame without its start and end markers. -/
def frameInner (d : Dialect) (dev : BitVec 7) (addr : Nat) (payload : List Byte) : List Byte :=
  dataSetHeader d (0#1 ++ dev : BitVec 8) ++ addressDigits d.digits addr ++ payload
    ++ [checksumOf (addressDigits d.digits addr ++ payload)]

theorem frameBytes_eq (d : Dialect) (dev : BitVec 7) (addr : Nat) (payload : List Byte) :
    frameBytes d dev addr payload = startMarker :: (frameInner d dev addr payload ++ [endMarker]) := by
  simp [frameBytes, frameInner]

theorem frameInner_length (d : Dialect) (dev : BitVec 7) (addr : Nat) (payload : List Byte) :
    (frameInner d dev addr payload).length + 2 = payload.length + d.digits + 7 := by
  rw [← frameBytes_length d dev addr payload, frameBytes_eq]
  simp

/-- Between the markers of a frame of 7-bit payload stand 7-bit bytes. -/
theorem frameInner_lt {d : Dialect} {dev : BitVec 7} {addr : Nat} {payload : List Byte}
    (h : ∀ b ∈ payload, b.toNat < 0x80) : ∀ b ∈ frameInner d dev addr payload, b.toNat < 0x80 := by
  have hheader : ∀ b ∈ dataSetHeader d (0#1 ++ dev : BitVec 8), b.toNat < 0x80 := by
    have hd : d.byte.toNat < 0x80 := by cases d <;> decide
    have hdev := (low_byte dev).1
    simp only [dataSetHeader, List.forall_mem_cons, List.not_mem_nil, false_imp_iff, implies_true, and_true]
    exact ⟨by decide, hdev, hd, by decide⟩
  intro b hb
  simp only [frameInner, List.mem_append, List.mem_singleton] at hb
  obtain ((hb | hb) | hb) | rfl := hb
  · exact hheader b hb
  · exact addressDigits_lt _ _ b hb
  · exact h b hb
  · exact checksumOf_lt _

theorem ne_endMarker_of_lt {b : Byte} (h : b.toNat < 0x80) : b ≠ endMarker := by
  rintro rfl
  exact absurd h (by decide)

/-- What stands behind the start marker is a frame to INGEST (R93, R173). -/
theorem isFrame_frameInner (d : Dialect) (dev : BitVec 7) (addr : Nat) {payload : List Byte} (h : payload ≠ []) :
    IsFrame d (0#1 ++ dev : BitVec 8) (addressDigits d.digits addr) payload
      (checksumOf (addressDigits d.digits addr ++ payload)) (frameInner d dev addr payload ++ [endMarker]) :=
  ⟨by simp [frameInner, dataSetHeader, manufacturerId, dataSetCommand, endMarker], addressDigits_length _ _,
    addressDigits_lt _ _, h⟩

/-- A stream of frames is empty or begins with a start marker. -/
theorem chunkFrames_head {d : Dialect} {dev : BitVec 7} {c addr : Nat} {src : List Byte} {b : Byte}
    (h : (chunkFrames d dev c addr src)[0]? = some b) : b = startMarker := by
  cases c with
  | zero => cases h
  | succ c => rw [chunkFrames, frameBytes_eq] at h; exact (Option.some.inj h).symm

/-! ## What is left of a stream -/

/-- IN from the cursor to its end holds these bytes. -/
def Unread (s : State) (bs : List Byte) : Prop :=
  s.iptr.toNat + bs.length = s.inLen.toNat ∧ ∀ i, i < bs.length → s.cell .input (s.iptr.toNat + i) = bs[i]?

theorem Unread.readByte {s : State} {bs : List Byte} (h : Unread s bs) {i : Nat} {b : Byte} (hb : bs[i]? = some b)
    (site : ReadSite) : s.readByte site .input (s.iptr.toNat + i) = b :=
  State.readByte_of_cell ((h.2 i (List.getElem?_eq_some_iff.mp hb).1).trans hb)

/-- The cursor past the first bytes leaves the others. -/
theorem Unread.advance {s u : State} {xs ys : List Byte} (h : Unread s (xs ++ ys))
    (hiptr : u.iptr.toNat = s.iptr.toNat + xs.length) (hlen : u.inLen = s.inLen) (hin : SameSpace .input s u) :
    Unread u ys := by
  obtain ⟨hend, hcells⟩ := h
  rw [List.length_append] at hend hcells
  refine ⟨by rw [hiptr, hlen]; omega, fun i hi => ?_⟩
  rw [hin, hiptr, Nat.add_assoc, hcells _ (by omega), List.getElem?_append_right (by omega), Nat.add_sub_cancel_left]

/-- An unread stream that does not begin with the first byte of a header chunk is no SMF (R84). -/
theorem Unread.not_smf {s : State} {bs : List Byte} (h : Unread s bs) (hiptr : s.iptr = 0)
    (hhead : ∀ b, bs[0]? = some b → b = startMarker) :
    ¬ (4 ≤ s.inLen.toNat ∧ s.readBytes .sniff .input 0 4 = [0x4D, 0x54, 0x68, 0x64]) := by
  rintro ⟨h4, htag⟩
  have hlen : bs.length = s.inLen.toNat := by
    obtain ⟨hend, -⟩ := h
    rw [← hend, hiptr]
    exact (Nat.zero_add _).symm
  cases bs with
  | nil => simp at hlen; omega
  | cons b bs =>
    have hread : s.readByte .sniff .input (s.iptr.toNat + 0) = b := h.readByte (i := 0) rfl _
    rw [hiptr, hhead b rfl] at hread
    cases hread.symm.trans (List.cons.inj htag).1

/-! ## One message drained -/

section
variable {s : State} {inner rest : List Byte} (h : Unread s (startMarker :: (inner ++ [endMarker]) ++ rest))
include h

/-- The bytes behind the start marker read as the body. -/
theorem Unread.read_body (site : ReadSite) {i : Nat} (hi : i < inner.length + 1) :
    (inner ++ [endMarker])[i]? = some (s.readByte site .input (s.iptr.toNat + 1 + i)) := by
  have hbody : (startMarker :: (inner ++ [endMarker]) ++ rest)[i + 1]? = (inner ++ [endMarker])[i]? := by
    rw [List.cons_append, List.getElem?_cons_succ, List.getElem?_append_left (by simpa using hi)]
  have hb := List.getElem?_eq_getElem (l := inner ++ [endMarker]) (i := i) (by simpa using hi)
  rw [hb, Nat.add_assoc, Nat.add_comm 1 i, h.readByte (hbody.trans hb)]

/-- The body of the raw message at the cursor ends with the first end marker. -/
theorem Unread.rawBody (hinner : ∀ b ∈ inner, b ≠ endMarker) : RawBody s s.iptr.toNat (inner.length + 1) true := by
  refine ⟨?inside, by omega, ?last, fun k hk hk' => ?others⟩
  case inside =>
    obtain ⟨hlen, -⟩ := h
    simp only [List.cons_append, List.length_cons, List.length_append, List.length_nil] at hlen
    omega
  case last =>
    have hread := h.read_body .rawFind (i := inner.length) (by omega)
    rw [List.getElem?_concat_length, Nat.add_assoc, Nat.add_comm 1] at hread
    exact (Option.some.inj hread).symm
  case others =>
    obtain ⟨i, rfl⟩ := Nat.exists_eq_add_of_le hk
    have hread := h.read_body .rawFind (i := i) (by omega)
    rw [List.getElem?_append_left (by omega)] at hread
    exact hinner _ (List.mem_of_getElem? hread)

end

section
variable {s : State} (hinv : s.Inv) (hs : s.halt = false)
include hinv hs

/-- In raw mode the next message is delivered into MSG up to its first end marker (R123). -/
theorem exec_demuxNext_rawMessage (hraw : s.dmode = .raw) {inner rest : List Byte}
    (hunread : Unread s (startMarker :: (inner ++ [endMarker]) ++ rest)) (hinner : ∀ b ∈ inner, b ≠ endMarker)
    (hfit : inner.length + 1 ≤ s.cfg.msgBytes) :
    ∃ t, exec .demuxNext s = .next t ∧ RawDelivered s t s.iptr.toNat (inner.length + 1) true
      ∧ Holds t (inner ++ [endMarker]) := by
  have hbody := hunread.rawBody hinner
  obtain ⟨hinside, -⟩ := id hbody
  have hmark : s.readByte .rawScan .input s.iptr.toNat = startMarker := hunread.readByte (i := 0) rfl _
  obtain ⟨-, hmessage⟩ := demuxRawMessage s hinv hs hraw
  obtain ⟨-, hdelivers⟩ := hmessage s.iptr.toNat _ true le_rfl (by omega) hmark (fun k hk hk' => by omega) hbody
  obtain ⟨t, hexec, hdel⟩ := hdelivers hfit
  refine ⟨t, hexec, hdel, ?_⟩
  obtain ⟨⟨-, hlen, -, -, -, hcells, -⟩, -⟩ := hdel
  have hbodyLen : (inner ++ [endMarker]).length = inner.length + 1 := List.length_append
  refine ⟨hlen.trans hbodyLen.symm, fun i hi => ?_⟩
  rw [hbodyLen] at hi
  rw [hcells, if_pos hi, hunread.read_body _ hi]

/-- A frame in MSG that is sound, inside CAP, of a dialect the run takes and with room for its snapshot is written;
off the trigger address it takes no snapshot (R172, R176, R177). -/
theorem exec_ingest_written {d : Dialect} {dev cs : Byte} {digits payload m : List Byte} (hm : Holds s m)
    (hf : IsFrame d dev digits payload cs m) (hsum : sumBytes (digits ++ payload ++ [cs]) % 128 = 0)
    (hd : s.dialect = none ∨ s.dialect = some d) (hcap : addressOf 0 digits + payload.length ≤ Config.cap s.cfg d)
    (hroom : addressOf 0 digits = Config.trig s.cfg d → s.snapCount.toNat < s.cfg.snapMax) :
    ∃ t, exec .ingest s = .next t ∧ FrameWritten s t d (addressOf 0 digits) payload
      ∧ (addressOf 0 digits ≠ Config.trig s.cfg d → t.snapCount = s.snapCount) := by
  obtain ⟨hplain, hsnap, -⟩ := frameIngested d dev cs digits payload m .ingest s (.head _) hinv hs hm hf hsum hd hcap
  by_cases htrig : addressOf 0 digits = Config.trig s.cfg d
  · obtain ⟨t, hexec, hw, -⟩ := hsnap htrig (hroom htrig)
    exact ⟨t, hexec, hw, absurd htrig⟩
  · obtain ⟨t, hexec, hw, -, hcount, -⟩ := hplain htrig
    exact ⟨t, hexec, hw, fun _ => hcount⟩

end

/-! ## A drain -/

/-- A drain of the bytes left in raw mode, into an image of dialect `d`, may go on. -/
structure Draining (s : State) (d : Dialect) (bs : List Byte) : Prop where
  inv : s.Inv
  running : s.halt = false
  raw : s.dmode = .raw
  dialect : s.dialect = none ∨ s.dialect = some d
  unread : Unread s bs

/-- A drain that led from `s` to `t` wrote this payload to DMEM, and did not halt or warn. -/
def DrainedInto (s t : State) (addr : Nat) (payload : List Byte) : Prop :=
  t.halt = false ∧ SameWarnings s t
    ∧ ∀ a, t.cell .dmem a = if addr ≤ a ∧ a < addr + payload.length then payload[a - addr]? else s.cell .dmem a

/-- Payloads written one behind the other are one payload. -/
theorem DrainedInto.append {s t u : State} {addr : Nat} {xs ys : List Byte} (h : DrainedInto s t addr xs)
    (h' : DrainedInto t u (addr + xs.length) ys) : DrainedInto s u addr (xs ++ ys) := by
  obtain ⟨-, ⟨hwarn, hwcnt⟩, hcells⟩ := h
  obtain ⟨hhalt, ⟨hwarn', hwcnt'⟩, hcells'⟩ := h'
  refine ⟨hhalt, ⟨hwarn'.trans hwarn, hwcnt'.trans hwcnt⟩, fun a => ?_⟩
  rw [hcells', hcells, List.length_append]
  by_cases hy : addr + xs.length ≤ a ∧ a < addr + xs.length + ys.length
  · rw [if_pos hy, if_pos (by omega), List.getElem?_append_right (by omega), Nat.sub_add_eq]
  · rw [if_neg hy]
    by_cases hx : addr ≤ a ∧ a < addr + xs.length
    · rw [if_pos hx, if_pos (by omega), List.getElem?_append_left (by omega)]
    · rw [if_neg hx, if_neg (by omega)]

theorem Config.valid_msgBytes {c : Config} (h : Config.valid c = true) : 266 ≤ c.msgBytes := by
  simp only [Config.valid, Bool.and_eq_true, decide_eq_true_eq] at h
  obtain ⟨⟨⟨-, hmsg⟩, -⟩, -⟩ := h
  exact hmsg

/-- One frame of the stream drained: delivered by DEMUX_NEXT, written by INGEST. -/
theorem Draining.frame {s : State} {d : Dialect} {dev : BitVec 7} {addr : Nat} {payload rest : List Byte}
    (h : Draining s d (frameBytes d dev addr payload ++ rest)) (hne : payload ≠ []) (hlen : payload.length ≤ 256)
    (hlow : ∀ b ∈ payload, b.toNat < 0x80) (hcap : addr + payload.length ≤ Config.cap s.cfg d)
    (hroom : addr = Config.trig s.cfg d → s.snapCount.toNat < s.cfg.snapMax) :
    ∃ t u, exec .demuxNext s = .next t ∧ t.halt = false ∧ t.res0 ≠ 0 ∧ exec .ingest t = .next u
      ∧ Draining u d rest ∧ DrainedInto s u addr payload ∧ u.cfg = s.cfg
      ∧ (addr ≠ Config.trig s.cfg d → u.snapCount = s.snapCount) := by
  have hmsg := Config.valid_msgBytes h.inv.cfgValid
  have hinner := frameInner_length d dev addr payload
  have hdigits : d.digits ≤ 4 := by cases d <;> decide
  have hunread := h.unread
  rw [frameBytes_eq] at hunread
  obtain ⟨t, hdemux, ⟨hdel, hiptr, -, -, -, hwarn, hmode⟩, hholds⟩ := exec_demuxNext_rawMessage h.inv h.running h.raw
    hunread (fun b hb => ne_endMarker_of_lt (frameInner_lt hlow b hb)) (by omega)
  obtain ⟨-, -, -, hres, -, -, hspaces, htlen, ⟨-, -, -, hcfg, -⟩, ⟨-, -, hhalt, -⟩, ⟨hdialect, hsnap⟩, -⟩ := hdel
  have htinv : t.Inv := exec_command_inv (i := .demuxNext) (by simp [IsCommand]) h.inv hdemux
  have haddr : addressOf 0 (addressDigits d.digits addr) = addr := by
    have hpos := List.length_pos_iff.mpr hne
    obtain ⟨-, hrange, -⟩ := Config.valid_dialect h.inv.cfgValid d
    rw [addressOf_addressDigits _ _ 0 (by omega)]
    omega
  obtain ⟨u, hingest, hw, hcount⟩ := exec_ingest_written htinv (hhalt.trans h.running) hholds
    (isFrame_frameInner d dev addr hne) (sumBytes_checksumOf _) (hdialect ▸ h.dialect)
    (by rw [haddr, hcfg]; exact hcap) (by rw [haddr, hcfg, hsnap]; exact hroom)
  have huinv : u.Inv := exec_command_inv (i := .ingest) (by simp [IsCommand]) htinv hingest
  have huhalt : u.halt = false := hw.halt_eq.trans (hhalt.trans h.running)
  rw [haddr] at hw hcount
  obtain ⟨-, hudialect, hdmem, hothers, ⟨-, -, -, hucfg, -⟩, -, ⟨huwarn, huwcnt⟩, ⟨hulen, huiptr, humode, -⟩, -⟩ := hw
  refine ⟨t, u, hdemux, hhalt.trans h.running, by rw [hres]; decide, hingest,
    ⟨huinv, huhalt, humode.trans (hmode.trans h.raw), .inr hudialect, ?unread⟩,
    ⟨huhalt, ⟨huwarn.trans hwarn.1, huwcnt.trans hwarn.2⟩, fun a => ?cells⟩, hucfg.trans hcfg, fun htrig => ?count⟩
  case unread =>
    refine h.unread.advance ?_ (hulen.trans htlen) fun a => ?_
    · rw [huiptr, hiptr, frameBytes_length]
      omega
    · exact (hothers .input (by decide) (by decide) a).trans (hspaces .input (by decide) a)
  case cells =>
    rw [hdmem, hspaces .dmem (by decide)]
  case count =>
    rw [hcount (by rwa [hcfg]), hsnap]

/-- Where the rule goes on from `r` and does not halt there, the command ends as from `r`. -/
theorem ContinuesAs.exec_eq {s r t : State} (h : ContinuesAs s r) (hr : exec .demuxNext r = .next t)
    (ht : t.halt = false) : exec .demuxNext s = .next t := by
  obtain ⟨u, hu, hs⟩ := h
  obtain rfl := Host.Outcome.next.inj (hr.symm.trans hu)
  rw [hs, ht]
  rfl

theorem continuesAs_refl {s : State} (hs : s.halt = false) : ContinuesAs s s := continuesAs_of_body hs hs rfl

/-- A drain with nothing left ends at once. -/
theorem Draining.over {s : State} {d : Dialect} (h : Draining s d []) (addr : Nat) :
    ∃ t, exec .demuxNext s = .next t ∧ t.res0 = 0 ∧ DrainedInto s t addr [] := by
  obtain ⟨hend, -⟩ := h.unread
  rw [List.length_nil] at hend
  obtain ⟨hover, -⟩ := demuxRawMessage s h.inv h.running h.raw
  obtain ⟨t, hexec, ⟨-, ⟨-, -, hres, -⟩, -, -, -, ⟨-, -, hhalt, -⟩, -, -, hspaces⟩, -, hwarn, -⟩ :=
    hover fun k hk hk' => by omega
  refine ⟨t, hexec, hres, hhalt.trans h.running, hwarn, fun a => ?_⟩
  rw [hspaces, List.length_nil, if_neg (by omega)]

/-- The frames of a payload drained, chunk by chunk, from a state whose first DEMUX_NEXT goes on as one from `r`. -/
theorem Draining.drains {d : Dialect} {dev : BitVec 7} {c addr : Nat} {src : List Byte} {s r : State}
    (h : Draining r d (chunkFrames d dev c addr src)) (hs : ContinuesAs s r) (hc : c = (src.length + 255) / 256)
    (hlow : ∀ b ∈ src, b.toNat < 0x80) (hcap : addr + src.length ≤ Config.cap r.cfg d)
    (hroom : (∃ k, 256 * k < src.length ∧ addr + 256 * k = Config.trig r.cfg d) → r.snapCount.toNat < r.cfg.snapMax) :
    ∃ t, Drains s t ∧ DrainedInto r t addr src := by
  induction c generalizing addr src s r with
  | zero =>
    obtain rfl : src = [] := List.length_eq_zero_iff.mp (by omega)
    obtain ⟨t, hexec, hres, hinto⟩ := h.over addr
    exact ⟨t, .over (hs.exec_eq hexec hinto.1) hres, hinto⟩
  | succ c ih =>
    have hchunk : (src.take maxChunk).length = min 256 src.length := List.length_take
    have hrest : (src.drop maxChunk).length = src.length - 256 := List.length_drop
    obtain ⟨t, u, hdemux, hhalt, hres, hingest, hnext, hinto, hcfg, hcount⟩ := Draining.frame h
      (List.length_pos_iff.mp (by omega)) (by omega) (fun b hb => hlow b (List.mem_of_mem_take hb)) (by omega)
      (fun htrig => hroom ⟨0, by omega, htrig⟩)
    have hroom' : (∃ k, 256 * k < (src.drop maxChunk).length
        ∧ addr + (src.take maxChunk).length + 256 * k = Config.trig u.cfg d) → u.snapCount.toNat < u.cfg.snapMax := by
      rintro ⟨k, hk, htrig⟩
      rw [hcfg] at htrig ⊢
      rw [hcount (by omega)]
      exact hroom ⟨k + 1, by omega, by omega⟩
    obtain ⟨v, hdrains, hinto'⟩ := ih hnext (continuesAs_refl hnext.running) (by omega)
      (fun b hb => hlow b (List.mem_of_mem_drop hb)) (by rw [hcfg]; omega) hroom'
    have hall := hinto.append hinto'
    rw [List.take_append_drop] at hall
    exact ⟨v, .message (hs.exec_eq hdemux hhalt) hres hingest hdrains, hall⟩

/-- Settles O45: the stream is no SMF, since its first byte is a start marker; in raw mode it is drained chunk by
chunk. -/
theorem emitRoundTrip : Obligations.EmitRoundTrip := by
  intro d dev addr payload s hinv hs hunset hlow hcap hd hroom hlen hcells
  obtain ⟨hiptr, -⟩ := hinv.stream.1 hunset
  rw [← chunkFrames_eq] at hlen hcells
  have hunread : Unread s (chunkFrames d dev ((payload.length + 255) / 256) addr payload) := by
    rw [Unread, hiptr, hlen]
    exact ⟨Nat.zero_add _, fun i hi => by rw [← hcells i (by rwa [hlen])]; congr 1; exact Nat.zero_add i⟩
  obtain ⟨hselects, -⟩ := demuxSelectsMode s hs hunset
  have hdraining : Draining { s with dmode := .raw } d
      (chunkFrames d dev ((payload.length + 255) / 256) addr payload) :=
    ⟨hinv.raw (iptr := s.iptr) hinv.cursor.2 (.inl hunset), hs, rfl, hd, hunread⟩
  have hraw := hselects (hunread.not_smf hiptr fun _ => chunkFrames_head)
  obtain ⟨t, hdrains, hinto⟩ := hdraining.drains hraw rfl hlow hcap hroom
  exact ⟨t, hdrains, hinto⟩

end Sys2Proof.Machine
end

section
/-! The CRC32 validator and the DEFLATE decompressor: the function's check value, CRC32 in its three modes, and INFLATE
whatever the codec answers (R220 to R227). -/

namespace Sys2Proof.Machine

/-! ## The CRC32 function (R221) -/

/-- Settles O47: the nine bytes and the empty sequence run through the function. -/
theorem crcCheckValue : Obligations.CrcCheckValue := ⟨by decide +kernel, rfl⟩

/-! ## CRC32's operands (R62, R82) -/

/-- The mode's three values, in the order R82 lists them. -/
theorem selectCrcMode_cases (v : Word) :
    (selectCrcMode v = none ∧ 2 < v.toNat) ∨ (selectCrcMode v = some .compute ∧ v = 0)
      ∨ (selectCrcMode v = some .fatal ∧ v = 1) ∨ (selectCrcMode v = some .advisory ∧ v = 2) := by
  unfold selectCrcMode
  split_ifs with h0 h1 h2
  · exact .inr (.inl ⟨rfl, h0⟩)
  · exact .inr (.inr (.inl ⟨rfl, h1⟩))
  · exact .inr (.inr (.inr ⟨rfl, h2⟩))
  · exact .inl ⟨rfl, by bv_omega⟩

theorem selectCrcMode_eq_none {v : Word} (h : 2 < v.toNat) : selectCrcMode v = none := by
  rcases selectCrcMode_cases v with ⟨hnone, -⟩ | ⟨-, rfl⟩ | ⟨-, rfl⟩ | ⟨-, rfl⟩
  · exact hnone
  all_goals exact absurd h (by decide)

/-- An operand inside its constraint selects a mode, the fatal one by 1 and the advisory one by 2. -/
theorem selectCrcMode_eq_some {v : Word} (h : ¬ 2 < v.toNat) :
    ∃ mode, selectCrcMode v = some mode ∧ (v = 1 ↔ mode = .fatal) ∧ (v = 2 ↔ mode = .advisory) := by
  rcases selectCrcMode_cases v with ⟨-, hout⟩ | ⟨hmode, rfl⟩ | ⟨hmode, rfl⟩ | ⟨hmode, rfl⟩
  · exact absurd hout h
  all_goals exact ⟨_, hmode, by decide, by decide⟩

/-! ## CRC32's rule (R220, R222, R223) -/

theorem crc32Body_badOperand {s : State} (h : 2 < s.lat.a0.toNat ∨ 2 < s.lat.a4.toNat) :
    crc32Body s = .raise s.commandError := by
  unfold crc32Body
  split
  case h_2 => rfl
  case h_1 sp mode hsp hmode =>
    rcases h with h | h
    · cases (List.getElem?_eq_none h).symm.trans ((selectSpace_eq _).symm.trans hsp)
    · cases (selectCrcMode_eq_none h).symm.trans hmode

/-- CRC32's rule with operands inside their constraints: the range, then the verdict on the value. -/
theorem crc32Body_eq {s : State} {sp : Space} {mode : CrcMode}
    (hsp : [Space.input, .xbuf, .dmem][s.lat.a0.toNat]? = some sp) (hmode : selectCrcMode s.lat.a4 = some mode) :
    crc32Body s = if Config.size s.cfg sp < s.lat.a1.toNat + s.lat.a2.toNat then .raise s.commandError
      else crcVerdict mode s.lat.a3 (crcOf (s.readBytes .source sp s.lat.a1.toNat s.lat.a2.toNat)) s := by
  have hsp' : selectSpace (s.lat.get .s0) = some sp := (selectSpace_eq _).trans hsp
  have hmode' : selectCrcMode (s.lat.get .s4) = some mode := hmode
  simp only [crc32Body, hsp', hmode', State.rangeOk, decide_eq_true_eq, Nat.not_le]
  rfl

/-- A match gives the value and 1 in every mode. -/
theorem crcVerdict_match {expected computed : Word} (h : computed = expected) (mode : CrcMode) (s : State) :
    crcVerdict mode expected computed s = .done (s.results computed 1) := if_pos h

section
variable {expected computed : Word} (h : computed ≠ expected) (s : State)
include h

theorem crcVerdict_compute : crcVerdict .compute expected computed s = .done (s.results computed 0) := if_neg h

theorem crcVerdict_fatal : crcVerdict .fatal expected computed s = .raise ⟨.containerCrc, computed⟩ := if_neg h

theorem crcVerdict_advisory :
    crcVerdict .advisory expected computed s = .done ((s.warnOn .integrity).results computed 0) := if_neg h

end

/-- A verdict that is no error leaves nothing but the results, and the warning of an advisory mismatch. -/
theorem crcVerdict_completes {mode : CrcMode} {expected computed : Word} (h : mode = .fatal → computed = expected)
    {s t : State} (ht : t = s.settle (crcVerdict mode expected computed s)) :
    Completed t ∧ Results t computed (if computed = expected then 1 else 0)
      ∧ (if mode = .advisory ∧ computed ≠ expected then Warned s t .integrity else SameWarnings s t)
      ∧ SameHostSide s t ∧ SameErrors s t ∧ SameStream s t ∧ SameMessage s t ∧ SameImage s t ∧ SameSinks s t
      ∧ SameSpaces s t := by
  subst ht
  by_cases heq : computed = expected
  · obtain ⟨hend, hresults, hside, herrors, hwarnings, hrest⟩ := results_complete_frame s computed 1
    rw [crcVerdict_match heq, if_pos heq, if_neg fun hwarn => hwarn.2 heq]
    exact ⟨hend, hresults, hwarnings, hside, herrors, hrest⟩
  · rw [if_neg heq]
    cases mode with
    | compute =>
      obtain ⟨hend, hresults, hside, herrors, hwarnings, hrest⟩ := results_complete_frame s computed 0
      rw [crcVerdict_compute heq, if_neg nofun]
      exact ⟨hend, hresults, hwarnings, hside, herrors, hrest⟩
    | fatal => exact absurd (h rfl) heq
    | advisory =>
      obtain ⟨hend, hwarned, hresults, hrest⟩ := dropped_warnOn s .integrity computed
      rw [crcVerdict_advisory heq, if_pos ⟨rfl, heq⟩]
      exact ⟨hend, hresults, hwarned, hrest⟩

/-- Settles O46: CRC32's rule in the order of its conditions; the mode decides what a mismatch is. -/
theorem crc32Result : Obligations.Crc32Result := by
  refine ⟨rfl, fun s hs => ?_⟩
  have hexec : exec .crc32 s = .next (s.settle (crc32Body s)) := runCommand_unhalted hs
  refine ⟨fun hbad => ⟨_, hexec, ?operand⟩, fun sp hok hsp => ?operandsOk⟩
  case operand =>
    rw [crc32Body_badOperand hbad]
    exact endsFatal_takeFatal s s.commandError
  case operandsOk =>
    obtain ⟨mode, hmode, hfatal, hadvisory⟩ := selectCrcMode_eq_some fun hbad => hok (.inr hbad)
    rw [crc32Body_eq hsp hmode] at hexec
    simp only [hfatal, hadvisory]
    refine ⟨fun hrange => ⟨_, hexec, ?range⟩, fun hfit => ?value⟩
    case range =>
      rw [if_pos hrange]
      exact endsFatal_takeFatal s s.commandError
    case value =>
      rw [if_neg (Nat.not_lt.mpr hfit)] at hexec
      refine ⟨fun hraises hne => ⟨_, hexec, ?mismatch⟩, fun hmatch => ⟨_, hexec, crcVerdict_completes hmatch rfl⟩⟩
      subst hraises
      rw [crcVerdict_fatal hne]
      exact endsFatal_takeFatal s ⟨.containerCrc, _⟩

/-! ## INFLATE (R225, R227) -/

/-- INFLATE's rule in the order of its conditions: the range, the room in XBUF, the codec's answer. -/
theorem inflateBody_eq (s : State) :
    inflateBody s = if s.cfg.inBytes < s.lat.a0.toNat + s.lat.a1.toNat then .raise s.commandError
      else if s.cfg.xbufBytes < s.lat.a2.toNat then .raise (capacityError 4)
      else inflateVerdict s.lat.a2.toNat
        (Config.inflate s.cfg.inflateFormat (s.readBytes .source .input s.lat.a0.toNat s.lat.a1.toNat)) s := by
  simp only [inflateBody, State.rangeOk, decide_eq_true_eq, Nat.not_le]
  rfl

/-- Bytes of the declared length written to XBUF from its start, and the command completed. -/
theorem inflateVerdict_completes {s : State} (hw : Memory.wf (unlisted s.cfg .xbuf) (s.mem .xbuf) = true) {len : Word}
    {r : List Byte} (hr : r.length = len.toNat) :
    let t := s.settle (inflateVerdict len.toNat (some r) s)
    Completed t ∧ t.xlen = len ∧ Results t len 0
      ∧ (∀ a, t.cell .xbuf a = if a < len.toNat then r[a]? else s.cell .xbuf a)
      ∧ SameSpacesBut .xbuf s t ∧ t.outLen = s.outLen ∧ SameHostSide s t ∧ SameErrors s t ∧ SameWarnings s t
      ∧ SameStream s t ∧ SameMessage s t ∧ SameImage s t := by
  have hverdict : inflateVerdict len.toNat (some r) s
      = .done ({ s.writeBytes .xbuf 0 r with xlen := len }.results len 0) := by
    rw [inflateVerdict, if_neg (not_not_intro hr), wordOf_toNat]
  rw [hverdict]
  refine ⟨⟨rfl, rfl⟩, rfl, ⟨rfl, rfl⟩, fun a => ?cells, fun sp hsp a => s.writeBytes_cell_other 0 r a hsp, rfl,
    ⟨rfl, rfl, rfl, rfl, rfl, rfl, rfl, rfl, rfl⟩, ⟨rfl, rfl, rfl, rfl⟩, ⟨rfl, rfl⟩, ⟨rfl, rfl, rfl, rfl, rfl, rfl⟩,
    ⟨rfl, rfl⟩, ⟨rfl, rfl⟩⟩
  refine (s.writeBytes_cell .xbuf 0 r a hw).trans ?_
  simp only [Nat.zero_le, true_and, Nat.zero_add, Nat.sub_zero, hr]

/-- Settles O48: the two operand errors; then each answer the codec can give. -/
theorem inflateResult : Obligations.InflateResult := by
  refine ⟨rfl, fun s hinv hs => ?_⟩
  have hexec : exec .inflate s = .next (s.settle (inflateBody s)) := runCommand_unhalted hs
  rw [inflateBody_eq] at hexec
  refine ⟨fun hrange => ⟨_, hexec, ?range⟩, fun hrange hroom => ⟨_, hexec, ?capacity⟩,
    fun hrange hroom => ⟨_, hexec, ?codec⟩⟩
  case range =>
    rw [if_pos hrange]
    exact endsFatal_takeFatal s s.commandError
  case capacity =>
    rw [if_neg (Nat.not_lt.mpr hrange), if_pos hroom]
    exact endsFatal_takeFatal s (capacityError 4)
  case codec =>
    rw [if_neg (Nat.not_lt.mpr hrange), if_neg (Nat.not_lt.mpr hroom)]
    cases Config.inflate s.cfg.inflateFormat (s.readBytes .source .input s.lat.a0.toNat s.lat.a1.toNat) with
    | none => exact endsFatal_takeFatal s (formatError 1)
    | some r =>
      by_cases hlen : r.length = s.lat.a2.toNat
      · simp only [hlen, ne_eq, not_true_eq_false, if_false]
        exact inflateVerdict_completes (hinv.spaces .xbuf).1 hlen
      · simp only [inflateVerdict, ne_eq, hlen, not_false_eq_true, if_true]
        exact endsFatal_takeFatal s (formatError 2)

end Sys2Proof.Machine
end

section
/-! The control commands: NOP and WARN_CLEAR (R240, R241). -/

namespace Sys2Proof.Machine

/-- Completing a command whose rule wrote nothing leaves everything but LAST and BUSY, as `refuse_same` says of a
refusal: the results written again with the values they hold. -/
theorem complete_same (s : State) : Completed s.complete ∧ SameHostSide s s.complete ∧ SameErrors s s.complete
    ∧ SameBlock s s.complete := by
  obtain ⟨hend, hresults, hside, herrors, hwarnings, hrest⟩ := results_complete_frame s s.res0 s.res1
  exact ⟨hend, hside, herrors, hwarnings, hresults, hrest⟩

/-- Settles O9: NOP's rule hands back the state it was given, which the Execute completes, or refuses while halted. -/
theorem nopDoesNothing : Obligations.NopDoesNothing := by
  refine ⟨rfl, fun s => ⟨fun hs => ⟨_, runCommand_unhalted (body := nopBody) hs, ?completed⟩,
    fun hs => ⟨_, exec_halted .nop hs, ?refused⟩⟩⟩
  case completed => exact complete_same s
  case refused =>
    obtain ⟨hlast, -, -, ⟨-, -, hhalt, -⟩, -⟩ := refuse_same s
    exact ⟨hlast, hhalt.trans hs⟩

/-- Settles O10: the frame of a completed command, from the state whose WARN, WCNT and OVR are cleared. -/
theorem warnClearResult : Obligations.WarnClearResult := by
  refine ⟨rfl, fun s hs => ⟨_, runCommand_unhalted (body := warnClearBody) hs, ?_⟩⟩
  obtain ⟨hend, hresults, hside, ⟨herr, hinfo, hhalt, hovr⟩, ⟨hwarn, hwcnt⟩, hstream, hmessage, himage, hsinks,
    hspaces⟩ := results_complete_frame { s with warn := 0, wcnt := 0, ovr := false } 0 0
  exact ⟨hend, hwarn, hwcnt, hovr, hresults, herr, hinfo, hhalt, hside, hstream, hmessage, himage, hsinks,
    fun sp a => (hspaces sp a).trans (by cases sp <;> rfl)⟩

end Sys2Proof.Machine
end

section
/-! The halted block and the end of every Execute: the refusal, the three outcomes, what a step leaves of HALT and ERR
(R21, R23, R253 to R255, R275). -/

namespace Sys2Proof.Machine

/-! ## While halted (R254) -/

/-- Settles O11: the refusal of `exec_halted`, the step that reaches it, and the Issue of an idle block. -/
theorem haltedRefusal : Obligations.HaltedRefusal := by
  refine ⟨fun i s _ hs => ?execute, fun s hs hbusy hagenda => ?step, fun s w _ hbusy => ?issue⟩
  case execute => exact ⟨_, exec_halted i hs, refuse_same s⟩
  case step => exact ⟨_, (step_busy hbusy hagenda).trans (exec_halted _ hs), refuse_same s⟩
  case issue =>
    have hissue := hostAct_regWrite s .cmd w
    rw [State.regWrite, State.writeCmd_idle hbusy] at hissue
    exact ⟨_, hissue, rfl, rfl, rfl, ⟨rfl, rfl, rfl, rfl⟩, .ofHostRegisters s _ _ _ _ _ _ _⟩

/-! ## The outcomes of an Execute (R23, R275) -/

/-- Whether an Execute that ended was refused, completed or ended by a fatal error: LAST tells which, and HALT is set by
the last alone. -/
theorem exec_command_outcome {i : Instr} (hi : IsCommand i) {s t : State} (h : exec i s = .next t) :
    (s.halt = true ∧ t.last = .refused ∧ t.halt = true)
      ∨ (s.halt = false ∧ t.last = .completed ∧ t.halt = false)
      ∨ (s.halt = false ∧ t.last = .fatal ∧ t.halt = true) := by
  obtain ⟨v, hv, hexec⟩ := exec_command hi s
  obtain rfl := Host.Outcome.next.inj (hexec.symm.trans h)
  cases hs : s.halt with
  | true => exact .inl ⟨rfl, rfl, hs⟩
  | false =>
    cases v with
    | done t =>
      obtain ⟨-, -, hhalt⟩ := (commandVerdict_frame hv).errors
      exact .inr (.inl ⟨rfl, rfl, hhalt.trans hs⟩)
    | raise e => exact .inr (.inr ⟨rfl, rfl, rfl⟩)

/-- Settles O17: the word in CW decodes to a command, whose Execute ends. -/
theorem everyCommandEnds : Obligations.EveryCommandEnds := by
  intro s hbusy hagenda
  have hcommand := decodeCommand_isCommand s.cw
  obtain ⟨t, hexec, hidle, hside⟩ := exec_command_ends hcommand s
  exact ⟨t, (step_busy hbusy hagenda).trans hexec, hidle, hside, exec_command_outcome hcommand hexec⟩

/-! ## What clears HALT and ERR (R255) -/

/-- A register write touches neither the errors, OVR apart, nor the warnings. -/
theorem regWrite_keeps (s : State) (r : Reg) (v : Word) : let t := s.regWrite r v
    (t.halt = s.halt ∧ t.err = s.err ∧ t.errInfo = s.errInfo) ∧ SameWarnings s t := by
  cases r
  case cmd =>
    simp only [State.regWrite, State.writeCmd]
    split_ifs <;> exact ⟨⟨rfl, rfl, rfl⟩, rfl, rfl⟩
  all_goals exact ⟨⟨rfl, rfl, rfl⟩, rfl, rfl⟩

/-- No host access but a reset touches HALT, ERR, ERR_INFO or the warnings. -/
theorem hostAct_keeps {a : HostAct} (ha : a ≠ .reset) {s t : State} (h : hostAct a s = .next t) :
    (t.halt = s.halt ∧ t.err = s.err ∧ t.errInfo = s.errInfo) ∧ SameWarnings s t := by
  rcases hostAct_cases h with ⟨r, v, rfl⟩ | rfl | ⟨v, rfl⟩ | ⟨k, b, -, rfl⟩ | ⟨hreset, -⟩
  · exact regWrite_keeps s r v
  · exact ⟨⟨rfl, rfl, rfl⟩, rfl, rfl⟩
  · exact ⟨⟨rfl, rfl, rfl⟩, rfl, rfl⟩
  · exact ⟨⟨rfl, rfl, rfl⟩, rfl, rfl⟩
  · exact absurd hreset ha

theorem step_reset {s t : State} (ha : s.agenda.head? = some (.host .reset)) (h : step s = .next t) :
    t = State.hostReset { s with agenda := s.agenda.tail } := by
  obtain ⟨rest, hagenda⟩ := List.head?_eq_some_iff.mp ha
  simp only [step, hagenda, hostAct] at h
  simpa only [hagenda, List.tail_cons] using (Host.Outcome.next.inj h).symm

/-- Settles O14: a reset writes all three; a refused Execute, any other host access and a script statement none. -/
theorem onlyResetClearsErrors : Obligations.OnlyResetClearsErrors := by
  intro s t hs hstep
  split_ifs with hreset
  · rw [step_reset hreset hstep]
    exact ⟨rfl, rfl, rfl⟩
  · rcases step_cases hstep with ⟨-, hexec⟩ | ⟨a, ha, hact⟩ | ⟨_, _, _, _, rfl⟩
    · have hrefused := exec_halted s.fetch (s := { s with agenda := s.agenda.tail }) hs
      obtain rfl := Host.Outcome.next.inj (hrefused.symm.trans hexec)
      exact ⟨hs, rfl, rfl⟩
    · obtain ⟨⟨hhalt, herr, hinfo⟩, -⟩ := hostAct_keeps (fun e => hreset (e ▸ ha)) hact
      exact ⟨hhalt.trans hs, herr, hinfo⟩
    · exact ⟨hs, rfl, rfl⟩

end Sys2Proof.Machine
end

section
/-! Warnings: their effect, and that no command but WARN_CLEAR and no access of the host but a reset takes one back; with
it, for every element of a stream, the errors it may raise (R125, R138, R252, R256 to R259). -/

namespace Sys2Proof.Machine

/-! ## The effect of a warning (R258) -/

/-- Settles O16: WARN and WCNT by `warned_fields`; no other field is written. -/
theorem warningEffect : Obligations.WarningEffect := fun s w =>
  ⟨warned_fields rfl rfl, ⟨rfl, rfl, rfl, rfl, rfl, rfl, rfl, rfl, rfl⟩, ⟨rfl, rfl, rfl, rfl⟩, ⟨rfl, rfl⟩,
    ⟨rfl, rfl, rfl, rfl, rfl, rfl⟩, ⟨rfl, rfl⟩, ⟨rfl, rfl⟩, ⟨rfl, rfl⟩, fun sp a => s.warnOn_cell w sp a, rfl, rfl⟩

/-! ## Warnings that grow -/

/-- No bit of WARN is cleared, and WCNT has not become smaller. -/
def WarningsGrow (s t : State) : Prop :=
  (∀ k, s.warn.getLsbD k = true → t.warn.getLsbD k = true) ∧ s.wcnt.toNat ≤ t.wcnt.toNat

/-- What leaves WARN and WCNT alone. -/
theorem WarningsGrow.of_eq {s t : State} (hwarn : t.warn = s.warn) (hwcnt : t.wcnt = s.wcnt) : WarningsGrow s t :=
  ⟨fun _ hk => by rwa [hwarn], by rw [hwcnt]⟩

theorem WarningsGrow.refl (s : State) : WarningsGrow s s := .of_eq rfl rfl

theorem WarningsGrow.trans {s t u : State} (h1 : WarningsGrow s t) (h2 : WarningsGrow t u) : WarningsGrow s u :=
  ⟨fun k hk => h2.1 k (h1.1 k hk), h1.2.trans h2.2⟩

theorem Warned.grow {s t : State} {w : Warning} (h : Warned s t w) : WarningsGrow s t := by
  obtain ⟨hwarn, hwcnt⟩ := h
  have hlt := s.wcnt.isLt
  exact ⟨fun k hk => by rw [hwarn, hk, Bool.true_or], by omega⟩

section
variable {s t : State} (h : WarningsGrow s t)
include h

theorem WarningsGrow.warnOn (w : Warning) : WarningsGrow s (t.warnOn w) := h.trans (warned_fields rfl rfl).grow

/-- The end of the input after a signal (R125). -/
theorem WarningsGrow.closed (w : Warning) : WarningsGrow s (t.warnOn w).ended.noMessage :=
  (h.warnOn w).trans (.of_eq rfl rfl)

theorem WarningsGrow.consume (n : Nat) : WarningsGrow s (t.consume n) := h.trans (.of_eq rfl rfl)

theorem WarningsGrow.next1 : WarningsGrow s t.next1.state := by
  rcases t.next1_cases with ⟨-, e⟩ | ⟨-, e⟩ <;> rw [e]
  · exact h.consume 1
  · exact h

theorem WarningsGrow.peek : WarningsGrow s t.peek.state := by
  rcases t.peek_cases with ⟨-, e⟩ | ⟨-, e⟩ <;> rw [e] <;> exact h

theorem WarningsGrow.skip (n : Nat) : WarningsGrow s (t.skip n).state := by
  rcases t.skip_cases n with ⟨-, e⟩ | ⟨-, e⟩ <;> rw [e]
  · exact h.consume n
  · exact h.consume t.left

theorem WarningsGrow.readVlq : WarningsGrow s t.readVlq.state := by
  rcases t.readVlq_cases with ⟨n, m, -, -, -, e⟩ | ⟨m, -, e⟩ | ⟨m, -, e⟩ <;> rw [e] <;> exact h.consume m

end

/-! ## Elements of a stream -/

/-- A flow that takes no warning of `s` back and raises none but the given errors. -/
def Flow.WarnsOrRaises (s : State) (errors : List Fatal) : Flow → Prop
  | .go t => WarningsGrow s t
  | .done t => WarningsGrow s t
  | .raise e => e ∈ errors

theorem Flow.WarnsOrRaises.mem_of_raise {s : State} {errors : List Fatal} {f : Flow} {e : Fatal}
    (h : f.WarnsOrRaises s errors) (hf : f = .raise e) : e ∈ errors := by rwa [hf] at h

theorem Flow.WarnsOrRaises.eq_of_raise {s : State} {e e' : Fatal} {f : Flow} (h : f.WarnsOrRaises s [e'])
    (hf : f = .raise e) : e = e' := List.mem_singleton.mp (h.mem_of_raise hf)

/-- An element that raises nothing does not end in `raise`. -/
theorem Flow.WarnsOrRaises.not_raise {s : State} {e : Fatal} {f : Flow} (h : f.WarnsOrRaises s [])
    (hf : f = .raise e) : False := List.not_mem_nil (h.mem_of_raise hf)

section
variable {s t : State} {errors : List Fatal}

theorem Sig.orEnd_warnsOrRaises {α : Type} {r : Sig α} {f : α → State → Flow} (hr : WarningsGrow s r.state)
    (hf : ∀ v u, WarningsGrow s u → (f v u).WarnsOrRaises s errors) : (r.orEnd f).WarnsOrRaises s errors := by
  cases r with
  | ok v u => exact hf v u hr
  | trunc u => exact hr.closed .trunc
  | malformed u => exact hr.closed .malformed

variable (h : WarningsGrow s t)
include h

theorem skipEvent_warnsOrRaises (b : Byte) (n : Nat) : (skipEvent b n t).WarnsOrRaises s errors :=
  have hstatus : WarningsGrow s (t.status b) := h.trans (.of_eq rfl rfl)
  Sig.orEnd_warnsOrRaises (hstatus.skip n) fun _ _ hu => hu

theorem smfRunningDataBody_warnsOrRaises (d : BitVec 7) : (smfRunningDataBody d t).WarnsOrRaises s errors := by
  simp only [smfRunningDataBody]
  split
  · exact Sig.orEnd_warnsOrRaises ((h.consume 1).skip _) fun _ _ hu => hu
  · exact (h.consume 1).closed .malformed

theorem smfMetaBody_warnsOrRaises : (smfMetaBody t).WarnsOrRaises s errors :=
  Sig.orEnd_warnsOrRaises (h.consume 1).next1 fun _ _ hu => Sig.orEnd_warnsOrRaises hu.readVlq fun n _ hv =>
    Sig.orEnd_warnsOrRaises (hv.skip n) fun _ _ hw => hw

theorem vlqBody_warnsOrRaises (groups : List (BitVec 7)) : (vlqBody groups t).WarnsOrRaises s errors := by
  simp only [vlqBody]
  split_ifs
  · exact Sig.orEnd_warnsOrRaises (h.skip _) fun _ _ hu => hu
  · exact Sig.orEnd_warnsOrRaises (h.skip _) fun _ _ hu => hu.closed .malformed

theorem chunkMthdBody_warnsOrRaises : (chunkMthdBody t).WarnsOrRaises s errors := by
  have hskipped (n : Word) : WarningsGrow s { t with iptr := n } := h.trans (.of_eq rfl rfl)
  simp only [chunkMthdBody]
  split_ifs
  · exact h.closed .trkHdr
  · exact h.closed .trkHdr
  · exact hskipped _

theorem chunkMtrkBody_warnsOrRaises : (chunkMtrkBody t).WarnsOrRaises s errors := by
  simp only [chunkMtrkBody]
  split_ifs
  · exact h.closed .trkHdr
  · exact h.trans (.of_eq rfl rfl)

theorem sysexPayload_warnsOrRaises (n : Nat) : (sysexPayload n t).WarnsOrRaises s [capacityError 1] := by
  have hcopied (k : Nat) : WarningsGrow s (t.copyPayload k) := h.trans (.of_eq rfl rfl)
  simp only [sysexPayload]
  split_ifs
  · exact List.mem_singleton_self _
  · have hended : WarningsGrow s ((t.copyPayload t.left).warnOn .trunc).ended :=
      ((hcopied _).warnOn .trunc).trans (.of_eq rfl rfl)
    exact (hended.warnOn .unterm).trans (.of_eq rfl rfl)
  · exact (hcopied n).trans (.of_eq rfl rfl)
  · exact ((hcopied n).warnOn .unterm).trans (.of_eq rfl rfl)

theorem sysexEvent_warnsOrRaises (b : Byte) : (sysexEvent b t).WarnsOrRaises s [capacityError 1] :=
  have hstatus : WarningsGrow s (t.status b) := h.trans (.of_eq rfl rfl)
  Sig.orEnd_warnsOrRaises hstatus.readVlq fun n _ hu => sysexPayload_warnsOrRaises hu n

theorem eventBody_warnsOrRaises (i : Instr) : (eventBody i t).WarnsOrRaises s [capacityError 1] := by
  cases i
  case smfRunningData d => exact smfRunningDataBody_warnsOrRaises h d
  case smfMeta => exact smfMetaBody_warnsOrRaises h
  case smfSysexStart | smfSysexEscape => exact sysexEvent_warnsOrRaises h _
  case smfCh8 | smfCh9 | smfChA | smfChB | smfProgramChange | smfChannelPressure | smfChE | smfMtcQuarterFrame
      | smfSongPosition | smfSongSelect =>
    exact skipEvent_warnsOrRaises h _ _
  case smfUndefinedCommon | smfTuneRequest | smfRealtime => exact skipEvent_warnsOrRaises h _ 0
  all_goals exact h.closed .malformed

theorem openTrack_warnsOrRaises : (openTrack t).WarnsOrRaises s errors := by
  simp only [openTrack]
  split_ifs
  · exact h.trans (.of_eq rfl rfl)
  · exact h.closed .trkHdr
  · split
    · exact chunkMtrkBody_warnsOrRaises h
    · exact h.closed .trkHdr

theorem trackEvent_warnsOrRaises : (trackEvent t).WarnsOrRaises s [capacityError 1] :=
  Sig.orEnd_warnsOrRaises h.readVlq fun _ _ hu => Sig.orEnd_warnsOrRaises hu.peek fun _ _ hv =>
    eventBody_warnsOrRaises hv _

theorem smfIteration_warnsOrRaises : (smfIteration t).WarnsOrRaises s [capacityError 1] := by
  simp only [smfIteration]
  split_ifs
  · exact h.trans (.of_eq rfl rfl)
  · exact h.trans (.of_eq rfl rfl)
  · exact trackEvent_warnsOrRaises h
  · exact openTrack_warnsOrRaises h

theorem rawSysexBody_warnsOrRaises : (rawSysexBody t).WarnsOrRaises s [capacityError 1] := by
  simp only [rawSysexBody]
  cases t.findByte .rawFind endMarker (t.iptr.toNat + 1) (t.inLen.toNat - (t.iptr.toNat + 1)) with
  | none =>
    simp only
    split_ifs
    · exact List.mem_singleton_self _
    · exact (h.warnOn .unterm).trans (.of_eq rfl rfl)
  | some j =>
    simp only
    split_ifs
    · exact List.mem_singleton_self _
    · exact h.trans (.of_eq rfl rfl)

end

/-! ## DEMUX_NEXT -/

/-- A command has no next boundary: a verdict is the flow of an element that ends it. -/
def Verdict.flow : Verdict → Flow
  | .done t => .done t
  | .raise e => .raise e

theorem Verdict.flow_eq_raise {v : Verdict} {e : Fatal} : v.flow = .raise e ↔ v = .raise e := by
  cases v <;> simp [Verdict.flow]

theorem Flow.WarnsOrRaises.verdict {s : State} {errors : List Fatal} {f : Flow} (h : f.WarnsOrRaises s errors) :
    f.verdict.flow.WarnsOrRaises s errors := by cases f <;> exact h

section
variable {s t : State} {v : Verdict} (h : WarningsGrow s t)
include h

theorem smfNext_warnsOrRaises (hv : smfNext t = some v) : v.flow.WarnsOrRaises s [capacityError 1] := by
  have hloop := smfNext_induct (P := WarningsGrow s) (Q := WarningsGrow s) (R := fun e => e ∈ [capacityError 1])
    (fun a _ ha e => by have hi := smfIteration_warnsOrRaises ha; rwa [e] at hi)
    (fun a _ ha e => by have hi := smfIteration_warnsOrRaises ha; rwa [e] at hi)
    (fun a _ ha e => (smfIteration_warnsOrRaises ha).mem_of_raise e) h
  rw [hv] at hloop
  cases v <;> exact hloop

theorem rawNext_warnsOrRaises : (rawNext t).flow.WarnsOrRaises s [capacityError 1] := by
  simp only [rawNext]
  cases t.findByte .rawScan startMarker t.iptr.toNat t.left with
  | none => exact h.trans (.of_eq rfl rfl)
  | some j =>
    have hscan : WarningsGrow s { t with iptr := wordOf j } := h.trans (.of_eq rfl rfl)
    exact (rawSysexBody_warnsOrRaises hscan).verdict

end

/-- DEMUX_NEXT takes no warning back and raises nothing but CapacityError(1) (R252). -/
theorem demuxNextBody_warnsOrRaises {s : State} {v : Verdict} (hv : demuxNextBody s = some v) :
    v.flow.WarnsOrRaises s [capacityError 1] := by
  have hmode (m : DMode) : WarningsGrow s { s with dmode := m } := .of_eq rfl rfl
  simp only [demuxNextBody] at hv
  split at hv
  case h_1 =>
    split_ifs at hv
    · have hheader := chunkMthdBody_warnsOrRaises (errors := [capacityError 1]) (hmode .smf)
      simp only [smfStart] at hv
      split at hv <;> rename_i e <;> rw [e] at hheader
      · exact smfNext_warnsOrRaises hheader hv
      · cases hv; exact hheader
      · cases hv; exact hheader
    · cases hv; exact rawNext_warnsOrRaises (hmode .raw)
  case h_2 => cases hv; exact rawNext_warnsOrRaises (.refl s)
  case h_3 => exact smfNext_warnsOrRaises (.refl s) hv
  case h_4 => cases hv; exact .of_eq rfl rfl

/-! ## The other commands -/

theorem ingestFrame_warns {d : Dialect} {m : List Byte} {s t : State} (h : ingestFrame d m s = .done t) :
    WarningsGrow s t := by
  have hdropped (w : Warning) (outcome : Word) : WarningsGrow s ((s.warnOn w).results outcome 0) :=
    ((WarningsGrow.refl s).warnOn w).trans (.of_eq rfl rfl)
  have hwritten (addr : Nat) (payload : List Byte) : WarningsGrow s (writeFrame d addr payload s) := by
    simp only [writeFrame]
    split_ifs <;> exact .of_eq rfl rfl
  simp only [ingestFrame] at h
  split_ifs at h <;> cases h
  · exact hdropped .dialect 2
  · exact hdropped .bounds 3
  · exact hwritten _ _
  · exact hdropped .foreign 1

theorem ingestMessage_warns {m : List Byte} {s t : State} (h : ingestMessage m s = .done t) : WarningsGrow s t := by
  simp only [ingestMessage] at h
  split at h
  · exact ingestFrame_warns h
  · exact ingestFrame_warns h
  · cases h; exact ((WarningsGrow.refl s).warnOn .foreign).trans (.of_eq rfl rfl)

theorem emitFrames_warns {d : Dialect} {dev : BitVec 7} (c addr : Nat) (src : List Byte) (s : State) :
    WarningsGrow s (emitFrames d dev c addr src s) := by
  induction c generalizing addr src s with
  | zero => exact .refl s
  | succ c ih =>
    have happended : WarningsGrow s (appendFrame d dev addr (src.take maxChunk) s) := .of_eq rfl rfl
    exact happended.trans (ih _ _ _)

theorem crcVerdict_warns {mode : CrcMode} {expected computed : Word} {s t : State}
    (h : crcVerdict mode expected computed s = .done t) : WarningsGrow s t := by
  simp only [crcVerdict] at h
  split_ifs at h
  · cases h; exact .of_eq rfl rfl
  · cases mode <;> cases h
    · exact .of_eq rfl rfl
    · exact ((WarningsGrow.refl s).warnOn .integrity).trans (.of_eq rfl rfl)

theorem inflateVerdict_warns {ulen : Nat} {answer : Option (List Byte)} {s t : State}
    (h : inflateVerdict ulen answer s = .done t) : WarningsGrow s t := by
  simp only [inflateVerdict] at h
  split at h
  · cases h
  · split_ifs at h
    cases h
    exact .of_eq rfl rfl

/-- Every command that completes, WARN_CLEAR apart, takes no warning back. -/
theorem commandVerdict_warns {i : Instr} (hi : i ≠ .warnClear) {s t : State}
    (h : commandVerdict i s = some (.done t)) : WarningsGrow s t := by
  cases i <;> simp only [commandVerdict, Option.some.injEq, reduceCtorEq] at h
  case warnClear => exact absurd rfl hi
  case demuxNext => exact demuxNextBody_warnsOrRaises h
  case ingest => exact ingestMessage_warns h
  case nop | imgInit | outClear => cases h; exact .of_eq rfl rfl
  case reserved => cases h
  case streamLoad =>
    simp only [streamLoadBody] at h
    split_ifs at h
    cases h
    exact .of_eq rfl rfl
  case readRegion =>
    simp only [readRegionBody] at h
    split_ifs at h <;> cases h <;> exact .of_eq rfl rfl
  case emit =>
    simp only [emitBody] at h
    split at h
    · split_ifs at h
      cases h
      exact (emitFrames_warns _ _ _ s).trans (.of_eq rfl rfl)
    · cases h
  case crc32 =>
    simp only [crc32Body] at h
    split at h
    · split_ifs at h
      exact crcVerdict_warns h
    · cases h
  case inflate =>
    simp only [inflateBody] at h
    split_ifs at h
    exact inflateVerdict_warns h

theorem exec_command_warns {i : Instr} (hi : IsCommand i) {s t : State} (hw : i = .warnClear → s.halt = true)
    (h : exec i s = .next t) : WarningsGrow s t := by
  obtain ⟨v, hv, hexec⟩ := exec_command hi s
  obtain rfl := Host.Outcome.next.inj (hexec.symm.trans h)
  split_ifs with hs
  · exact .of_eq rfl rfl
  · cases v with
    | raise e => exact .of_eq rfl rfl
    | done t => exact (commandVerdict_warns (fun e => hs (hw e)) hv).trans (.of_eq rfl rfl)

/-! ## Every step (R259) -/

/-- Settles O15: an Execute of another command or of a halted block, a host access other than a reset, and a script
statement all let the warnings grow. -/
theorem warningsAreSticky : Obligations.WarningsAreSticky := by
  intro s t hstep hreset hclear
  rcases step_cases hstep with ⟨⟨hbusy, hturn⟩, hexec⟩ | ⟨a, ha, hact⟩ | ⟨_, _, _, _, rfl⟩
  · have hhalted : s.fetch = .warnClear → s.halt = true := fun hi =>
      Bool.of_not_eq_false fun hs => hclear ⟨hbusy, hs, hi, hturn⟩
    exact exec_command_warns (s := { s with agenda := s.agenda.tail }) (decodeCommand_isCommand s.cw) hhalted hexec
  · obtain ⟨-, hwarn, hwcnt⟩ := hostAct_keeps (fun e => hreset (e ▸ ha)) hact
    exact WarningsGrow.of_eq hwarn hwcnt
  · exact WarningsGrow.refl s

end Sys2Proof.Machine
end

section
/-! Fatal errors: which rule of an instruction raises which error, and that the block then halts with every write rolled
back (R13, R250 to R253). -/

namespace Sys2Proof.Machine

/-! ## The rule of an instruction -/

/-- The rule of a stream row, as `commandVerdict` is of a command word (R86, R89, R91, R93, R202; log 11). -/
def elementFlow (i : Instr) (s : State) : Flow :=
  match i with
  | .chunkMthd => chunkMthdBody s
  | .chunkMtrk => chunkMtrkBody s
  | .vlq groups => vlqBody groups s
  | .rawSysex => rawSysexBody s
  | .dt1At3D _ => (dt1At3DBody s.message s).flow
  | .dt1At57 _ => (dt1At57Body s.message s).flow
  | .dt1Emit d dev addr payload => dt1EmitBody d dev addr payload s
  | i => eventBody i s

/-- The rule of an instruction, a command's or an element's. -/
def ruleFlow (i : Instr) (s : State) : Flow :=
  match commandVerdict i s with
  | some v => v.flow
  | none => elementFlow i s

theorem settleFlow_flow (s : State) (v : Verdict) : s.settleFlow v.flow = s.settle v := by cases v <;> rfl

theorem ruleFlow_command {i : Instr} {s : State} {v : Verdict} (h : commandVerdict i s = some v) :
    ruleFlow i s = v.flow := by rw [ruleFlow, h]

/-- `exec` is an instruction's rule and the end it comes to, unless the block is halted (R253, R254). -/
theorem exec_eq_settleFlow (i : Instr) {s : State} (hs : s.halt = false) :
    exec i s = .next (s.settleFlow (ruleFlow i s)) := by
  have hcommand (hi : IsCommand i) : exec i s = .next (s.settleFlow (ruleFlow i s)) := by
    obtain ⟨v, hv, hexec⟩ := exec_command hi s
    rw [hexec, ruleFlow_command hv, settleFlow_flow, hs]
    rfl
  cases i
  case nop | imgInit | streamLoad | demuxNext | ingest | readRegion | emit | outClear | crc32 | inflate | warnClear
      | reserved =>
    exact hcommand (by simp [IsCommand])
  case dt1At3D | dt1At57 => exact (runCommand_unhalted hs).trans (congrArg _ (settleFlow_flow s _).symm)
  all_goals exact runElement_unhalted hs

/-! ## What halts the block -/

/-- A flow whose state has HALT as `s` has it. -/
def Flow.KeepsHalt (s : State) : Flow → Prop
  | .go t => t.halt = s.halt
  | .done t => t.halt = s.halt
  | .raise _ => True

theorem Flow.Frames.keepsHalt {s : State} {f : Flow} (h : f.Frames s) : f.KeepsHalt s := by
  cases f with
  | go t | done t =>
    obtain ⟨-, -, hhalt, -⟩ := DemuxOnly.errors h
    exact hhalt
  | raise e => trivial

theorem Verdict.flow_keepsHalt {s : State} {v : Verdict} (h : ∀ t, v = .done t → CommandFrame s t) :
    v.flow.KeepsHalt s := by
  cases v with
  | done t =>
    obtain ⟨-, -, hhalt⟩ := (h t rfl).errors
    exact hhalt
  | raise e => trivial

theorem dt1EmitBody_keepsHalt (d : Dialect) (dev : BitVec 7) (addr : Nat) (payload : List Byte) (s : State) :
    (dt1EmitBody d dev addr payload s).KeepsHalt s := by
  simp only [dt1EmitBody]
  split_ifs
  · trivial
  · exact rfl

theorem elementFlow_keepsHalt (i : Instr) (s : State) : (elementFlow i s).KeepsHalt s := by
  have hevent := (eventBody_frames i s).keepsHalt
  cases i
  case chunkMthd => exact (chunkMthdBody_frames s).keepsHalt
  case chunkMtrk => exact (chunkMtrkBody_frames s).keepsHalt
  case vlq groups => exact (vlqBody_frames groups s).keepsHalt
  case rawSysex => exact (rawSysexBody_frames s).keepsHalt
  case dt1At3D | dt1At57 => exact Verdict.flow_keepsHalt fun _ => ingestFrame_frame
  case dt1Emit d dev addr payload => exact dt1EmitBody_keepsHalt d dev addr payload s
  all_goals exact hevent

/-- No rule writes HALT: only a fatal error does. -/
theorem ruleFlow_keepsHalt (i : Instr) (s : State) : (ruleFlow i s).KeepsHalt s := by
  cases hv : commandVerdict i s with
  | some v =>
    rw [ruleFlow_command hv]
    exact Verdict.flow_keepsHalt fun t e => commandVerdict_frame (e ▸ hv)
  | none =>
    rw [ruleFlow, hv]
    exact elementFlow_keepsHalt i s

/-- What halts an unhalted block is an error its instruction's rule raised, taken from the state before it (R253). -/
theorem exec_halts {i : Instr} {s t : State} (hs : s.halt = false) (h : exec i s = .next t) (ht : t.halt = true) :
    ∃ e, ruleFlow i s = .raise e ∧ t = s.takeFatal e := by
  obtain rfl := Host.Outcome.next.inj ((exec_eq_settleFlow i hs).symm.trans h)
  have hkeeps := ruleFlow_keepsHalt i s
  cases hflow : ruleFlow i s with
  | raise e => exact ⟨e, rfl, rfl⟩
  | go u | done u =>
    rw [hflow] at ht hkeeps
    cases (hs.symm.trans hkeeps.symm).trans ht

/-! ## The errors of the commands (R250 to R252) -/

section
variable {s : State} {e : Fatal}

theorem streamLoadBody_raise (h : streamLoadBody s = .raise e) :
    e = s.commandError ∧ s.cfg.inBytes < s.lat.a0.toNat := by
  simp only [streamLoadBody] at h
  split_ifs at h with hlen
  cases h
  exact ⟨rfl, hlen⟩

theorem ingestFrame_raise {d : Dialect} (h : ingestFrame d s.message s = .raise e) :
    IngestRaises s (s.takeFatal e) d := by
  simp only [ingestFrame, dropForeign] at h
  split_ifs at h with _ hsum _ _ hfull <;> cases h
  · exact .inl ⟨rfl, rfl, hsum⟩
  · exact .inr ⟨rfl, rfl, hfull⟩

theorem ingestBody_raise (h : ingestBody s = .raise e) :
    ∃ d dev, s.message.take 4 = [0x41, dev, d.byte, 0x12] ∧ IngestRaises s (s.takeFatal e) d := by
  simp only [ingestBody, ingestMessage] at h
  have hbegins {i : Instr} (hi : decodeDataSet s.message = some i) : encode i = .bytes (s.message.take 4) := by
    obtain ⟨-, -, hspelled⟩ := decodeDataSet_spelled hi
    exact hspelled
  split at h
  case h_1 dev hi => exact ⟨.d3D, dev, (Code.bytes.inj (hbegins hi)).symm, ingestFrame_raise h⟩
  case h_2 dev hi => exact ⟨.d57, dev, (Code.bytes.inj (hbegins hi)).symm, ingestFrame_raise h⟩
  case h_3 => cases h

theorem readRegionBody_raise (h : readRegionBody s = .raise e) : e = s.commandError ∧ s.lat.a1 = 0 := by
  by_cases hlen : s.lat.a1 = 0
  · rw [readRegionBody_empty hlen] at h
    cases h
    exact ⟨rfl, hlen⟩
  · cases (readRegionBody_nonempty hlen).symm.trans h

/-- A value below 3 selects a source space (R62). -/
theorem sourceSpace_of_le {v : Word} (h : ¬ 2 < v.toNat) : ∃ sp, sourceSpace v = some sp :=
  ⟨_, List.getElem?_eq_getElem (by simp only [List.length_cons, List.length_nil]; omega)⟩

theorem emitBody_raise (h : emitBody s = .raise e) :
    (e = s.commandError ∧ EmitOperandError s) ∨ e = capacityError 3 := by
  by_cases hdialect : s.lat.a0 ≠ 0x3D ∧ s.lat.a0 ≠ 0x57
  · cases (emitBody_badOperand (.inl hdialect)).symm.trans h
    exact .inl ⟨rfl, .inl hdialect⟩
  by_cases hselector : 2 < s.lat.a2.toNat
  · cases (emitBody_badOperand (.inr (.inl hselector))).symm.trans h
    exact .inl ⟨rfl, .inr (.inl hselector)⟩
  by_cases hdev : 0x7F < s.lat.a5.toNat
  · cases (emitBody_badOperand (.inr (.inr hdev))).symm.trans h
    exact .inl ⟨rfl, .inr (.inr (.inl hdev))⟩
  obtain ⟨d, hd⟩ := Option.ne_none_iff_exists'.mp (mt selectDialect_eq_none.mp hdialect)
  obtain ⟨sp, hsp⟩ := sourceSpace_of_le hselector
  have ha0 := selectDialect_eq_some.mp hd
  rw [emitBody_eq ha0 hsp hdev] at h
  split_ifs at h with hrange hroom <;> cases h
  · refine .inl ⟨rfl, .inr (.inr (.inr ?_))⟩
    exact hrange.imp (fun hsource => ⟨sp, hsp, hsource⟩) fun haddr => ⟨d, ha0, haddr⟩
  · exact .inr rfl

theorem crcVerdict_raise {mode : CrcMode} {expected computed : Word}
    (h : crcVerdict mode expected computed s = .raise e) :
    e = ⟨.containerCrc, computed⟩ ∧ mode = .fatal ∧ computed ≠ expected := by
  simp only [crcVerdict] at h
  split_ifs at h with hne
  cases mode <;> cases h
  exact ⟨rfl, rfl, hne⟩

theorem crc32Body_raise (h : crc32Body s = .raise e) :
    (e = s.commandError ∧ Crc32OperandError s) ∨ (e.code = .containerCrc ∧ CrcCheckFails s e.info) := by
  by_cases hselector : 2 < s.lat.a0.toNat
  · cases (crc32Body_badOperand (.inl hselector)).symm.trans h
    exact .inl ⟨rfl, .inl hselector⟩
  by_cases hmode : 2 < s.lat.a4.toNat
  · cases (crc32Body_badOperand (.inr hmode)).symm.trans h
    exact .inl ⟨rfl, .inr (.inl hmode)⟩
  obtain ⟨sp, hsp⟩ := sourceSpace_of_le hselector
  obtain ⟨mode, hselected, hfatal, -⟩ := selectCrcMode_eq_some hmode
  rw [crc32Body_eq hsp hselected] at h
  split_ifs at h with hrange
  · cases h
    exact .inl ⟨rfl, .inr (.inr ⟨sp, hsp, hrange⟩)⟩
  · obtain ⟨rfl, hm, hne⟩ := crcVerdict_raise h
    exact .inr ⟨rfl, hfatal.mpr hm, hne, sp, hsp, rfl⟩

theorem inflateBody_raise (h : inflateBody s = .raise e) :
    (e = s.commandError ∧ s.cfg.inBytes < s.lat.a0.toNat + s.lat.a1.toNat)
      ∨ (e = capacityError 4 ∧ s.cfg.xbufBytes < s.lat.a2.toNat)
      ∨ (e = formatError 1 ∧ inflated s = none)
      ∨ (e = formatError 2 ∧ ∃ r, inflated s = some r ∧ r.length ≠ s.lat.a2.toNat) := by
  rw [inflateBody_eq] at h
  split_ifs at h with hrange hroom
  · cases h
    exact .inl ⟨rfl, hrange⟩
  · cases h
    exact .inr (.inl ⟨rfl, hroom⟩)
  · change inflateVerdict s.lat.a2.toNat (inflated s) s = .raise e at h
    cases hr : inflated s with
    | none =>
      rw [hr] at h
      cases h
      exact .inr (.inr (.inl ⟨rfl, rfl⟩))
    | some r =>
      rw [hr, inflateVerdict] at h
      split_ifs at h with hlen
      cases h
      exact .inr (.inr (.inr ⟨rfl, r, rfl, hlen⟩))

theorem dt1EmitBody_raise {d : Dialect} {dev : BitVec 7} {addr : Nat} {payload : List Byte}
    (h : dt1EmitBody d dev addr payload s = .raise e) : e = capacityError 3 := by
  simp only [dt1EmitBody] at h
  split_ifs at h
  cases h
  rfl

end

/-- A command that raises is one whose verdict is the error. -/
theorem commandVerdict_of_raise {i : Instr} {s : State} {v : Verdict} {e : Fatal} (h : ruleFlow i s = .raise e)
    (hv : commandVerdict i s = some v) : v = .raise e :=
  Verdict.flow_eq_raise.mp ((ruleFlow_command hv).symm.trans h)

/-- Settles O13: the error that halted the block is one the instruction's rule raises; each rule's errors are those of
its own lemma. -/
theorem errorsByCommand : Obligations.ErrorsByCommand := by
  intro i s t hs hexec ht
  obtain ⟨e, he, rfl⟩ := exec_halts hs hexec ht
  have hself : WarningsGrow s s := .refl s
  cases i
  case nop | imgInit | outClear | warnClear => cases he
  case streamLoad =>
    obtain ⟨rfl, hlen⟩ := streamLoadBody_raise (commandVerdict_of_raise he rfl)
    exact ⟨rfl, rfl, hlen⟩
  case demuxNext =>
    obtain ⟨v, hv⟩ := demuxNextBody_terminates s
    obtain rfl := (demuxNextBody_warnsOrRaises hv).eq_of_raise ((ruleFlow_command (i := .demuxNext) hv).symm.trans he)
    exact ⟨rfl, rfl⟩
  case ingest => exact ingestBody_raise (commandVerdict_of_raise he rfl)
  case readRegion =>
    obtain ⟨rfl, hlen⟩ := readRegionBody_raise (commandVerdict_of_raise he rfl)
    exact ⟨rfl, rfl, hlen⟩
  case emit =>
    rcases emitBody_raise (commandVerdict_of_raise he rfl) with ⟨rfl, hoperand⟩ | rfl
    · exact .inl ⟨rfl, rfl, hoperand⟩
    · exact .inr ⟨rfl, rfl⟩
  case crc32 =>
    rcases crc32Body_raise (commandVerdict_of_raise he rfl) with ⟨rfl, hoperand⟩ | hcheck
    · exact .inl ⟨rfl, rfl, hoperand⟩
    · exact .inr hcheck
  case inflate =>
    rcases inflateBody_raise (commandVerdict_of_raise he rfl) with ⟨rfl, h⟩ | ⟨rfl, h⟩ | ⟨rfl, h⟩ | ⟨rfl, h⟩
    · exact .inl ⟨rfl, rfl, h⟩
    · exact .inr (.inl ⟨rfl, rfl, h⟩)
    · exact .inr (.inr (.inl ⟨rfl, rfl, h⟩))
    · exact .inr (.inr (.inr ⟨rfl, rfl, h⟩))
  case reserved w =>
    cases he
    exact ⟨rfl, rfl⟩
  case smfSysexStart | smfSysexEscape =>
    obtain rfl := (sysexEvent_warnsOrRaises hself _).eq_of_raise he
    exact ⟨rfl, rfl⟩
  case rawSysex =>
    obtain rfl := (rawSysexBody_warnsOrRaises hself).eq_of_raise he
    exact ⟨rfl, rfl⟩
  case dt1At3D | dt1At57 => exact ingestFrame_raise (Verdict.flow_eq_raise.mp he)
  case dt1Emit =>
    obtain rfl := dt1EmitBody_raise he
    exact ⟨rfl, rfl⟩
  case smfRunningData d => exact (smfRunningDataBody_warnsOrRaises hself d).not_raise he
  case smfMeta => exact (smfMetaBody_warnsOrRaises hself).not_raise he
  case chunkMthd => exact (chunkMthdBody_warnsOrRaises hself).not_raise he
  case chunkMtrk => exact (chunkMtrkBody_warnsOrRaises hself).not_raise he
  case vlq groups => exact (vlqBody_warnsOrRaises hself groups).not_raise he
  case smfCh8 | smfCh9 | smfChA | smfChB | smfProgramChange | smfChannelPressure | smfChE | smfMtcQuarterFrame
      | smfSongPosition | smfSongSelect =>
    exact (skipEvent_warnsOrRaises hself _ _).not_raise he
  case smfUndefinedCommon | smfTuneRequest | smfRealtime =>
    exact (skipEvent_warnsOrRaises hself _ 0).not_raise he

/-! ## The rollback (R253, R13) -/

/-- Whatever halted the block, ERR holds the code of an error. -/
theorem err_ne_none_of_halts {i : Instr} {s t : State} (hs : s.halt = false) (h : exec i s = .next t)
    (ht : t.halt = true) : t.err ≠ .none := by
  have herrors := errorsByCommand i s t hs h ht
  have hingest {d : Dialect} (hraises : IngestRaises s t d) : t.err ≠ .none := by
    rcases hraises with ⟨herr, -⟩ | ⟨herr, -⟩ <;> rw [herr] <;> decide
  cases i
  case ingest =>
    obtain ⟨d, dev, -, hraises⟩ := herrors
    exact hingest hraises
  case dt1At3D | dt1At57 => exact hingest herrors
  case emit | crc32 => rcases herrors with ⟨herr, -⟩ | ⟨herr, -⟩ <;> rw [herr] <;> decide
  case inflate => rcases herrors with ⟨herr, -⟩ | ⟨herr, -⟩ | ⟨herr, -⟩ | ⟨herr, -⟩ <;> rw [herr] <;> decide
  case streamLoad | demuxNext | readRegion | reserved | smfSysexStart | smfSysexEscape | rawSysex | dt1Emit =>
    obtain ⟨herr, -⟩ := herrors
    rw [herr]
    decide
  all_goals exact herrors.elim

/-- Settles O12: the block halts only by taking an error from the state before the instruction. -/
theorem fatalRollback : Obligations.FatalRollback := by
  intro i s t hs hexec ht
  refine ⟨err_ne_none_of_halts hs hexec ht, ?_⟩
  obtain ⟨e, -, rfl⟩ := exec_halts hs hexec ht
  exact endsFatal_takeFatal s e

end Sys2Proof.Machine
end

section
/-! Reset: the state it leaves, the host's reset, the invariant, and the four commands that come to the same (R280, R281,
R284). -/

namespace Sys2Proof.Machine

/-! ## The state after reset (R280) -/

/-- A read of a cell that nothing has written is a draw (R63). -/
theorem State.readByte_of_unwritten {s : State} {sp : Space} {a : Nat} (h : s.cell sp a = none) (site : ReadSite) :
    s.readByte site sp a = Config.freeByte s.draws site sp a := by
  simp [State.readByte, h]

/-- After reset only DMEM's cells hold values. -/
theorem State.resetOf_cell_unwritten (c : Config) {sp : Space} (hsp : sp ≠ .dmem) (a : Nat) :
    (State.resetOf c).cell sp a = none := by
  cases sp
  case dmem => exact absurd rfl hsp
  all_goals rfl

/-- The block is as after reset whatever the HOST agent and the draw counter hold: R280 speaks of none of them. -/
theorem afterReset_resetOf_with (c : Config) (draws : Nat) (agenda : List Turn) (script : List Line) (hostPc : Nat)
    (polls : List Nat) (busData : Word) :
    AfterReset c { State.resetOf c with
      draws := draws, agenda := agenda, script := script, hostPc := hostPc, polls := polls, busData := busData } :=
  ⟨rfl, rfl, rfl, rfl, rfl, rfl, rfl, rfl, rfl, rfl, rfl, rfl, rfl, rfl, rfl, rfl, rfl, rfl, rfl, rfl, rfl, rfl, rfl,
    rfl, rfl, rfl, fun _ => rfl, fun _ hsp a =>
      have hcell := State.resetOf_cell_unwritten c hsp a
      ⟨hcell, State.readByte_of_unwritten hcell⟩⟩

/-- Settles O52: `resetOf` has nothing on the HOST's side, and the host's reset keeps what stands there. -/
theorem resetState : Obligations.ResetState :=
  ⟨fun c => afterReset_resetOf_with c 0 [] [] 0 [] 0,
    fun s => ⟨s.hostReset, rfl, afterReset_resetOf_with s.cfg _ _ _ _ _ _⟩⟩

/-! ## A reset at any point (R281) -/

/-- The host's reset keeps of the state before it only what is no register and no space of the block. -/
theorem State.hostReset_block (s : State) :
    (∀ r, s.hostReset.regValue r = (State.resetOf s.cfg).regValue r) ∧ SameSpaces (State.resetOf s.cfg) s.hostReset :=
  ⟨fun r => by cases r <;> rfl, fun sp _ => by cases sp <;> rfl⟩

/-- Settles O53: the host's reset asks nothing of the state it is taken in, BUSY and HALT included. -/
theorem hostReset : Obligations.HostReset := by
  intro s
  obtain ⟨hregisters, hspaces⟩ := s.hostReset_block
  exact ⟨s.hostReset, rfl, hregisters, rfl, rfl, rfl, hspaces⟩

/-! ## The invariant (R9, R33) -/

/-- Settles O59: an empty stream, empty sinks and no snapshot meet every bound. -/
theorem resetInvariant : Obligations.ResetInvariant := fun _ hvalid => State.Inv.resetOf hvalid

/-! ## The four commands that equal a reset (R284) -/

/-- A block that meets the invariant and is not halted has recorded no error (R255). -/
theorem State.Inv.noError {s : State} (h : s.Inv) (hs : s.halt = false) : s.err = .none ∧ s.errInfo = 0 := by
  obtain ⟨hhalt, hinfo, -⟩ := h.errors
  have herr : s.err = .none := by
    by_contra hne
    simp [hhalt.mpr hne] at hs
  exact ⟨herr, hinfo herr⟩

/-- STATUS shows four fields and no more (R22). -/
theorem State.statusWord_congr {s t : State} (hbusy : s.busy = t.busy) (hhalt : s.halt = t.halt)
    (hovr : s.ovr = t.ovr) (hlast : s.last = t.last) : s.statusWord = t.statusWord := by
  simp only [State.statusWord, hbusy, hhalt, hovr, hlast]

/-- The state after reset, with the fields none of IMG_INIT, STREAM_LOAD, OUT_CLEAR and WARN_CLEAR writes as `s` has
them, and with STREAM_LOAD's operand as IN_LEN. -/
def State.clearedByCommands (s : State) : State :=
  { State.resetOf s.cfg with
    halt := s.halt, err := s.err, errInfo := s.errInfo,
    cw := s.cw, arg := s.arg, lat := s.lat, inLen := s.lat.a0, xlen := s.xlen,
    inMem := s.inMem, msgMem := s.msgMem, snapMem := s.snapMem, outMem := s.outMem, xbufMem := s.xbufMem,
    draws := s.draws + 4, agenda := s.agenda, script := s.script, hostPc := s.hostPc, polls := s.polls,
    busData := s.busData }

theorem exec_streamLoad_fits {s : State} (hs : s.halt = false) (hlen : s.lat.a0.toNat ≤ s.cfg.inBytes) :
    exec .streamLoad s = .next s.streamBound := by
  rw [exec_streamLoad hs, if_neg (Nat.not_lt.mpr hlen)]

/-- The four commands, one after the other, end in `clearedByCommands`: between them they write every other field. -/
theorem exec_clearedByCommands {s : State} (hs : s.halt = false) (hlen : s.lat.a0.toNat ≤ s.cfg.inBytes) :
    ∃ t1 t2 t3, exec .imgInit s = .next t1 ∧ exec .streamLoad t1 = .next t2 ∧ exec .outClear t2 = .next t3
      ∧ exec .warnClear t3 = .next s.clearedByCommands :=
  ⟨_, _, _, runCommand_unhalted (body := imgInitBody) hs, exec_streamLoad_fits hs hlen,
    runCommand_unhalted (body := outClearBody) hs, runCommand_unhalted (body := warnClearBody) hs⟩

/-- Where no error is recorded and the stream bound is empty, only the registers R284 excepts differ from reset. -/
theorem State.clearedByCommands_regValue {s : State} (hs : s.halt = false) (herr : s.err = .none)
    (hinfo : s.errInfo = 0) (h0 : s.lat.a0 = 0) {r : Reg} (hxlen : r ≠ .xlen) (hcmd : r ≠ .cmd)
    (harg : r ∉ [Reg.arg0, .arg1, .arg2, .arg3, .arg4, .arg5]) :
    s.clearedByCommands.regValue r = (State.resetOf s.cfg).regValue r := by
  cases r
  case xlen => exact absurd rfl hxlen
  case cmd => exact absurd rfl hcmd
  case arg0 | arg1 | arg2 | arg3 | arg4 | arg5 => exact absurd (by decide) harg
  case status => exact State.statusWord_congr rfl hs rfl rfl
  case err => exact congrArg ErrCode.code herr
  case errInfo => exact hinfo
  case inLen => exact h0
  all_goals rfl

/-- Settles O54: no command clears ERR, ERR_INFO or HALT; the invariant says that an unhalted block has none to clear. -/
theorem resetEquivalence : Obligations.ResetEquivalence := by
  intro s hinv hs h0
  obtain ⟨herr, hinfo⟩ := hinv.noError hs
  obtain ⟨t1, t2, t3, himgInit, hstreamLoad, houtClear, hwarnClear⟩ := exec_clearedByCommands hs (by simp [h0])
  exact ⟨t1, t2, t3, s.clearedByCommands, himgInit, hstreamLoad, houtClear, hwarnClear,
    fun _ => State.clearedByCommands_regValue hs herr hinfo h0, fun _ => rfl⟩

end Sys2Proof.Machine
end
